-- ==== Sys2Proof/Word.lean ====
section
/-! DEFINITION. The widths of the block's values (00_scope.md R6, R10): every value is an unsigned bit vector. -/

namespace Sys2Proof

/-- One byte: a line byte, a payload-buffer entry, a parser register (R29 to R33). -/
abbrev Byte := BitVec 8

/-- A host word, `DATA_W` = 32 bits (R6, R50). -/
abbrev Word := BitVec 32

/-- A host word address, `ADDR_W` = 18 bits (R6, R50). -/
abbrev Addr := BitVec 18

/-- One depth sample, `SAMPLE_W` = 12 bits (R6, R53). -/
abbrev Sample := BitVec 12

end Sys2Proof
end

