-- ==== Sys2Proof/Syntax.lean ====
section
/-! DEFINITION. The operations of the block (R5, `spec/opcode_table.json`), the seven formats they arrive in (R70), and
the agents' moves (R9, R218). -/

namespace Sys2Proof

/-- What arrives at the block, one constructor per format of R70, with the data the format carries. -/
inductive Input where
  /-- `HOST_WR`: an 18-bit word address and 32 data bits. -/
  | hostWr (addr : Addr) (d : Word)
  /-- `HOST_RD`: an 18-bit word address. -/
  | hostRd (addr : Addr)
  /-- `LINE_BYTE`: the received byte. -/
  | lineByte (b : Byte)
  /-- `LINE_ERR`: a non-timeout receive failure (R84). -/
  | lineErr
  /-- `TIMER`: the attempt timer's timeout (R85). -/
  | timer
  /-- `ENGINE`: one step of the unpacker engine (R85). -/
  | engine
  /-- `RESET` (R85). -/
  | reset
deriving DecidableEq, Repr

/-- One access the host makes (R9, R170, R180). -/
inductive HostOp where
  | write (addr : Addr) (d : Word)
  | read (addr : Addr)
deriving DecidableEq, Repr

/-- Whose step comes next (R9, R218). The line has two kinds of step: it offers the byte it holds, or it reports an error
(which can happen in any state, R84, so it does not queue behind bytes the line still holds). -/
inductive Move where
  | host
  | lineByte
  | lineErr
  | timer
  | engine
  | reset
deriving DecidableEq, Repr, Inhabited

/-- The operations, one constructor per row of the opcode table. Bits that a rule ignores (CMD[15:3], the ARG of every OP
but READ, CTRL[31:1], the data of an ignored write) are operands here, so that no bit of a word is lost in decoding; no
meaning reads them (R79). -/
inductive Instr where
  /-- `CMD_NOP` (R171); `rsv` is CMD[15:3], `arg` is CMD[31:16]. -/
  | cmdNop (rsv : BitVec 13) (arg : BitVec 16)
  /-- `CMD_READ` (R120); `e` is CMD.ARG, the expected payload size. -/
  | cmdRead (rsv : BitVec 13) (e : BitVec 16)
  /-- `CMD_UNPACK` (R152). -/
  | cmdUnpack (rsv : BitVec 13) (arg : BitVec 16)
  /-- `CMD_CLEAR` (R172). -/
  | cmdClear (rsv : BitVec 13) (arg : BitVec 16)
  /-- `CMD_RESERVED` (R173); `op` is the low two bits of OP, whose top bit is 1. -/
  | cmdReserved (op : BitVec 2) (rsv : BitVec 13) (arg : BitVec 16)
  /-- `WR_CTRL` (R174). -/
  | wrCtrl (d : Word)
  /-- `WR_IGNORED` (R175); well formed for an address other than CMD and CTRL. -/
  | wrIgnored (addr : Addr) (d : Word)
  /-- `RD` (R180). -/
  | rd (addr : Addr)
  /-- `RX_BYTE` (R122). -/
  | rxByte (b : Byte)
  /-- `RX_ERR` (R132). -/
  | rxErr
  /-- `TIMEOUT` (R130, R131). -/
  | timeout
  /-- `UNPACK_STEP` (R153). -/
  | unpackStep
  /-- `RESET` (R230). -/
  | reset
deriving DecidableEq, Repr

end Sys2Proof
end

