-- ==== Sys2Proof/Config.lean ====
section
/-! DEFINITION. The parameters and constants of R6, the address map's places (R51), and the free values: what the spec
leaves open, as constants without a body. -/

namespace Sys2Proof

/-- The frame header `MAGIC` (R6), by frame offset. -/
def Config.magic0 : Byte := 0x5A#8
def Config.magic1 : Byte := 0x77#8
def Config.magic2 : Byte := 0xFF#8

/-- `W`, samples in a row (R6, R7). -/
abbrev Config.width : Nat := 160

/-- `H`, rows (R6, R7). -/
abbrev Config.height : Nat := 60

/-- `N` = `W * H`, entries of the sample store (R6, R53). -/
abbrev Config.samples : Nat := 9600

/-- `N / 2`, triplets of one unpack (R81). -/
abbrev Config.triplets : Nat := 4800

/-- `NEED` = `3 * N / 2`, payload bytes the unpacker consumes (R6). -/
abbrev Config.need : Nat := 14400

/-- `E_SENSOR` = `NEED + 1`, the payload size of a sensor frame (R6, R81). -/
abbrev Config.sensorSize : Nat := 14401

/-- `E_DEVINFO`, the payload size of a device-info reply (R6, R82). -/
abbrev Config.devInfoSize : Nat := 7

/-- `T_ATTEMPT` in milliseconds (R6, R212). -/
abbrev Config.attemptMs : Nat := 130

/-- The default of `PAYLOAD_CAP` (R6). The parameter itself is `State.payloadCap`. -/
abbrev Config.defaultCap : Nat := 65535

/-- The GEOMETRY word (R37): `H` in the high half, `W` in the low half. -/
def Config.geometry : Word := 0x003C00A0#32

/-- First address of the payload window (R51, R183). -/
abbrev Config.payloadBase : Nat := 0x10000

/-- First address of the sample window (R51, R184). -/
abbrev Config.sampleBase : Nat := 0x20000

/-- First address past the sample window (R51). -/
abbrev Config.windowEnd : Nat := 0x30000

/-- Free value: what payload-buffer entry `i` holds after RESET number `n` until it is written (R55, I2: "a draw, chosen
at RESET, under no law"). Log entry 1. -/
opaque Config.payloadDraw (n i : Nat) : Byte

/-- Free value: what sample-store entry `j` holds after RESET number `n` until it is written (R55, I2). Log entry 1. -/
opaque Config.sampleDraw (n j : Nat) : Sample

/-- Free value: whose move comes at step `n` when no move has been placed (R218, I5, I7: the order among the agents' steps
is free). Log entry 2. -/
opaque Config.freeMove (n : Nat) : Move

/-- Free value: the access the host makes at step `n` when none has been placed, or none where it makes none (R218: always
enabled, and the host may stop). Log entry 3. -/
opaque Config.freeAccess (n : Nat) : Option HostOp

/-- Free value: the byte the line receives at step `n` when it holds none, or none where it stays silent (R218: any byte; I6,
I13). Log entry 3. -/
opaque Config.freeByte (n : Nat) : Option Byte

end Sys2Proof
end

