-- ==== Sys2Proof/WellFormed.lean ====
section
/-! DEFINITION. Which terms of `Instr` are operations of the block. The types already bound every field; the one check
left is the address of an ignored write (R175, R86). -/

namespace Sys2Proof

/-- A write is ignored only at an address other than CMD (`0x00000`) and CTRL (`0x00001`) (R175). -/
def ignoredAddr (addr : Addr) : Bool := addr != 0#18 && addr != 1#18

/-- Well-formed operations. Every value of every other field is an operation. -/
def Instr.wf : Instr → Bool
  | .cmdNop _ _ => true
  | .cmdRead _ _ => true
  | .cmdUnpack _ _ => true
  | .cmdClear _ _ => true
  | .cmdReserved _ _ _ => true
  | .wrCtrl _ => true
  | .wrIgnored addr _ => ignoredAddr addr
  | .rd _ => true
  | .rxByte _ => true
  | .rxErr => true
  | .timeout => true
  | .unpackStep => true
  | .reset => true

end Sys2Proof
end

