-- ==== Sys2Proof/Decode.lean ====
section
/-! DEFINITION. Decoding, in two layers, and the encoder of each.

R86 gives a decoder of what arrives (`Input`, one constructor per format of R70) that is total: every input is exactly one
row of the opcode table. That is `ofInput`.

The spec gives an operation no bit image beyond its data words. The model's own image is a RECORD of eight bytes, least
significant first: bits 31..0 the data word or byte, bits 49..32 the address, bits 63..56 the format in R70's order
(0 `HOST_WR` to 6 `RESET`), every bit the format does not use 0. `decode` reads a record and rejects by name whatever is not
one. DESIGN CHOICE, log entry 10. -/

namespace Sys2Proof

/-! ### The CMD word (R75, R76) -/

/-- CMD[2:0], the operation code (R75). -/
def cmdOp (d : Word) : BitVec 3 := d.extractLsb' 0 3

/-- CMD[15:3], reserved, ignored by every OP (R75, R79 (b)). -/
def cmdRsv (d : Word) : BitVec 13 := d.extractLsb' 3 13

/-- CMD[31:16], the argument (R75, R77). -/
def cmdArg (d : Word) : BitVec 16 := d.extractLsb' 16 16

/-- The CMD word with the given fields (R75). -/
def cmdWord (op : BitVec 3) (rsv : BitVec 13) (arg : BitVec 16) : Word :=
  (arg.setWidth 32 <<< 16) ||| (rsv.setWidth 32 <<< 3) ||| op.setWidth 32

/-- The command a write to CMD performs, selected by OP (R76, R86 (2)). -/
def ofCommand (d : Word) : Instr :=
  if cmdOp d = 0b000#3 then .cmdNop (cmdRsv d) (cmdArg d)
  else if cmdOp d = 0b001#3 then .cmdRead (cmdRsv d) (cmdArg d)
  else if cmdOp d = 0b010#3 then .cmdUnpack (cmdRsv d) (cmdArg d)
  else if cmdOp d = 0b011#3 then .cmdClear (cmdRsv d) (cmdArg d)
  else .cmdReserved ((cmdOp d).setWidth 2) (cmdRsv d) (cmdArg d)

/-! ### What arrives (R86) -/

/-- The operation an input is: total, one row of the opcode table for every input (R86). -/
def ofInput : Input → Instr
  | .hostWr addr d =>
    if addr = 0x00000#18 then ofCommand d
    else if addr = 0x00001#18 then .wrCtrl d
    else .wrIgnored addr d
  | .hostRd addr => .rd addr
  | .lineByte b => .rxByte b
  | .lineErr => .rxErr
  | .timer => .timeout
  | .engine => .unpackStep
  | .reset => .reset

/-- The input that carries an operation (R70, R75 to R78). -/
def toInput : Instr → Input
  | .cmdNop rsv arg => .hostWr 0x00000#18 (cmdWord 0b000#3 rsv arg)
  | .cmdRead rsv e => .hostWr 0x00000#18 (cmdWord 0b001#3 rsv e)
  | .cmdUnpack rsv arg => .hostWr 0x00000#18 (cmdWord 0b010#3 rsv arg)
  | .cmdClear rsv arg => .hostWr 0x00000#18 (cmdWord 0b011#3 rsv arg)
  | .cmdReserved op rsv arg => .hostWr 0x00000#18 (cmdWord (0b100#3 ||| op.setWidth 3) rsv arg)
  | .wrCtrl d => .hostWr 0x00001#18 d
  | .wrIgnored addr d => .hostWr addr d
  | .rd addr => .hostRd addr
  | .rxByte b => .lineByte b
  | .rxErr => .lineErr
  | .timeout => .timer
  | .unpackStep => .engine
  | .reset => .reset

/-- The input a host access puts on the block's port (R170, R180). -/
def HostOp.toInput : HostOp → Input
  | .write addr d => .hostWr addr d
  | .read addr => .hostRd addr

/-! ### The record of an input -/

/-- Why a byte sequence is not a record. -/
inductive DecodeReject where
  /-- fewer than eight bytes are left. -/
  | truncated
  /-- the format byte names none of the seven formats of R70. -/
  | noSuchFormat
  /-- a bit that the format does not use is 1. -/
  | strayBits
deriving DecidableEq, Repr

/-- A record's bits: format, address and data at their places. -/
def recordBits (format : BitVec 8) (addr : Addr) (d : Word) : BitVec 64 :=
  (format.setWidth 64 <<< 56) ||| (addr.setWidth 64 <<< 32) ||| d.setWidth 64

def recordFormat (r : BitVec 64) : BitVec 8 := r.extractLsb' 56 8
def recordPad (r : BitVec 64) : BitVec 6 := r.extractLsb' 50 6
def recordAddr (r : BitVec 64) : Addr := r.extractLsb' 32 18
def recordData (r : BitVec 64) : Word := r.extractLsb' 0 32

/-- The record of an input. -/
def inputRecord : Input → BitVec 64
  | .hostWr addr d => recordBits 0#8 addr d
  | .hostRd addr => recordBits 1#8 addr 0#32
  | .lineByte b => recordBits 2#8 0#18 (b.setWidth 32)
  | .lineErr => recordBits 3#8 0#18 0#32
  | .timer => recordBits 4#8 0#18 0#32
  | .engine => recordBits 5#8 0#18 0#32
  | .reset => recordBits 6#8 0#18 0#32

/-- The input of a format that carries no data, if the record carries none. -/
def emptyInput (r : BitVec 64) (i : Input) : Except DecodeReject Input :=
  if recordAddr r = 0#18 ∧ recordData r = 0#32 then .ok i else .error .strayBits

/-- The input a record stands for. -/
def recordInput (r : BitVec 64) : Except DecodeReject Input :=
  if recordPad r ≠ 0#6 then .error .strayBits
  else if recordFormat r = 0#8 then .ok (.hostWr (recordAddr r) (recordData r))
  else if recordFormat r = 1#8 then
    if recordData r = 0#32 then .ok (.hostRd (recordAddr r)) else .error .strayBits
  else if recordFormat r = 2#8 then
    if recordAddr r = 0#18 ∧ (recordData r).extractLsb' 8 24 = 0#24 then
      .ok (.lineByte ((recordData r).extractLsb' 0 8))
    else .error .strayBits
  else if recordFormat r = 3#8 then emptyInput r .lineErr
  else if recordFormat r = 4#8 then emptyInput r .timer
  else if recordFormat r = 5#8 then emptyInput r .engine
  else if recordFormat r = 6#8 then emptyInput r .reset
  else .error .noSuchFormat

/-- Eight bytes, least significant first, as 64 bits. -/
def joinBytes (b0 b1 b2 b3 b4 b5 b6 b7 : Byte) : BitVec 64 :=
  (b7.setWidth 64 <<< 56) ||| (b6.setWidth 64 <<< 48) ||| (b5.setWidth 64 <<< 40) ||| (b4.setWidth 64 <<< 32) |||
  (b3.setWidth 64 <<< 24) ||| (b2.setWidth 64 <<< 16) ||| (b1.setWidth 64 <<< 8) ||| b0.setWidth 64

/-- 64 bits as eight bytes, least significant first. -/
def splitBytes (r : BitVec 64) : List Byte :=
  [r.extractLsb' 0 8, r.extractLsb' 8 8, r.extractLsb' 16 8, r.extractLsb' 24 8,
   r.extractLsb' 32 8, r.extractLsb' 40 8, r.extractLsb' 48 8, r.extractLsb' 56 8]

/-- The input at the head of a byte sequence, and the rest. Total: a sequence that does not begin with a record is
rejected by name. -/
def decodeInput : List Byte → Except DecodeReject (Input × List Byte)
  | b0 :: b1 :: b2 :: b3 :: b4 :: b5 :: b6 :: b7 :: rest =>
    match recordInput (joinBytes b0 b1 b2 b3 b4 b5 b6 b7) with
    | .ok i => .ok (i, rest)
    | .error r => .error r
  | _ => .error .truncated

/-- The operation at the head of a byte sequence, and the rest. -/
def decode (bytes : List Byte) : Except DecodeReject (Instr × List Byte) :=
  match decodeInput bytes with
  | .ok (i, rest) => .ok (ofInput i, rest)
  | .error r => .error r

/-- The record of an operation. -/
def encode (i : Instr) : List Byte := splitBytes (inputRecord (toInput i))

/-! ### The opcode table's words

The table numbers a row's bits from the data word; it gives the format and the address no bits. With those bits 0 a word is
a host write to CMD. A row of one byte is a byte on the line port: `LINE_BYTE` is the only format of the table that carries
one. Rows that differ from these only in format or address share their words with them and cannot be told apart by bits
alone. DESIGN CHOICE, log entry 10. -/

/-- The record that a table row's `nbits` bits `w` are laid out as. -/
def tableBytes (nbits w : Nat) : List Byte :=
  if nbits = 8 then splitBytes (inputRecord (.lineByte (BitVec.ofNat 8 w)))
  else splitBytes (BitVec.ofNat 64 w)

/-- The input the decoder reads from a table row's bits. -/
def tableInput (nbits w : Nat) : Option Input :=
  match decodeInput (tableBytes nbits w) with
  | .ok (i, _) => some i
  | .error _ => none

/-- The operation the decoder reads from a table row's bits. -/
def decodeTableWord (nbits w : Nat) : Option Instr := (tableInput nbits w).map ofInput

end Sys2Proof
end

