-- ==== Sys2Proof/Machine/State.lean ====
section
/-! DEFINITION. The state of the block (R20), the parameter it is built with (R6), and the agents around it (R9, R39). -/

namespace Sys2Proof.Machine

/-- STATE (R21). Every 2-bit value is a legal state. -/
inductive Mode where
  | idle
  | reading
  | unpacking
  | done
deriving DecidableEq, Repr

/-- RESULT (R22, R201). The reserved codes 9 to 15 are never written, and cannot be held (I3, log entry 9). -/
inductive Result where
  | none
  | frameOk
  | badMagic
  | badSize
  | badChecksum
  | transportError
  | aborted
  | unpackOk
  | payloadTooShort
deriving DecidableEq, Repr

/-- A store's written entries, as pairs of index and value, indices rising (`Memory.wf` in Machine/Ops.lean). An index
that is not listed has not been written since RESET. `Memory Byte` is a list of `Host.Cell`. -/
abbrev Memory (α : Type) := List (Nat × α)

/-- Why the block stops. None of these is an event the spec names: its errors are result codes (R200). Each stands where
the spec's rules give no case, and only in states that no run reaches (R41). Safe: a claim may become unprovable there, and
no false one becomes provable. Log entry 6. -/
inductive Fault where
  /-- Raised by RX_BYTE while READING when POS is beyond EXPECTED + 5, where R122's case has no branch. Safe. -/
  | framePosition
  /-- Raised by RX_BYTE and UNPACK_STEP for an index of P at or beyond PAYLOAD_CAP, which does not exist (R52). Safe. -/
  | payloadIndex
  /-- Raised by UNPACK_STEP when UPK_IDX is at or beyond N / 2, whose samples do not exist (R53, R153). Safe. -/
  | sampleIndex
deriving DecidableEq, Repr

/-- Why an operation has no meaning. -/
inductive Refusal where
  /-- Raised by `exec` for an operation the model gives no meaning; no arm raises it. Safe. -/
  | notModelled (mnemonic : String)
deriving DecidableEq, Repr

/-- The block, its parameter, and its agents. -/
structure State where
  /-- STATE (R21). -/
  state : Mode
  /-- RESULT (R22). -/
  result : Result
  /-- PAYLOAD_VALID (R23). -/
  payloadValid : Bool
  /-- SAMPLES_VALID (R24). -/
  samplesValid : Bool
  /-- CMD_REJECT (R25). -/
  cmdReject : Bool
  /-- ERR_MAGIC (R26). -/
  errMagic : Bool
  /-- ERR_SIZE (R26). -/
  errSize : Bool
  /-- ERR_CKSUM (R26). -/
  errCksum : Bool
  /-- CANCEL (R27). -/
  cancel : Bool
  /-- EXPECTED, the `E` of the current or last frame read (R28). -/
  expected : BitVec 16
  /-- POS, bytes accepted in the current attempt (R29). -/
  pos : BitVec 17
  /-- ACC, the running XOR (R30). -/
  acc : Byte
  /-- SIZE_LO (R31). -/
  sizeLo : Byte
  /-- SIZE_HI (R31). -/
  sizeHi : Byte
  /-- CK_RX, the received checksum (R32). -/
  ckRx : Byte
  /-- MAGIC_RX0 (R33). -/
  magicRx0 : Byte
  /-- MAGIC_RX1 (R33). -/
  magicRx1 : Byte
  /-- MAGIC_RX2 (R33). -/
  magicRx2 : Byte
  /-- ATTEMPTS (R34). -/
  attempts : BitVec 32
  /-- UPK_IDX (R35). -/
  upkIdx : BitVec 16
  /-- The written entries of the payload buffer `P` (R52). -/
  payload : List (Nat × Byte)
  /-- The written entries of the sample store `S` (R53). -/
  samples : List (Nat × Sample)
  /-- The parameter PAYLOAD_CAP (R6): configuration, changed by no step. Log entry 4. -/
  payloadCap : Nat
  /-- The MODEL's own: which draw the unwritten entries of `P` and `S` are of (R55). Log entry 1. -/
  drawNo : Nat
  /-- The host agent: the accesses placed to come, oldest first; past them its accesses are free. Log entry 3. -/
  host : List HostOp
  /-- The line agent: bytes the block has not accepted, oldest first (R39 (a), R133); past them the line's bytes are free. Log
  entry 3. -/
  line : List Byte
  /-- The host agent: the word the last RD returned (R180), if there was one. Log entry 5. -/
  hostData : Option Word
  /-- The MODEL's own: the moves placed to come next, oldest first (R218). Log entry 2. -/
  moves : List Move
  /-- The MODEL's own: how many steps were taken, which picks the free move (R218). Log entry 2. -/
  moveNo : Nat
deriving DecidableEq, Repr

/-- The state right after RESET (R230, R231): every register 0, IDLE, no result; nothing of `P` and `S` written, so every
entry is its draw. The parameter has the spec's default (R6), and nothing is placed
with the agents, so what they do is free (log entries 2 and 3). -/
def State.reset : State where
  state := .idle
  result := .none
  payloadValid := false
  samplesValid := false
  cmdReject := false
  errMagic := false
  errSize := false
  errCksum := false
  cancel := false
  expected := 0x0000#16
  pos := 0#17
  acc := 0x00#8
  sizeLo := 0x00#8
  sizeHi := 0x00#8
  ckRx := 0x00#8
  magicRx0 := 0x00#8
  magicRx1 := 0x00#8
  magicRx2 := 0x00#8
  attempts := 0#32
  upkIdx := 0#16
  payload := []
  samples := []
  payloadCap := Config.defaultCap
  drawNo := 0
  host := []
  line := []
  hostData := none
  moves := []
  moveNo := 0

end Sys2Proof.Machine
end

