-- ==== Sys2Proof/Machine/Operands.lean ====
section
/-! DEFINITION. Where an operation's operands come from: the frame field a byte falls into (R71, R122), the little-endian
size (R73), the codes of STATE and RESULT (R21, R201), the places of samples (R54). -/

namespace Sys2Proof.Machine

/-- The field of a frame, told from the frame offset and `E` alone (R71, R72). -/
inductive FrameField where
  /-- offsets 0, 1, 2 -/
  | header (i : Nat)
  /-- offset 3 -/
  | sizeLo
  /-- offset 4 -/
  | sizeHi
  /-- offsets 5 to `E + 4`; the payload index is the offset less 5 -/
  | payload (i : Nat)
  /-- offset `E + 5` -/
  | checksum
  /-- past the frame: no byte of an attempt has this offset (R41 (a)) -/
  | beyond
deriving DecidableEq, Repr

/-- The field at frame offset `p` of a frame with expected payload size `e` (R122's case). -/
def frameField (p e : Nat) : FrameField :=
  if p < 3 then .header p
  else if p = 3 then .sizeLo
  else if p = 4 then .sizeHi
  else if p < e + 5 then .payload (p - 5)
  else if p = e + 5 then .checksum
  else .beyond

/-- The received size, little-endian: `{hi, lo}` (R56, R73). -/
def sizeField (lo hi : Byte) : BitVec 16 := (hi.setWidth 16 <<< 8) ||| lo.setWidth 16

/-- The 2-bit encoding of STATE (R21). -/
def Mode.code : Mode → BitVec 2
  | .idle => 0#2
  | .reading => 1#2
  | .unpacking => 2#2
  | .done => 3#2

/-- The 4-bit encoding of RESULT (R201). -/
def Result.code : Result → BitVec 4
  | .none => 0#4
  | .frameOk => 1#4
  | .badMagic => 2#4
  | .badSize => 3#4
  | .badChecksum => 4#4
  | .transportError => 5#4
  | .aborted => 6#4
  | .unpackOk => 7#4
  | .payloadTooShort => 8#4

/-- CTRL[0], the cancellation flag (R78). -/
def ctrlCancel (d : Word) : Bool := d.getLsbD 0

/-- `sat_inc_32` (R11): one more, or the same at `2^32 - 1`. -/
def satInc32 (v : BitVec 32) : BitVec 32 := if v = 0xFFFFFFFF#32 then v else v + 1#32

/-- The sample-store entry of row `y`, column `x`, row-major (R54). -/
def sampleIndex (y x : Nat) : Nat := y * Config.width + x

/-- The row of sample-store entry `j` (R54). -/
def sampleRow (j : Nat) : Nat := j / Config.width

/-- The column of sample-store entry `j` (R54). -/
def sampleColumn (j : Nat) : Nat := j % Config.width

end Sys2Proof.Machine
end

