-- ==== Sys2Proof/Machine/Validator.lean ====
section
/-! DEFINITION. The frame validator as pure functions over a finished frame (40_frame_validator.md): the reference the
parser is held against (R129). -/

namespace Sys2Proof.Machine

/-- `xor_fold` (R11). -/
def xorFold : List Byte → Byte
  | [] => 0x00#8
  | b :: s => b ^^^ xorFold s

/-- `Checksum(lo, hi, payload)` (R100, R74): the canonical checksum, with no padding bytes (R109). Log entry 12. -/
def checksum (lo hi : Byte) (payload : List Byte) : Byte := xorFold (lo :: hi :: payload)

/-- `MagicOk(m0, m1, m2)` (R101). -/
def magicOk (m0 m1 m2 : Byte) : Bool := m0 == Config.magic0 && m1 == Config.magic1 && m2 == Config.magic2

/-- `SizeOk(lo, hi, E)` (R102). -/
def sizeOk (lo hi : Byte) (e : BitVec 16) : Bool := sizeField lo hi == e

/-- A decoded frame (R103). -/
structure Frame where
  size : BitVec 16
  payload : List Byte
  checksum : Byte
deriving DecidableEq, Repr

/-- The three structural failures (R101 to R103). -/
inductive ProtocolError where
  | badMagic
  | badSize
  | badChecksum
deriving DecidableEq, Repr

/-- The three check results of one frame, each true when its check failed: (ERR_MAGIC, ERR_SIZE, ERR_CKSUM) (R103). -/
structure CheckFlags where
  magic : Bool
  size : Bool
  cksum : Bool
deriving DecidableEq, Repr

/-- What `Decode` answers (R103): a frame, or the first failed check; in both cases all three check results. -/
inductive Decoded where
  | ok (frame : Frame) (flags : CheckFlags)
  | err (error : ProtocolError) (flags : CheckFlags)
  /-- The length is not `E + 6`: `Decode` is not defined there (R103, I12: refuse). Safe. Log entry 8. -/
  | undefinedLength
deriving DecidableEq, Repr

/-- The verdict of R103 on the parts of a frame. -/
def verdict (flags : CheckFlags) (frame : Frame) : Decoded :=
  if flags.magic then .err .badMagic flags
  else if flags.size then .err .badSize flags
  else if flags.cksum then .err .badChecksum flags
  else .ok frame flags

/-- `Decode(F, E)` (R103), defined for `len(F) = E + 6`. -/
def frameDecode (f : List Byte) (e : BitVec 16) : Decoded :=
  if f.length = e.toNat + 6 then
    match f with
    | m0 :: m1 :: m2 :: lo :: hi :: rest =>
      let payload := rest.take e.toNat
      let ck := rest.getD e.toNat 0x00#8
      verdict ⟨!magicOk m0 m1 m2, !sizeOk lo hi e, checksum lo hi payload != ck⟩ ⟨e, payload, ck⟩
    | _ => .undefinedLength
  else .undefinedLength

/-- `n[7:0]` of a payload's length (R104). -/
def lengthLo (p : List Byte) : Byte := BitVec.ofNat 8 p.length

/-- `n[15:8]` of a payload's length (R104). -/
def lengthHi (p : List Byte) : Byte := BitVec.ofNat 8 (p.length / 256)

/-- `ToWire(p)` (R104): the frame of a payload of at most 65535 bytes; of a longer one there is none. -/
def toWire (p : List Byte) : Option (List Byte) :=
  if p.length ≤ 65535 then
    some ([Config.magic0, Config.magic1, Config.magic2, lengthLo p, lengthHi p] ++ p ++
      [checksum (lengthLo p) (lengthHi p) p])
  else none

end Sys2Proof.Machine
end

