-- ==== Sys2Proof/Machine/Flags.lean ====
section
/-! DEFINITION. Every flag computation: the three check flags as the parser's bytes set them (R123, R125, R127), the code a
completed read reports (R128, R204), and the STATUS word (R181). -/

namespace Sys2Proof.Machine

/-- `MAGIC[p]` (R123). -/
def magicByte (p : Nat) : Byte :=
  if p = 0 then Config.magic0 else if p = 1 then Config.magic1 else Config.magic2

/-- ERR_MAGIC after header byte `b` at offset `p`: set by a wrong byte, kept otherwise (R123). -/
def errMagicAfter (was : Bool) (p : Nat) (b : Byte) : Bool := was || b != magicByte p

/-- ERR_SIZE after the high size byte `b`: set by a wrong size, kept otherwise (R125). -/
def errSizeAfter (was : Bool) (lo b : Byte) (e : BitVec 16) : Bool := was || sizeField lo b != e

/-- ERR_CKSUM at the checksum byte `b`: written with the outcome of the check (R127). -/
def errCksumAt (acc b : Byte) : Bool := b != acc

/-- The code of a completed read: the first of the failed checks, magic before size before checksum (R128, R204). -/
def readCode (magic size cksum : Bool) : Result :=
  if magic then .badMagic
  else if size then .badSize
  else if cksum then .badChecksum
  else .frameOk

/-- A flag as a word. -/
def flagWord (f : Bool) : Word := if f then 1#32 else 0#32

/-- The STATUS word (R181). -/
def statusWord (s : State) : Word :=
  s.state.code.setWidth 32 ||| (flagWord s.payloadValid <<< 3) ||| (flagWord s.samplesValid <<< 4) |||
  (flagWord s.cmdReject <<< 5) ||| (flagWord s.errMagic <<< 6) ||| (flagWord s.errSize <<< 7) |||
  (flagWord s.errCksum <<< 8) ||| (s.result.code.setWidth 32 <<< 12)

/-- `done`, the completion output (R40). -/
def doneOut (s : State) : Bool := s.state == .done

/-- `rx_ready`, the line handshake (R40, R84). -/
def rxReady (s : State) : Bool := s.state == .reading

end Sys2Proof.Machine
end

