-- ==== Sys2Proof/Machine/Ops.lean ====
section
/-! DEFINITION. The named operations over the stores and the registers, which the meanings share: reading and writing a
store, ending an operation (`finish`, the block's one way to report an error, R200, R206), rejecting a command (R209),
starting an attempt (R121). -/

namespace Sys2Proof.Machine

/-! ### Stores -/

/-- The value written at index `a`, if one was since RESET. -/
def Memory.get {α : Type} : Memory α → Nat → Option α
  | [], _ => none
  | (k, v) :: m, a => if a = k then some v else Memory.get m a

/-- Write `v` at index `a`, keeping the indices rising. -/
def Memory.put {α : Type} : Memory α → Nat → α → Memory α
  | [], a, v => [(a, v)]
  | (k, w) :: m, a, v =>
    if a < k then (a, v) :: (k, w) :: m
    else if a = k then (a, v) :: m
    else (k, w) :: Memory.put m a v

/-- The canonical form: indices strictly rising. An unlisted index has no written value, so no entry can equal one. -/
def Memory.wf {α : Type} (m : Memory α) : Bool := decide ((m.map Prod.fst).Pairwise (· < ·))

/-- Every index listed is below `n`. -/
def Memory.below {α : Type} (m : Memory α) (n : Nat) : Bool := m.all fun c => decide (c.1 < n)

/-- `P[i]` (R12): the written byte, or the draw of the last RESET (R55). The one place that says what an unwritten entry
reads as. -/
def readPayload (s : State) (i : Nat) : Byte := (Memory.get s.payload i).getD (Config.payloadDraw s.drawNo i)

/-- `S[j]` (R12): the written sample, or the draw of the last RESET (R55). -/
def readSample (s : State) (j : Nat) : Sample := (Memory.get s.samples j).getD (Config.sampleDraw s.drawNo j)

/-- `P[i] <- b` (R12). -/
def writePayload (i : Nat) (b : Byte) (s : State) : State := { s with payload := Memory.put s.payload i b }

/-- `S[j] <- v` (R12). -/
def writeSample (j : Nat) (v : Sample) (s : State) : State := { s with samples := Memory.put s.samples j v }

/-- The first `n` entries of `P`, in order. -/
def payloadPrefix (s : State) (n : Nat) : List Byte := (List.range n).map (readPayload s)

/-! ### Results and commands -/

/-- `finish(code)` (R12, R206): the operation ends; STATE is DONE and RESULT the code. Every error of the block is entered
so: it raises no trap, saves no context and transfers control nowhere (R200). -/
def finish (code : Result) (s : State) : State := { s with state := .done, result := code }

/-- A command is rejected: CMD_REJECT is set and nothing else changes (R176, R209). -/
def reject (s : State) : State := { s with cmdReject := true }

/-- Whether READ, UNPACK and CLEAR may be accepted: STATE is IDLE or DONE (R176). Accepting one of them is the only way out
of DONE but RESET: the block's return from an error (R207). -/
def commandOpen (s : State) : Bool := s.state == .idle || s.state == .done

/-- `attempt_reset()` (R121): clears the per-attempt state. -/
def attemptReset (s : State) : State :=
  { s with
    pos := 0#17, acc := 0x00#8, sizeLo := 0x00#8, sizeHi := 0x00#8, ckRx := 0x00#8,
    magicRx0 := 0x00#8, magicRx1 := 0x00#8, magicRx2 := 0x00#8,
    errMagic := false, errSize := false, errCksum := false }

/-- An accepted CMD READ (R120). -/
def startRead (e : BitVec 16) (s : State) : State :=
  attemptReset
    { s with expected := e, state := .reading, result := .none, payloadValid := false, attempts := 1#32 }

/-- A CMD UNPACK that starts an unpack (R152). -/
def startUnpack (s : State) : State :=
  { s with state := .unpacking, result := .none, samplesValid := false, upkIdx := 0#16 }

/-- An accepted CMD CLEAR (R172). -/
def acknowledge (s : State) : State :=
  { s with
    state := .idle, result := .none, errMagic := false, errSize := false, errCksum := false, cmdReject := false }

/-- A retried attempt (R130). -/
def retryAttempt (s : State) : State := attemptReset { s with attempts := satInc32 s.attempts }

end Sys2Proof.Machine
end

