-- ==== Sys2Proof/Machine/Agents.lean ====
section
/-! DEFINITION. The agents (R9, R218): whose move comes next, and which operation it is. -/

namespace Sys2Proof.Machine

/-- Whose move comes next: the first one placed, or the free choice (R218, I5). -/
def chosenMove (s : State) : Move :=
  match s.moves with
  | m :: _ => m
  | [] => Config.freeMove s.moveNo

/-- The move is spent. -/
def takeMove (s : State) : State := { s with moves := s.moves.tail, moveNo := s.moveNo + 1 }

/-- The host's next access and the ones placed after it: the first one placed, or, with none placed, the free choice of an
access or of none (R218). -/
def nextAccess (s : State) : Option (HostOp × List HostOp) :=
  match s.host with
  | op :: rest => some (op, rest)
  | [] => (Config.freeAccess s.moveNo).map fun op => (op, [])

/-- The byte the line offers and the ones it holds after it: the first one it holds, or, holding none, the free choice of a
byte it receives or of silence (R218, I6). -/
def nextByte (s : State) : Option (Byte × List Byte) :=
  match s.line with
  | b :: rest => some (b, rest)
  | [] => (Config.freeByte s.moveNo).map fun b => (b, [])

/-- The operation the chosen agent takes, and the state with it taken from that agent. `none`: the host makes no access or the
line offers no byte, so the agent takes no step. A byte offered while `rx_ready` is 0 stays with the line (R84, R133); its
RX_BYTE is then the one that the block does not accept (`execRxByte`). -/
def fetch (s : State) : Option (Instr × State) :=
  match chosenMove s with
  | .host =>
    match nextAccess s with
    | some (op, rest) => some (ofInput op.toInput, { takeMove s with host := rest })
    | none => none
  | .lineByte =>
    match nextByte s with
    | some (b, rest) => some (.rxByte b, { takeMove s with line := if rxReady s then rest else b :: rest })
    | none => none
  | .lineErr => some (ofInput .lineErr, takeMove s)
  | .timer => some (ofInput .timer, takeMove s)
  | .engine => some (ofInput .engine, takeMove s)
  | .reset => some (ofInput .reset, takeMove s)

/-- Put an input where the next step fetches it: at the head of its agent's list, that agent's move first. -/
def placeInput (i : Input) (s : State) : State :=
  match i with
  | .hostWr addr d => { s with host := .write addr d :: s.host, moves := .host :: s.moves }
  | .hostRd addr => { s with host := .read addr :: s.host, moves := .host :: s.moves }
  | .lineByte b => { s with line := b :: s.line, moves := .lineByte :: s.moves }
  | .lineErr => { s with moves := .lineErr :: s.moves }
  | .timer => { s with moves := .timer :: s.moves }
  | .engine => { s with moves := .engine :: s.moves }
  | .reset => { s with moves := .reset :: s.moves }

end Sys2Proof.Machine
end

