-- ==== Sys2Proof/Machine/HostAccess.lean ====
section
/-! DEFINITION. Host access (43_host_access.md): NOP, CLEAR, reserved commands, CTRL, ignored writes, and reads of the whole
address map. -/

namespace Sys2Proof.Machine

/-- `CMD_NOP` (R171): no effect, in every state. -/
def execCmdNop (_rsv : BitVec 13) (_arg : BitVec 16) (s : State) : Host.Outcome State Fault Refusal := .next s

/-- `CMD_CLEAR` (R172). -/
def execCmdClear (_rsv : BitVec 13) (_arg : BitVec 16) (s : State) : Host.Outcome State Fault Refusal :=
  if commandOpen s then .next (acknowledge s) else .next (reject s)

/-- `CMD_RESERVED` (R173): rejected in every state. -/
def execCmdReserved (_op : BitVec 2) (_rsv : BitVec 13) (_arg : BitVec 16) (s : State) :
    Host.Outcome State Fault Refusal := .next (reject s)

/-- `WR_CTRL` (R174): CANCEL takes bit 0, in every state. -/
def execWrCtrl (d : Word) (s : State) : Host.Outcome State Fault Refusal := .next { s with cancel := ctrlCancel d }

/-- `WR_IGNORED` (R175): no effect, and CMD_REJECT is not set. -/
def execWrIgnored (_addr : Addr) (_d : Word) (s : State) : Host.Outcome State Fault Refusal := .next s

/-- The register words (R181, R182) at addresses `0x00000` to `0x0000A`; the addresses above them up to the payload window
are unmapped and read 0 (R185). -/
def registerWord (s : State) (a : Nat) : Word :=
  if a = 0x1 then flagWord s.cancel
  else if a = 0x2 then statusWord s
  else if a = 0x3 then s.expected.setWidth 32
  else if a = 0x4 then (sizeField s.sizeLo s.sizeHi).setWidth 32
  else if a = 0x5 then (s.acc.setWidth 32 <<< 8) ||| s.ckRx.setWidth 32
  else if a = 0x6 then s.attempts
  else if a = 0x7 then s.pos.setWidth 32
  else if a = 0x8 then
    (s.magicRx2.setWidth 32 <<< 16) ||| (s.magicRx1.setWidth 32 <<< 8) ||| s.magicRx0.setWidth 32
  else if a = 0x9 then s.upkIdx.setWidth 32
  else if a = 0xA then Config.geometry
  else 0#32

/-- The payload window (R183): the bytes of `P`, and 0 at and beyond PAYLOAD_CAP. -/
def payloadWindow (s : State) (i : Nat) : Word :=
  if i < s.payloadCap then (readPayload s i).setWidth 32 else 0#32

/-- The sample window (R184): the samples of `S`, and 0 at and beyond `N`. -/
def sampleWindow (s : State) (j : Nat) : Word :=
  if j < Config.samples then (readSample s j).setWidth 32 else 0#32

/-- `MemRead(addr, 4)` (R12, R180): the word the host reads at an address, by the map of R51. -/
def hostRead (s : State) (addr : Addr) : Word :=
  if addr.toNat < Config.payloadBase then registerWord s addr.toNat
  else if addr.toNat < Config.sampleBase then payloadWindow s (addr.toNat - Config.payloadBase)
  else if addr.toNat < Config.windowEnd then sampleWindow s (addr.toNat - Config.sampleBase)
  else 0#32

/-- `RD` (R180, R186): the word goes to the host; the block does not change. -/
def execRd (addr : Addr) (s : State) : Host.Outcome State Fault Refusal :=
  .next { s with hostData := some (hostRead s addr) }

end Sys2Proof.Machine
end

