-- ==== Sys2Proof/Machine/Parser.lean ====
section
/-! DEFINITION. The frame parser (41_frame_parser.md): CMD READ, RX_BYTE, RX_ERR, TIMEOUT. -/

namespace Sys2Proof.Machine

/-- `CMD_READ` (R120). -/
def execCmdRead (_rsv : BitVec 13) (e : BitVec 16) (s : State) : Host.Outcome State Fault Refusal :=
  if commandOpen s && decide (e.toNat ≤ s.payloadCap) then .next (startRead e s) else .next (reject s)

/-- The header byte at offset `p` (R123). -/
def acceptHeader (p : Nat) (b : Byte) (s : State) : State :=
  { s with
    magicRx0 := if p = 0 then b else s.magicRx0
    magicRx1 := if p = 1 then b else s.magicRx1
    magicRx2 := if p = 2 then b else s.magicRx2
    errMagic := errMagicAfter s.errMagic p b }

/-- The low size byte (R124). -/
def acceptSizeLo (b : Byte) (s : State) : State := { s with sizeLo := b, acc := s.acc ^^^ b }

/-- The high size byte (R125). -/
def acceptSizeHi (b : Byte) (s : State) : State :=
  { s with sizeHi := b, acc := s.acc ^^^ b, errSize := errSizeAfter s.errSize s.sizeLo b s.expected }

/-- The payload byte of index `i` (R126). -/
def acceptPayload (i : Nat) (b : Byte) (s : State) : State := writePayload i b { s with acc := s.acc ^^^ b }

/-- The checksum byte (R127). -/
def acceptChecksum (b : Byte) (s : State) : State := { s with ckRx := b, errCksum := errCksumAt s.acc b }

/-- `POS <- p + 1` (R122). -/
def advance (s : State) : State := { s with pos := s.pos + 1#17 }

/-- Completion of a frame read (R128), with the flags as they stand after the checksum byte. -/
def completeRead (s : State) : State :=
  finish (readCode s.errMagic s.errSize s.errCksum)
    { s with payloadValid := readCode s.errMagic s.errSize s.errCksum == .frameOk }

/-- A byte accepted while READING (R122): the case of its frame offset, POS advanced, and at the last byte the completion. -/
def acceptByte (b : Byte) (s : State) : Host.Outcome State Fault Refusal :=
  match frameField s.pos.toNat s.expected.toNat with
  | .header p => .next (advance (acceptHeader p b s))
  | .sizeLo => .next (advance (acceptSizeLo b s))
  | .sizeHi => .next (advance (acceptSizeHi b s))
  | .payload i =>
    if i < s.payloadCap then .next (advance (acceptPayload i b s)) else .fault .payloadIndex
  | .checksum => .next (completeRead (advance (acceptChecksum b s)))
  | .beyond => .fault .framePosition

/-- `RX_BYTE` (R122). Outside READING the block does not accept the byte and does not change: the line holds it (R133, and
`fetch` in Machine/Agents.lean). Log entry 7. -/
def execRxByte (b : Byte) (s : State) : Host.Outcome State Fault Refusal :=
  if rxReady s then acceptByte b s else .next s

/-- `RX_ERR` (R132): ends a read in progress; lost otherwise. -/
def execRxErr (s : State) : Host.Outcome State Fault Refusal :=
  if rxReady s then .next (finish .transportError s) else .next s

/-- `TIMEOUT` (R130, R131): retries the attempt, or with CANCEL set ends the read. Outside READING the timer does not count
and there is no timeout to take (R213). Log entry 7. -/
def execTimeout (s : State) : Host.Outcome State Fault Refusal :=
  if rxReady s then
    if s.cancel then .next (finish .aborted s) else .next (retryAttempt s)
  else .next s

end Sys2Proof.Machine
end

