-- ==== Sys2Proof/Machine/Reset.lean ====
section
/-! DEFINITION. RESET (R230 to R232). -/

namespace Sys2Proof.Machine

/-- Every register to its reset value, and `P` and `S` redrawn: nothing of them is written any more, and the draw is a new
one (R230, R55). The parameter stays; the line keeps its bytes (R232), and the host and the order of moves are not the
block's to reset. -/
def resetBlock (s : State) : State :=
  { State.reset with
    payloadCap := s.payloadCap, drawNo := s.drawNo + 1, host := s.host, line := s.line, hostData := s.hostData,
    moves := s.moves, moveNo := s.moveNo }

/-- `RESET` (R230): in every state. -/
def execReset (s : State) : Host.Outcome State Fault Refusal := .next (resetBlock s)

end Sys2Proof.Machine
end

