-- ==== Sys2Proof/Machine/Unpacker.lean ====
section
/-! DEFINITION. The sample unpacker (42_unpacker.md): the pure functions `Pair` and `Unpack`, CMD UNPACK, UNPACK_STEP. -/

namespace Sys2Proof.Machine

/-- `s_even` of `Pair` (R151), computed at 16 bits. -/
def pairEven (b0 b1 : Byte) : Sample :=
  (b0.setWidth 16 ||| ((b1.setWidth 16 &&& 0x000F#16) <<< 8)).setWidth 12

/-- `s_odd` of `Pair` (R151), computed at 16 bits: `b2 << 4` keeps all 8 bits of `b2`. -/
def pairOdd (b1 b2 : Byte) : Sample :=
  (((b1.setWidth 16 &&& 0x00F0#16) >>> 4) ||| (b2.setWidth 16 <<< 4)).setWidth 12

/-- `Pair(b0, b1, b2)` (R151). -/
def pair (b0 b1 b2 : Byte) : Sample × Sample := (pairEven b0 b1, pairOdd b1 b2)

/-- The samples of the first `n` triplets of a byte sequence (R150's loop). -/
def unpackTriplets : Nat → List Byte → List Sample
  | n + 1, b0 :: b1 :: b2 :: rest => pairEven b0 b1 :: pairOdd b1 b2 :: unpackTriplets n rest
  | _, _ => []

/-- `Unpack(pay)` (R150): none is `PayloadTooShort`. -/
def unpack (pay : List Byte) : Option (List Sample) :=
  if pay.length < Config.need then none else some (unpackTriplets Config.triplets pay)

/-- `CMD_UNPACK` (R152, R155). -/
def execCmdUnpack (_rsv : BitVec 13) (_arg : BitVec 16) (s : State) : Host.Outcome State Fault Refusal :=
  if commandOpen s && s.payloadValid then
    if s.expected.toNat < Config.need then .next (finish .payloadTooShort s) else .next (startUnpack s)
  else .next (reject s)

/-- The samples of triplet `k` written, UPK_IDX advanced (R153). -/
def unpackTriplet (k : Nat) (s : State) : State :=
  let e := pairEven (readPayload s (3 * k)) (readPayload s (3 * k + 1))
  let o := pairOdd (readPayload s (3 * k + 1)) (readPayload s (3 * k + 2))
  { writeSample (2 * k + 1) o (writeSample (2 * k) e s) with upkIdx := s.upkIdx + 1#16 }

/-- Completion of an unpack (R154). -/
def completeUnpack (s : State) : State := finish .unpackOk { s with samplesValid := true }

/-- `UNPACK_STEP` (R153, R154). Outside UNPACKING the engine takes no step (R218). Log entry 7. -/
def execUnpackStep (s : State) : Host.Outcome State Fault Refusal :=
  if s.state = .unpacking then
    if Config.triplets ≤ s.upkIdx.toNat then .fault .sampleIndex
    else if s.payloadCap ≤ 3 * s.upkIdx.toNat + 2 then .fault .payloadIndex
    else if s.upkIdx.toNat + 1 = Config.triplets then .next (completeUnpack (unpackTriplet s.upkIdx.toNat s))
    else .next (unpackTriplet s.upkIdx.toNat s)
  else .next s

end Sys2Proof.Machine
end

