-- ==== Sys2Proof/Machine/Dispatch.lean ====
section
/-! DEFINITION. One arm per operation of the opcode table. -/

namespace Sys2Proof.Machine

def exec (i : Instr) (s : State) : Host.Outcome State Fault Refusal :=
  match i with
  | .cmdNop rsv arg => Sys2Proof.Machine.execCmdNop rsv arg s
  | .cmdRead rsv e => Sys2Proof.Machine.execCmdRead rsv e s
  | .cmdUnpack rsv arg => Sys2Proof.Machine.execCmdUnpack rsv arg s
  | .cmdClear rsv arg => Sys2Proof.Machine.execCmdClear rsv arg s
  | .cmdReserved op rsv arg => Sys2Proof.Machine.execCmdReserved op rsv arg s
  | .wrCtrl d => Sys2Proof.Machine.execWrCtrl d s
  | .wrIgnored addr d => Sys2Proof.Machine.execWrIgnored addr d s
  | .rd addr => Sys2Proof.Machine.execRd addr s
  | .rxByte b => Sys2Proof.Machine.execRxByte b s
  | .rxErr => Sys2Proof.Machine.execRxErr s
  | .timeout => Sys2Proof.Machine.execTimeout s
  | .unpackStep => Sys2Proof.Machine.execUnpackStep s
  | .reset => Sys2Proof.Machine.execReset s

end Sys2Proof.Machine
end

