-- ==== Sys2Proof/Machine/Step.lean ====
section
/-! DEFINITION. One step: the next agent's operation, run (R8). -/

namespace Sys2Proof.Machine

/-- One step of one agent (R8, R9, R218). An agent that takes no operation leaves the block as it is. -/
def step (s : State) : Host.Outcome State Fault Refusal :=
  match fetch s with
  | some (i, t) => exec i t
  | none => .next (takeMove s)

/-- `s` with the operation that a table row's bits decode to placed as the next step's (log entries 3 and 10). Bits that
decode to nothing place nothing. -/
def State.withFetchWord (s : State) (nbits w : Nat) : State :=
  match tableInput nbits w with
  | some i => placeInput i s
  | none => s

end Sys2Proof.Machine
end

