-- ==== Sys2Proof/Machine/Program.lean ====
section
/-! DEFINITION. Sequences of operations: running one, and the program text of R87 with the pseudo-operations of R88
(log entry 13). -/

namespace Sys2Proof.Machine

/-- The operations of a list, one after the other, to the first that stops (R60). -/
def execAll : List Instr → State → Host.Outcome State Fault Refusal
  | [], s => .next s
  | i :: is, s =>
    match exec i s with
    | .next t => execAll is t
    | .fault r => .fault r
    | .refused r => .refused r

/-- One line of a program (R87's table, one constructor per row). -/
inductive ProgramLine where
  | wr (addr : Addr) (d : Word)
  | rd (addr : Addr)
  | cmdNop
  | cmdRead (e : BitVec 16)
  | cmdUnpack
  | cmdClear
  | cancel (v : Bool)
  | rx (b : Byte)
  | rxErr
  | tmo
  | step
  | reset
deriving DecidableEq, Repr

/-- R87's column "encoding". -/
def lineInput : ProgramLine → Input
  | .wr addr d => .hostWr addr d
  | .rd addr => .hostRd addr
  | .cmdNop => .hostWr 0x00000#18 0x00000000#32
  | .cmdRead e => .hostWr 0x00000#18 ((e.setWidth 32 <<< 16) ||| 0x1#32)
  | .cmdUnpack => .hostWr 0x00000#18 0x00000002#32
  | .cmdClear => .hostWr 0x00000#18 0x00000003#32
  | .cancel v => .hostWr 0x00001#18 (flagWord v)
  | .rx b => .lineByte b
  | .rxErr => .lineErr
  | .tmo => .timer
  | .step => .engine
  | .reset => .reset

/-- The operation of a program line (R87's column "operation"). -/
def lineInstr (l : ProgramLine) : Instr := ofInput (lineInput l)

/-- `RXS` (R88). -/
def rxs (bytes : List Byte) : List ProgramLine := bytes.map .rx

/-- `RXFRAME` (R88): the bytes of `ToWire`, where there is a frame. -/
def rxFrame (payload : List Byte) : Option (List ProgramLine) := (toWire payload).map rxs

/-- `UNPACK_ALL` (R88). -/
def unpackAll : List ProgramLine := List.replicate Config.triplets .step

/-- `WAIT_DONE` (R88) after `n` reads: the host's part of it. The reads repeat until `waitOver` holds of the word read. -/
def waitDone (n : Nat) : List ProgramLine := List.replicate n (.rd 0x00002#18)

/-- `STATUS[1:0] = 3`, which ends `WAIT_DONE` (R88). -/
def waitOver (status : Word) : Bool := status.extractLsb' 0 2 == 3#2

/-- The host address that `P[i]` stands for in a program (R87). -/
def payloadAddr (i : Nat) : Addr := BitVec.ofNat 18 (Config.payloadBase + i)

/-- The host address that `S[j]` stands for in a program (R87). -/
def sampleAddr (j : Nat) : Addr := BitVec.ofNat 18 (Config.sampleBase + j)

/-- A hexadecimal digit, for R87's text. -/
def hexDigit (n : Nat) : Char := if n < 10 then Char.ofNat (48 + n) else Char.ofNat (55 + n)

/-- The low `digits` hexadecimal digits of `n`, most significant first. -/
def hexDigits : Nat → Nat → List Char
  | 0, _ => []
  | digits + 1, n => hexDigits digits (n / 16) ++ [hexDigit (n % 16)]

/-- `n` in hexadecimal, as R87's columns write it. -/
def hexText (digits n : Nat) : String := "0x" ++ String.ofList (hexDigits digits n)

/-- R87's column "text". -/
def lineText : ProgramLine → String
  | .wr addr d => "WR " ++ hexText 5 addr.toNat ++ ", " ++ hexText 8 d.toNat
  | .rd addr => "RD " ++ hexText 5 addr.toNat
  | .cmdNop => "CMD NOP"
  | .cmdRead e => "CMD READ " ++ toString e.toNat
  | .cmdUnpack => "CMD UNPACK"
  | .cmdClear => "CMD CLEAR"
  | .cancel v => if v then "CANCEL 1" else "CANCEL 0"
  | .rx b => "RX " ++ hexText 2 b.toNat
  | .rxErr => "RXERR"
  | .tmo => "TMO"
  | .step => "STEP"
  | .reset => "RESET"

end Sys2Proof.Machine
end

