-- ==== Sys2Proof/Machine/Rtl.lean ====
section
/-! DEFINITION. The block seen clock cycle by clock cycle: the attempt timer TMR (R36, R212), the parameters that R6 leaves
open for an RTL realisation (F_CLK with T_CYC, RST_ACTIVE_LEVEL, HOST_BUS), and the order in which the events of one cycle are
applied (R246). It is a layer over the event-level meanings; the event-level `step` reads none of the parameters and does not
use the layer (R6, R8, R20). Log entry 11. -/

namespace Sys2Proof.Machine

/-! ### Parameters -/

/-- HOST_BUS (R6, D40): the host-bus handshake and its latency, open, so any machine that in each cycle delivers to the block
at most one whole-word write and at most one whole-word read. Log entry 11. -/
structure HostBus where
  /-- what the host drives on the bus in a cycle -/
  Signals : Type
  /-- where the handshake stands, with what it holds back (its latency) -/
  Phase : Type
  /-- the write delivered in this cycle -/
  write : Phase → Signals → Option (Addr × Word)
  /-- the read delivered in this cycle -/
  read : Phase → Signals → Option Addr
  /-- the next phase, given whether reset is active and the word the block returned to a read of this cycle -/
  next : Phase → Signals → Bool → Option Word → Phase
  /-- the word the bus shows the host as the answer to a read -/
  answer : Phase → Option Word

/-- The parameters an RTL realisation leaves open (R6, I11). -/
structure RtlParams where
  /-- F_CLK, in hertz. -/
  fClk : Nat
  /-- RST_ACTIVE_LEVEL: the level of the reset input at which RESET is active. -/
  rstActiveLevel : Bool
  /-- HOST_BUS. -/
  hostBus : HostBus

/-- `T_CYC` = `ceil(T_ATTEMPT * F_CLK)` (R6). -/
def tCyc (p : RtlParams) : Nat := (Config.attemptMs * p.fClk + 999) / 1000

/-! ### State and inputs of a cycle -/

/-- The block, its attempt timer and its host bus. -/
structure Rtl (p : RtlParams) where
  block : State
  /-- TMR, in cycles (R36). -/
  tmr : Nat
  bus : p.hostBus.Phase

/-- What the block's ports carry in one clock cycle (R246). -/
structure Cycle (p : RtlParams) where
  /-- the level of the reset input -/
  rst : Bool
  /-- the line reports an error -/
  lineErr : Bool
  /-- the byte the line offers -/
  lineByte : Option Byte
  /-- what the host drives on the bus -/
  bus : p.hostBus.Signals

variable {p : RtlParams}

/-- Reset is active: its input is at RST_ACTIVE_LEVEL (R230, R6). -/
def resetActive (c : Cycle p) : Bool := c.rst == p.rstActiveLevel

/-- The write the bus delivers in this cycle. -/
def busWrite (c : Cycle p) (r : Rtl p) : Option (Addr × Word) := p.hostBus.write r.bus c.bus

/-- The read the bus delivers in this cycle. -/
def busRead (c : Cycle p) (r : Rtl p) : Option Addr := p.hostBus.read r.bus c.bus

/-- What the host sees on the bus as the answer to a read. -/
def busAnswer (r : Rtl p) : Option Word := p.hostBus.answer r.bus

/-! ### One cycle -/

/-- The block accepts the offered byte: it is READING and no error comes in the same cycle (R246). -/
def cycleAccepts (c : Cycle p) (r : Rtl p) : Bool := rxReady r.block && !c.lineErr && c.lineByte.isSome

/-- TMR reaches T_CYC in this cycle, with no line event to end the read or restart the timer (R212, R246). -/
def cycleExpires (c : Cycle p) (r : Rtl p) : Bool :=
  rxReady r.block && !c.lineErr && !cycleAccepts c r && decide (tCyc p ≤ r.tmr + 1)

/-- The accepted byte's operation, if one is accepted. -/
def cycleByte (c : Cycle p) (r : Rtl p) : List Instr :=
  if cycleAccepts c r then (c.lineByte.map Instr.rxByte).toList else []

/-- The cycle's operations before the host write, in R246's order. The read comes first, since it returns the state from
before the cycle; RESET overrides every other event. -/
def cycleEvents (c : Cycle p) (r : Rtl p) : List Instr :=
  ((busRead c r).map Instr.rd).toList ++
  if resetActive c then [.reset]
  else
    (if c.lineErr then [.rxErr] else []) ++ cycleByte c r ++
    (if cycleExpires c r then [.timeout] else []) ++
    (if r.block.state = .unpacking then [.unpackStep] else [])

/-- The cycle's host write, which comes last (R246). -/
def cycleWrite (c : Cycle p) (r : Rtl p) : List Instr :=
  if resetActive c then [] else ((busWrite c r).map fun w => ofInput (.hostWr w.1 w.2)).toList

/-- TMR after the cycle (R36, R212): cleared by RESET, by an accepted byte and by every `attempt_reset()` (the retry, and the
start of a read by the cycle's write, seen as STATE becoming READING between `mid` and `s`); counting while READING; else
kept. DESIGN CHOICE: in a cycle at whose start STATE is READING and that ends the read, by RX_ERR or by the TIMEOUT of a
cancelled read, TMR counts once more, and from then on it is kept; R36 and R212 do not say whether it counts there (log
entry 11). -/
def tmrAfter (c : Cycle p) (r : Rtl p) (mid s : State) : Nat :=
  if resetActive c || cycleAccepts c r then 0
  else if cycleExpires c r && !r.block.cancel then 0
  else if !rxReady mid && rxReady s then 0
  else if rxReady r.block then r.tmr + 1
  else r.tmr

/-- The bus after the cycle, given the word that a read of this cycle returned. -/
def busAfter (c : Cycle p) (r : Rtl p) : p.hostBus.Phase :=
  p.hostBus.next r.bus c.bus (resetActive c) ((busRead c r).map (hostRead r.block))

/-- One clock cycle (R246). -/
def rtlCycle (c : Cycle p) (r : Rtl p) : Host.Outcome (Rtl p) Fault Refusal :=
  match execAll (cycleEvents c r) r.block with
  | .next mid =>
    match execAll (cycleWrite c r) mid with
    | .next s => .next ⟨s, tmrAfter c r mid s, busAfter c r⟩
    | .fault f => .fault f
    | .refused f => .refused f
  | .fault f => .fault f
  | .refused f => .refused f

/-- A cycle without reset and without a line event. -/
def lineSilent (c : Cycle p) : Bool := !resetActive c && !c.lineErr && c.lineByte.isNone

/-- One cycle after the other. -/
def rtlCycles : List (Cycle p) → Rtl p → Host.Outcome (Rtl p) Fault Refusal
  | [], r => .next r
  | c :: cs, r =>
    match rtlCycle c r with
    | .next r' => rtlCycles cs r'
    | .fault f => .fault f
    | .refused f => .refused f

end Sys2Proof.Machine
end

