-- ==== Sys2Proof/Safety.lean ====
section
/-! DEFINITION. What a sound state is (R41 and what R23 and R154 say a valid payload and a finished unpack are), and the
runs and fairness assumptions of R214 and R218. -/

namespace Sys2Proof

open Sys2Proof.Machine

/-- R41, with the bounds it rests on: the parameter is legal, the stores are in canonical form and inside their sizes, a
read in progress fits the buffer, UPK_IDX never passes N / 2. The last clause of R41 (c) is about the past; it is a statement
about runs. -/
structure Inv (s : State) : Prop where
  /-- R6 -/
  capLow : Config.sensorSize ≤ s.payloadCap
  /-- R6 -/
  capHigh : s.payloadCap ≤ Config.defaultCap
  payloadWf : Memory.wf s.payload = true
  payloadBelow : Memory.below s.payload s.payloadCap = true
  samplesWf : Memory.wf s.samples = true
  samplesBelow : Memory.below s.samples Config.samples = true
  /-- R29 -/
  posBound : s.pos.toNat ≤ s.expected.toNat + 6
  /-- R35 -/
  upkBound : s.upkIdx.toNat ≤ Config.triplets
  /-- R41 (a) -/
  reading : s.state = .reading →
    s.pos.toNat ≤ s.expected.toNat + 5 ∧ s.result = .none ∧ s.payloadValid = false ∧ s.attempts ≠ 0#32 ∧
      s.expected.toNat ≤ s.payloadCap
  /-- R41 (b) -/
  unpacking : s.state = .unpacking →
    s.payloadValid = true ∧ Config.need ≤ s.expected.toNat ∧ s.upkIdx.toNat < Config.triplets ∧ s.result = .none
  /-- R41 (c) -/
  valid : s.payloadValid = true →
    s.expected.toNat ≤ s.payloadCap ∧ s.errMagic = false ∧ s.errSize = false ∧ s.errCksum = false
  /-- R41 (d) -/
  samples : s.samplesValid = true → s.upkIdx.toNat = Config.triplets
  /-- R41 (e) -/
  idle : s.state = .idle → s.result = .none
  /-- R41 (f) -/
  done : s.state = .done → s.result ≠ .none

/-- Some header byte accepted so far differs from MAGIC (R123). -/
def headerWrong (s : State) : Bool :=
  (decide (0 < s.pos.toNat) && s.magicRx0 != Config.magic0) ||
  (decide (1 < s.pos.toNat) && s.magicRx1 != Config.magic1) ||
  (decide (2 < s.pos.toNat) && s.magicRx2 != Config.magic2)

/-- The bytes accepted so far that the checksum covers (R30, R74). -/
def coveredBytes (s : State) : List Byte :=
  [s.sizeLo, s.sizeHi].take (s.pos.toNat - 3) ++ payloadPrefix s (s.pos.toNat - 5)

/-- The frame whose bytes the registers and `P` hold after a completed read. -/
def heldFrame (s : State) : List Byte :=
  [s.magicRx0, s.magicRx1, s.magicRx2, s.sizeLo, s.sizeHi] ++ payloadPrefix s s.expected.toNat ++ [s.ckRx]

/-- What the parser's registers hold, in terms of the bytes accepted: R26, R30 while READING; R23 when PAYLOAD_VALID. -/
structure ReadInv (s : State) : Prop where
  flags : s.state = .reading →
    s.errMagic = headerWrong s ∧
    s.errSize = (decide (4 < s.pos.toNat) && !sizeOk s.sizeLo s.sizeHi s.expected) ∧ s.errCksum = false
  acc : s.state = .reading → s.acc = xorFold (coveredBytes s)
  valid : s.payloadValid = true →
    magicOk s.magicRx0 s.magicRx1 s.magicRx2 = true ∧ sizeOk s.sizeLo s.sizeHi s.expected = true ∧
    s.ckRx = checksum s.sizeLo s.sizeHi (payloadPrefix s s.expected.toNat)

/-- The first `n` triplets of `P` stand unpacked in `S` (R153, R158). -/
def unpackedUpTo (s : State) (n : Nat) : Prop :=
  ∀ k < n,
    readSample s (2 * k) = pairEven (readPayload s (3 * k)) (readPayload s (3 * k + 1)) ∧
    readSample s (2 * k + 1) = pairOdd (readPayload s (3 * k + 1)) (readPayload s (3 * k + 2))

/-- What the sample store holds: the triplets done, while UNPACKING (R153), and all of them when an unpack has just ended
(R154). -/
structure UnpackInv (s : State) : Prop where
  running : s.state = .unpacking → unpackedUpTo s s.upkIdx.toNat
  ended : s.state = .done → s.result = .unpackOk → unpackedUpTo s Config.triplets

/-- Whether an operation is enabled (R218): RX_BYTE and TIMEOUT only while READING, UNPACK_STEP only while UNPACKING, every
other operation always. -/
def enabled (i : Instr) (s : State) : Bool :=
  match i with
  | .rxByte _ => s.state == .reading
  | .timeout => s.state == .reading
  | .unpackStep => s.state == .unpacking
  | .cmdNop _ _ => true
  | .cmdRead _ _ => true
  | .cmdUnpack _ _ => true
  | .cmdClear _ _ => true
  | .cmdReserved _ _ _ => true
  | .wrCtrl _ => true
  | .wrIgnored _ _ => true
  | .rd _ => true
  | .rxErr => true
  | .reset => true

/-- The operations `is`, each enabled where it stands, lead from `s` to `t` (R8, R218). -/
def EnabledRun : List Instr → State → State → Prop
  | [], s, t => s = t
  | i :: is, s, t => enabled i s = true ∧ ∃ u, exec i s = .next u ∧ EnabledRun is u t

/-- What the outside may do between two steps: place more accesses with the host, more bytes with the line, and more moves
(R9, R218: the host always may act, and the line offers any bytes). -/
def Placed (t s : State) : Prop :=
  ∃ (hs : List HostOp) (bs : List Byte) (ms : List Move),
    s = { t with host := t.host ++ hs, line := t.line ++ bs, moves := t.moves ++ ms }

/-- An infinite run: every step answers a next state, and the step after it starts there, with whatever the outside has
placed in between. -/
def IsRun (tr : Nat → State) : Prop := ∀ n, ∃ t, step (tr n) = .next t ∧ Placed t (tr (n + 1))

/-- The step at `n` is an UNPACK_STEP that is enabled (R218). -/
def takesUnpackStep (tr : Nat → State) (n : Nat) : Prop := (tr n).state = .unpacking ∧ chosenMove (tr n) = .engine

/-- The step at `n` is a TIMEOUT that is enabled (R218). -/
def takesTimeout (tr : Nat → State) (n : Nat) : Prop := (tr n).state = .reading ∧ chosenMove (tr n) = .timer

/-- The step at `n` accepts a byte (R218). -/
def takesByte (tr : Nat → State) (n : Nat) : Prop :=
  (tr n).state = .reading ∧ chosenMove (tr n) = .lineByte ∧ nextByte (tr n) ≠ none

/-- Weak fairness of the unpacker engine (R218). -/
def EngineFair (tr : Nat → State) : Prop :=
  ∀ n, (∀ m, n ≤ m → (tr m).state = .unpacking) → ∃ m, n ≤ m ∧ takesUnpackStep tr m

/-- Timer liveness (R214). -/
def TimerLive (tr : Nat → State) : Prop :=
  ∀ n, (∀ m, n ≤ m → (tr m).state = .reading) → (∀ m, n ≤ m → ¬takesByte tr m) → ∃ m, n ≤ m ∧ takesTimeout tr m

end Sys2Proof
end

