-- ==== Sys2Proof/Certificates/Slice0/Obligations.lean ====
section
/-! DEFINITION. The statements for the provers. Each docstring names the rule or the section of `spec/` it formalises; what
rests on a choice of the model says so and names the log entry. -/

open Sys2Proof Sys2Proof.Machine

/-! ### Encoding -/

/-- Decoding the record of a well-formed operation gives the operation back, whatever follows it. The record is the model's
own image of an operation (log entry 10); the CMD and CTRL words inside it are R75's and R78's. -/
def Obligations.DecodeInvertsEncode : Prop :=
  ∀ (i : Instr) (rest : List Byte), i.wf = true → decode (encode i ++ rest) = .ok (i, rest)

/-- Whatever decodes is the record of the well-formed operation it decodes to: no two byte sequences mean the same operation,
and no bit is dropped (log entry 10). -/
def Obligations.EncodeInvertsDecode : Prop :=
  ∀ (bytes : List Byte) (i : Instr) (rest : List Byte), decode bytes = .ok (i, rest) →
    i.wf = true ∧ bytes = encode i ++ rest

/-- R86: every input decodes to exactly one row of the opcode table, by format, address and OP as the rule says. -/
def Obligations.EveryInputIsOneOperation : Prop :=
  (∀ addr, ofInput (.hostRd addr) = .rd addr) ∧
  (∀ d : Word,
    (d.extractLsb' 0 3 = 0b000#3 → ofInput (.hostWr 0#18 d) = .cmdNop (d.extractLsb' 3 13) (d.extractLsb' 16 16)) ∧
    (d.extractLsb' 0 3 = 0b001#3 → ofInput (.hostWr 0#18 d) = .cmdRead (d.extractLsb' 3 13) (d.extractLsb' 16 16)) ∧
    (d.extractLsb' 0 3 = 0b010#3 → ofInput (.hostWr 0#18 d) = .cmdUnpack (d.extractLsb' 3 13) (d.extractLsb' 16 16)) ∧
    (d.extractLsb' 0 3 = 0b011#3 → ofInput (.hostWr 0#18 d) = .cmdClear (d.extractLsb' 3 13) (d.extractLsb' 16 16)) ∧
    (d.getLsbD 2 = true → ofInput (.hostWr 0#18 d) =
      .cmdReserved (d.extractLsb' 0 2) (d.extractLsb' 3 13) (d.extractLsb' 16 16))) ∧
  (∀ d, ofInput (.hostWr 1#18 d) = .wrCtrl d) ∧
  (∀ addr d, addr ≠ 0#18 → addr ≠ 1#18 → ofInput (.hostWr addr d) = .wrIgnored addr d) ∧
  (∀ b, ofInput (.lineByte b) = .rxByte b) ∧
  ofInput .lineErr = .rxErr ∧ ofInput .timer = .timeout ∧ ofInput .engine = .unpackStep ∧ ofInput .reset = .reset ∧
  (∀ i : Input, (ofInput i).wf = true ∧ toInput (ofInput i) = i)

/-- Words written out from R75 to R78 and R87 decode to the operations they stand for (sanity). -/
def Obligations.WrittenOutWordsDecode : Prop :=
  ofInput (.hostWr 0x00000#18 0x00000000#32) = .cmdNop 0#13 0#16 ∧
  ofInput (.hostWr 0x00000#18 0x38410001#32) = .cmdRead 0#13 14401#16 ∧
  ofInput (.hostWr 0x00000#18 0x00000002#32) = .cmdUnpack 0#13 0#16 ∧
  ofInput (.hostWr 0x00000#18 0x00000003#32) = .cmdClear 0#13 0#16 ∧
  ofInput (.hostWr 0x00000#18 0x00000005#32) = .cmdReserved 1#2 0#13 0#16 ∧
  ofInput (.hostWr 0x00001#18 0x00000001#32) = .wrCtrl 1#32 ∧
  ofInput (.hostWr 0x10000#18 0x000000FF#32) = .wrIgnored 0x10000#18 0xFF#32

/-! ### Steps -/

/-- A step takes the chosen agent's next operation off its list and runs it; past its list the operation of the host and of the
line is the free one, and an agent that takes none leaves the block as it is. A byte offered outside READING stays with the
line (R133). The lists, the free operations and the order of moves are the model's (log entries 2 and 3). -/
def Obligations.StepRunsTheChosenOperation : Prop :=
  ∀ s : State,
    (∀ m ms, s.moves = m :: ms → chosenMove s = m) ∧
    (∀ op rest, chosenMove s = .host → s.host = op :: rest →
      step s = exec (ofInput op.toInput) { s with host := rest, moves := s.moves.tail, moveNo := s.moveNo + 1 }) ∧
    (∀ b rest, chosenMove s = .lineByte → s.line = b :: rest → s.state = .reading →
      step s = exec (.rxByte b) { s with line := rest, moves := s.moves.tail, moveNo := s.moveNo + 1 }) ∧
    (∀ b rest, chosenMove s = .lineByte → s.line = b :: rest → s.state ≠ .reading →
      step s = exec (.rxByte b) { s with moves := s.moves.tail, moveNo := s.moveNo + 1 }) ∧
    (chosenMove s = .lineErr → step s = exec .rxErr { s with moves := s.moves.tail, moveNo := s.moveNo + 1 }) ∧
    (chosenMove s = .timer → step s = exec .timeout { s with moves := s.moves.tail, moveNo := s.moveNo + 1 }) ∧
    (chosenMove s = .engine → step s = exec .unpackStep { s with moves := s.moves.tail, moveNo := s.moveNo + 1 }) ∧
    (chosenMove s = .reset → step s = exec .reset { s with moves := s.moves.tail, moveNo := s.moveNo + 1 }) ∧
    (chosenMove s = .host → s.host = [] →
      step s = match Config.freeAccess s.moveNo with
        | some op => exec (ofInput op.toInput) { s with moves := s.moves.tail, moveNo := s.moveNo + 1 }
        | none => .next { s with moves := s.moves.tail, moveNo := s.moveNo + 1 }) ∧
    (chosenMove s = .lineByte → s.line = [] →
      step s = match Config.freeByte s.moveNo with
        | some b => exec (.rxByte b) { s with
            line := if s.state = .reading then [] else [b], moves := s.moves.tail, moveNo := s.moveNo + 1 }
        | none => .next { s with moves := s.moves.tail, moveNo := s.moveNo + 1 })

/-- When bytes decode to an operation, a step at the state with it placed runs that operation on the state it was placed in
(one step counted; a byte placed outside READING is still with the line). -/
def Obligations.PlacedRecordRunsNext : Prop :=
  ∀ (bytes : List Byte) (i : Instr) (rest : List Byte) (s : State), decode bytes = .ok (i, rest) →
    step (placeInput (toInput i) s) =
      exec i { s with
        moveNo := s.moveNo + 1
        line := match i with
          | .rxByte b => if s.state = .reading then s.line else b :: s.line
          | _ => s.line }

/-- From R133: outside READING no step takes a byte from the line (a line that holds none may receive one, and keeps it); while
READING a step takes at most the first one. The line as a list is the model's (log entry 3). -/
def Obligations.LineBytesWaitOutsideReading : Prop :=
  ∀ s t : State, step s = .next t →
    (s.state ≠ .reading →
      t.line = s.line ∨ (chosenMove s = .lineByte ∧ s.line = [] ∧ ∃ b, t.line = [b])) ∧
    (s.state = .reading → t.line = s.line ∨ (chosenMove s = .lineByte ∧ ∃ b, s.line = b :: t.line))

/-! ### Reset -/

/-- RESET gives every register its reset value (R230, R21 to R35) and leaves the line alone (R232). The unwritten entries of P
and S read as the draw of this RESET: that the draw is a function of a counter of RESETs is the model's (log entry 1). -/
def Obligations.ResetRestoresEveryRegister : Prop :=
  ∀ s : State, ∃ t : State, exec .reset s = .next t ∧
    t = { State.reset with
          payloadCap := s.payloadCap, drawNo := s.drawNo + 1, host := s.host, line := s.line,
          hostData := s.hostData, moves := s.moves, moveNo := s.moveNo } ∧
    t.state = .idle ∧ t.result = .none ∧ t.payloadValid = false ∧ t.samplesValid = false ∧ t.cmdReject = false ∧
    t.errMagic = false ∧ t.errSize = false ∧ t.errCksum = false ∧ t.cancel = false ∧ t.expected = 0#16 ∧
    t.pos = 0#17 ∧ t.acc = 0#8 ∧ t.sizeLo = 0#8 ∧ t.sizeHi = 0#8 ∧ t.ckRx = 0#8 ∧ t.magicRx0 = 0#8 ∧
    t.magicRx1 = 0#8 ∧ t.magicRx2 = 0#8 ∧ t.attempts = 0#32 ∧ t.upkIdx = 0#16 ∧
    (∀ i, readPayload t i = Config.payloadDraw t.drawNo i) ∧ (∀ j, readSample t j = Config.sampleDraw t.drawNo j)

/-- After RESET every word below the windows reads 0 except GEOMETRY (R230's example). -/
def Obligations.ResetWordsReadZero : Prop :=
  ∀ (s t : State) (addr : Addr), exec .reset s = .next t → addr.toNat < 0x10000 →
    hostRead t addr = if addr = 0x0000A#18 then 0x003C00A0#32 else 0#32

/-! ### Invariants -/

/-- The reset state meets the three invariants; the parameter's value in it is the spec's default (log entry 4). -/
def Obligations.ResetMeetsEveryInvariant : Prop :=
  Inv State.reset ∧ ReadInv State.reset ∧ UnpackInv State.reset

/-- R41: every step keeps its clauses, from every state that meets them. -/
def Obligations.StepKeepsStateInvariant : Prop :=
  ∀ s t : State, Inv s → step s = .next t → Inv t

/-- R26, R30, R23: every step keeps what the parser's registers say of the bytes accepted, and what PAYLOAD_VALID says of P. -/
def Obligations.StepKeepsReadInvariant : Prop :=
  ∀ s t : State, Inv s → ReadInv s → step s = .next t → ReadInv t

/-- R153, R154, R158: every step keeps that the triplets done so far stand unpacked in S, and all of them after UNPACK_OK. -/
def Obligations.StepKeepsUnpackInvariant : Prop :=
  ∀ s t : State, Inv s → UnpackInv s → step s = .next t → UnpackInv t

/-- From a state that meets R41's clauses no step stops: the model's faults (log entry 6) are never raised in a run. That the
rest of the step's inputs are lists of agents is the model's (log entries 2 and 3). -/
def Obligations.NoStepStopsInsideInvariant : Prop :=
  ∀ s : State, Inv s → ∃ t, step s = .next t

/-- When an operation stops: only RX_BYTE past the frame or past the buffer, and UNPACK_STEP past the samples or past the
buffer. The faults are the model's (log entry 6). -/
def Obligations.OnlyBrokenPositionsStop : Prop :=
  ∀ (i : Instr) (s : State), (∀ t, exec i s ≠ .next t) →
    (∃ b, i = .rxByte b) ∧ s.state = .reading ∧
      ((s.expected.toNat + 5 < s.pos.toNat ∧ exec i s = .fault .framePosition) ∨
       (s.payloadCap + 5 ≤ s.pos.toNat ∧ s.pos.toNat < s.expected.toNat + 5 ∧ exec i s = .fault .payloadIndex)) ∨
    i = .unpackStep ∧ s.state = .unpacking ∧
      ((4800 ≤ s.upkIdx.toNat ∧ exec i s = .fault .sampleIndex) ∨
       (s.upkIdx.toNat < 4800 ∧ s.payloadCap ≤ 3 * s.upkIdx.toNat + 2 ∧ exec i s = .fault .payloadIndex))

/-- R23: while PAYLOAD_VALID is 1, the frame held by the registers and `P[0 .. EXPECTED-1]` passes every check of R103. -/
def Obligations.ValidPayloadPassesEveryCheck : Prop :=
  ∀ s : State, Inv s → ReadInv s → s.payloadValid = true →
    frameDecode (heldFrame s) s.expected =
      .ok ⟨s.expected, payloadPrefix s s.expected.toNat, s.ckRx⟩ ⟨false, false, false⟩

/-! ### Host access -/

/-- R171: CMD NOP has no effect in any state, whatever its ARG and reserved bits. -/
def Obligations.NopHasNoEffect : Prop :=
  (∀ (rsv : BitVec 13) (arg : BitVec 16) (s : State), exec (.cmdNop rsv arg) s = .next s) ∧
  (∀ d : Word, d.extractLsb' 0 3 = 0b000#3 → ∃ rsv arg, ofInput (.hostWr 0#18 d) = .cmdNop rsv arg)

/-- R120 with R121: CMD READ starts a read from IDLE or DONE if `E` fits PAYLOAD_CAP, and is rejected otherwise. -/
def Obligations.ReadStartsOrIsRejected : Prop :=
  (∀ (rsv : BitVec 13) (e : BitVec 16) (s : State),
    ((s.state = .idle ∨ s.state = .done) → e.toNat ≤ s.payloadCap →
      exec (.cmdRead rsv e) s = .next { s with
        expected := e, state := .reading, result := .none, payloadValid := false, attempts := 1#32,
        pos := 0#17, acc := 0#8, sizeLo := 0#8, sizeHi := 0#8, ckRx := 0#8,
        magicRx0 := 0#8, magicRx1 := 0#8, magicRx2 := 0#8,
        errMagic := false, errSize := false, errCksum := false }) ∧
    (s.state = .reading ∨ s.state = .unpacking ∨ s.payloadCap < e.toNat →
      exec (.cmdRead rsv e) s = .next { s with cmdReject := true })) ∧
  (∀ d : Word, d.extractLsb' 0 3 = 0b001#3 → ∃ rsv, ofInput (.hostWr 0#18 d) = .cmdRead rsv (d.extractLsb' 16 16))

/-- R152: CMD UNPACK ends at once with PAYLOAD_TOO_SHORT, starts an unpack, or is rejected. -/
def Obligations.UnpackStartsEndsOrIsRejected : Prop :=
  (∀ (rsv : BitVec 13) (arg : BitVec 16) (s : State),
    ((s.state = .idle ∨ s.state = .done) → s.payloadValid = true → s.expected.toNat < 14400 →
      exec (.cmdUnpack rsv arg) s = .next { s with state := .done, result := .payloadTooShort }) ∧
    ((s.state = .idle ∨ s.state = .done) → s.payloadValid = true → 14400 ≤ s.expected.toNat →
      exec (.cmdUnpack rsv arg) s =
        .next { s with state := .unpacking, result := .none, samplesValid := false, upkIdx := 0#16 }) ∧
    (s.state = .reading ∨ s.state = .unpacking ∨ s.payloadValid = false →
      exec (.cmdUnpack rsv arg) s = .next { s with cmdReject := true })) ∧
  (∀ d : Word, d.extractLsb' 0 3 = 0b010#3 → ∃ rsv arg, ofInput (.hostWr 0#18 d) = .cmdUnpack rsv arg)

/-- R172: CMD CLEAR returns to IDLE and clears the error flags and CMD_REJECT, or is rejected. -/
def Obligations.ClearAcknowledgesOrIsRejected : Prop :=
  (∀ (rsv : BitVec 13) (arg : BitVec 16) (s : State),
    (s.state = .idle ∨ s.state = .done →
      exec (.cmdClear rsv arg) s = .next { s with
        state := .idle, result := .none, errMagic := false, errSize := false, errCksum := false, cmdReject := false }) ∧
    (s.state = .reading ∨ s.state = .unpacking →
      exec (.cmdClear rsv arg) s = .next { s with cmdReject := true })) ∧
  (∀ d : Word, d.extractLsb' 0 3 = 0b011#3 → ∃ rsv arg, ofInput (.hostWr 0#18 d) = .cmdClear rsv arg)

/-- R173: a reserved OP sets CMD_REJECT and changes nothing else, in every state. -/
def Obligations.ReservedCommandIsRejected : Prop :=
  (∀ (op : BitVec 2) (rsv : BitVec 13) (arg : BitVec 16) (s : State),
    exec (.cmdReserved op rsv arg) s = .next { s with cmdReject := true }) ∧
  (∀ d : Word, d.getLsbD 2 = true → ∃ op rsv arg, ofInput (.hostWr 0#18 d) = .cmdReserved op rsv arg)

/-- R174: a write to CTRL sets CANCEL to bit 0 and changes nothing else, in every state. -/
def Obligations.CtrlWriteSetsCancel : Prop :=
  (∀ (d : Word) (s : State), exec (.wrCtrl d) s = .next { s with cancel := d.getLsbD 0 }) ∧
  (∀ d : Word, ofInput (.hostWr 1#18 d) = .wrCtrl d)

/-- R175: a write to any other address changes nothing. -/
def Obligations.OtherWritesHaveNoEffect : Prop :=
  (∀ (addr : Addr) (d : Word) (s : State), exec (.wrIgnored addr d) s = .next s) ∧
  (∀ (addr : Addr) (d : Word), addr ≠ 0#18 → addr ≠ 1#18 → ofInput (.hostWr addr d) = .wrIgnored addr d)

/-- R180, R59: a read answers in every state with the address's word and changes nothing of the block. Where the word goes
(`hostData`) is the model's (log entry 5). -/
def Obligations.ReadReturnsTheWord : Prop :=
  ∀ (addr : Addr) (s : State), exec (.rd addr) s = .next { s with hostData := some (hostRead s addr) }

/-- R181, R21, R201: the STATUS word, field by field. -/
def Obligations.StatusWordFields : Prop :=
  ∀ s : State,
    ((hostRead s 0x00002#18).extractLsb' 0 2 = match s.state with
      | .idle => 0#2 | .reading => 1#2 | .unpacking => 2#2 | .done => 3#2) ∧
    (hostRead s 0x00002#18).getLsbD 2 = false ∧
    (hostRead s 0x00002#18).getLsbD 3 = s.payloadValid ∧
    (hostRead s 0x00002#18).getLsbD 4 = s.samplesValid ∧
    (hostRead s 0x00002#18).getLsbD 5 = s.cmdReject ∧
    (hostRead s 0x00002#18).getLsbD 6 = s.errMagic ∧
    (hostRead s 0x00002#18).getLsbD 7 = s.errSize ∧
    (hostRead s 0x00002#18).getLsbD 8 = s.errCksum ∧
    (hostRead s 0x00002#18).extractLsb' 9 3 = 0#3 ∧
    ((hostRead s 0x00002#18).extractLsb' 12 4 = match s.result with
      | .none => 0#4 | .frameOk => 1#4 | .badMagic => 2#4 | .badSize => 3#4 | .badChecksum => 4#4
      | .transportError => 5#4 | .aborted => 6#4 | .unpackOk => 7#4 | .payloadTooShort => 8#4) ∧
    (hostRead s 0x00002#18).extractLsb' 16 16 = 0#16

/-- R182: the other register words. -/
def Obligations.RegisterWords : Prop :=
  ∀ s : State,
    hostRead s 0x00000#18 = 0#32 ∧
    hostRead s 0x00001#18 = (if s.cancel then 1#32 else 0#32) ∧
    hostRead s 0x00003#18 = 0#16 ++ s.expected ∧
    hostRead s 0x00004#18 = 0#16 ++ s.sizeHi ++ s.sizeLo ∧
    hostRead s 0x00005#18 = 0#16 ++ s.acc ++ s.ckRx ∧
    hostRead s 0x00006#18 = s.attempts ∧
    hostRead s 0x00007#18 = 0#15 ++ s.pos ∧
    hostRead s 0x00008#18 = 0#8 ++ s.magicRx2 ++ s.magicRx1 ++ s.magicRx0 ∧
    hostRead s 0x00009#18 = 0#16 ++ s.upkIdx ∧
    hostRead s 0x0000A#18 = 0x003C00A0#32

/-- R183, R184, R185: the two windows, and the unmapped ranges. -/
def Obligations.WindowsAndUnmappedWords : Prop :=
  ∀ (s : State) (addr : Addr),
    (0x10000 ≤ addr.toNat → addr.toNat < 0x20000 →
      hostRead s addr =
        if addr.toNat - 0x10000 < s.payloadCap then 0#24 ++ readPayload s (addr.toNat - 0x10000) else 0#32) ∧
    (0x20000 ≤ addr.toNat → addr.toNat < 0x30000 →
      hostRead s addr = if addr.toNat - 0x20000 < 9600 then 0#20 ++ readSample s (addr.toNat - 0x20000) else 0#32) ∧
    (0x0000B ≤ addr.toNat → addr.toNat < 0x10000 → hostRead s addr = 0#32) ∧
    (0x30000 ≤ addr.toNat → hostRead s addr = 0#32)

/-- R176, R209, R242: while READING or UNPACKING every command but NOP sets CMD_REJECT and changes nothing else. -/
def Obligations.BusyBlockRejectsCommands : Prop :=
  ∀ (s : State) (rsv : BitVec 13) (arg : BitVec 16) (op : BitVec 2), s.state = .reading ∨ s.state = .unpacking →
    exec (.cmdNop rsv arg) s = .next s ∧
    exec (.cmdRead rsv arg) s = .next { s with cmdReject := true } ∧
    exec (.cmdUnpack rsv arg) s = .next { s with cmdReject := true } ∧
    exec (.cmdClear rsv arg) s = .next { s with cmdReject := true } ∧
    exec (.cmdReserved op rsv arg) s = .next { s with cmdReject := true }

/-- R79 (b), (c), (d): the ignored bits of the CMD and CTRL words change nothing. -/
def Obligations.IgnoredBitsChangeNothing : Prop :=
  (∀ (d d' : Word) (s : State), d.extractLsb' 0 3 = d'.extractLsb' 0 3 →
    (d.extractLsb' 0 3 = 0b001#3 → d.extractLsb' 16 16 = d'.extractLsb' 16 16) →
    exec (ofInput (.hostWr 0#18 d)) s = exec (ofInput (.hostWr 0#18 d')) s) ∧
  (∀ (d d' : Word) (s : State), d.getLsbD 0 = d'.getLsbD 0 →
    exec (ofInput (.hostWr 1#18 d)) s = exec (ofInput (.hostWr 1#18 d')) s)

/-! ### Frame parser -/

/-- R123 with R122: a header byte is kept, sets ERR_MAGIC if wrong, and leaves ACC and everything else alone. -/
def Obligations.HeaderByteIsChecked : Prop :=
  ∀ (b : Byte) (s : State), s.state = .reading →
    (s.pos = 0#17 → exec (.rxByte b) s =
      .next { s with pos := 1#17, magicRx0 := b, errMagic := s.errMagic || b != 0x5A#8 }) ∧
    (s.pos = 1#17 → exec (.rxByte b) s =
      .next { s with pos := 2#17, magicRx1 := b, errMagic := s.errMagic || b != 0x77#8 }) ∧
    (s.pos = 2#17 → exec (.rxByte b) s =
      .next { s with pos := 3#17, magicRx2 := b, errMagic := s.errMagic || b != 0xFF#8 })

/-- R124, R125 with R122: the size bytes, little-endian; the high one checks the size against EXPECTED. -/
def Obligations.SizeBytesAreCheckedLittleEndian : Prop :=
  ∀ (b : Byte) (s : State), s.state = .reading →
    (s.pos = 3#17 → exec (.rxByte b) s =
      .next { s with pos := 4#17, sizeLo := b, acc := s.acc ^^^ b }) ∧
    (s.pos = 4#17 → exec (.rxByte b) s =
      .next { s with
        pos := 5#17, sizeHi := b, acc := s.acc ^^^ b, errSize := s.errSize || (b ++ s.sizeLo : BitVec 16) != s.expected })

/-- R126 with R122: the payload byte at frame offset `p` is stored at index `p - 5`, and nowhere else. -/
def Obligations.PayloadByteIsStored : Prop :=
  ∀ (b : Byte) (s : State), s.state = .reading → 5 ≤ s.pos.toNat → s.pos.toNat < s.expected.toNat + 5 →
    s.pos.toNat - 5 < s.payloadCap →
    ∃ t, exec (.rxByte b) s = .next t ∧
      t = { s with pos := s.pos + 1#17, acc := s.acc ^^^ b, payload := t.payload } ∧
      readPayload t (s.pos.toNat - 5) = b ∧
      (∀ a, a ≠ s.pos.toNat - 5 → readPayload t a = readPayload s a)

/-- R127, R128 with R122: the checksum byte completes the read; the first failed check in the order magic, size, checksum is
reported, and PAYLOAD_VALID is set exactly by FRAME_OK. -/
def Obligations.ChecksumByteCompletesRead : Prop :=
  ∀ (b : Byte) (s : State), s.state = .reading → s.pos.toNat = s.expected.toNat + 5 →
    exec (.rxByte b) s = .next { s with
      pos := s.pos + 1#17
      ckRx := b
      errCksum := b != s.acc
      state := .done
      result :=
        if s.errMagic then .badMagic
        else if s.errSize then .badSize
        else if b != s.acc then .badChecksum
        else .frameOk
      payloadValid := !s.errMagic && !s.errSize && b == s.acc }

/-- R139: before the last byte, an accepted byte never ends the read, whatever checks have failed. -/
def Obligations.NoEarlyEndOfRead : Prop :=
  ∀ (b : Byte) (s t : State), s.state = .reading → s.pos.toNat < s.expected.toNat + 5 → exec (.rxByte b) s = .next t →
    t.state = .reading ∧ t.result = s.result ∧ t.payloadValid = s.payloadValid ∧ t.pos.toNat = s.pos.toNat + 1

/-- R130, R121: with CANCEL 0 a TIMEOUT restarts the attempt and counts it, saturating; STATE stays READING. -/
def Obligations.TimeoutRetriesAttempt : Prop :=
  ∀ s : State, s.state = .reading → s.cancel = false →
    exec .timeout s = .next { s with
      attempts := if s.attempts = 0xFFFFFFFF#32 then 0xFFFFFFFF#32 else s.attempts + 1#32,
      pos := 0#17, acc := 0#8, sizeLo := 0#8, sizeHi := 0#8, ckRx := 0#8,
      magicRx0 := 0#8, magicRx1 := 0#8, magicRx2 := 0#8,
      errMagic := false, errSize := false, errCksum := false }

/-- R131: with CANCEL 1 a TIMEOUT ends the read with ABORTED; nothing else changes. -/
def Obligations.TimeoutAbortsCancelledRead : Prop :=
  ∀ s : State, s.state = .reading → s.cancel = true →
    exec .timeout s = .next { s with state := .done, result := .aborted }

/-- R132: a line error ends a read with TRANSPORT_ERROR and has no effect in any other state. -/
def Obligations.LineErrorEndsRead : Prop :=
  ∀ s : State,
    (s.state = .reading → exec .rxErr s = .next { s with state := .done, result := .transportError }) ∧
    (s.state ≠ .reading → exec .rxErr s = .next s)

/-- An operation that R218 does not enable is not taken: the block does not change. That it is a step at all is the model's
choice (log entry 7). -/
def Obligations.DisabledOperationsChangeNothing : Prop :=
  ∀ (s : State) (b : Byte),
    (s.state ≠ .reading → exec (.rxByte b) s = .next s ∧ exec .timeout s = .next s) ∧
    (s.state ≠ .unpacking → exec .unpackStep s = .next s)

/-! ### Unpacker -/

/-- R151, R83: the two samples of a triplet, bit by bit. -/
def Obligations.PairPlacesEveryBit : Prop :=
  ∀ b0 b1 b2 : Byte, pair b0 b1 b2 = (b1.extractLsb' 0 4 ++ b0, b2 ++ b1.extractLsb' 4 4)

/-- R153, R154: UNPACK_STEP on triplet `k` reads payload bytes `3k` to `3k + 2` and writes samples `2k` and `2k + 1`, and no
other; the last one completes the unpack. -/
def Obligations.UnpackStepWritesTwoSamples : Prop :=
  ∀ s : State, s.state = .unpacking → s.upkIdx.toNat < 4800 → 3 * s.upkIdx.toNat + 2 < s.payloadCap →
    ∃ t, exec .unpackStep s = .next t ∧
      (s.upkIdx.toNat + 1 < 4800 → t = { s with upkIdx := s.upkIdx + 1#16, samples := t.samples }) ∧
      (s.upkIdx.toNat + 1 = 4800 → t = { s with
        upkIdx := s.upkIdx + 1#16, samples := t.samples, state := .done, result := .unpackOk, samplesValid := true }) ∧
      readSample t (2 * s.upkIdx.toNat) =
        (readPayload s (3 * s.upkIdx.toNat + 1)).extractLsb' 0 4 ++ readPayload s (3 * s.upkIdx.toNat) ∧
      readSample t (2 * s.upkIdx.toNat + 1) =
        readPayload s (3 * s.upkIdx.toNat + 2) ++ (readPayload s (3 * s.upkIdx.toNat + 1)).extractLsb' 4 4 ∧
      (∀ j, j ≠ 2 * s.upkIdx.toNat → j ≠ 2 * s.upkIdx.toNat + 1 → readSample t j = readSample s j) ∧
      (∀ a, readPayload t a = readPayload s a)

/-! ### Whole-machine rules -/

/-- Who writes which register (10_state.md R21 to R35), and what no operation changes. -/
def Obligations.RegistersHaveTheirWritersOnly : Prop :=
  ∀ (i : Instr) (s t : State), exec i s = .next t →
    (t.cancel ≠ s.cancel → (∃ d, i = .wrCtrl d) ∨ i = .reset) ∧
    (t.expected ≠ s.expected → (∃ rsv e, i = .cmdRead rsv e) ∨ i = .reset) ∧
    (t.payloadValid ≠ s.payloadValid → (∃ rsv e, i = .cmdRead rsv e) ∨ (∃ b, i = .rxByte b) ∨ i = .reset) ∧
    (t.samplesValid ≠ s.samplesValid → (∃ rsv arg, i = .cmdUnpack rsv arg) ∨ i = .unpackStep ∨ i = .reset) ∧
    (t.attempts ≠ s.attempts → (∃ rsv e, i = .cmdRead rsv e) ∨ i = .timeout ∨ i = .reset) ∧
    (t.upkIdx ≠ s.upkIdx → (∃ rsv arg, i = .cmdUnpack rsv arg) ∨ i = .unpackStep ∨ i = .reset) ∧
    (t.state ≠ s.state ∨ t.result ≠ s.result →
      (∃ rsv e, i = .cmdRead rsv e) ∨ (∃ rsv arg, i = .cmdUnpack rsv arg) ∨ (∃ rsv arg, i = .cmdClear rsv arg) ∨
      (∃ b, i = .rxByte b) ∨ i = .rxErr ∨ i = .timeout ∨ i = .unpackStep ∨ i = .reset) ∧
    (t.cmdReject ≠ s.cmdReject →
      (∃ rsv e, i = .cmdRead rsv e) ∨ (∃ rsv arg, i = .cmdUnpack rsv arg) ∨ (∃ rsv arg, i = .cmdClear rsv arg) ∨
      (∃ op rsv arg, i = .cmdReserved op rsv arg) ∨ i = .reset) ∧
    (t.errMagic ≠ s.errMagic ∨ t.errSize ≠ s.errSize ∨ t.errCksum ≠ s.errCksum →
      (∃ rsv e, i = .cmdRead rsv e) ∨ (∃ rsv arg, i = .cmdClear rsv arg) ∨ (∃ b, i = .rxByte b) ∨ i = .timeout ∨
      i = .reset) ∧
    (t.pos ≠ s.pos ∨ t.acc ≠ s.acc ∨ t.sizeLo ≠ s.sizeLo ∨ t.sizeHi ≠ s.sizeHi ∨ t.ckRx ≠ s.ckRx ∨
      t.magicRx0 ≠ s.magicRx0 ∨ t.magicRx1 ≠ s.magicRx1 ∨ t.magicRx2 ≠ s.magicRx2 →
      (∃ rsv e, i = .cmdRead rsv e) ∨ (∃ b, i = .rxByte b) ∨ i = .timeout ∨ i = .reset) ∧
    (t.hostData ≠ s.hostData → ∃ addr, i = .rd addr) ∧
    t.payloadCap = s.payloadCap ∧ t.host = s.host ∧ t.line = s.line ∧ t.moves = s.moves ∧ t.moveNo = s.moveNo

/-- R52, R53: no operation but RX_BYTE and RESET changes an entry of P, and none but UNPACK_STEP and RESET one of S. -/
def Obligations.StoresHaveTheirWritersOnly : Prop :=
  ∀ (i : Instr) (s t : State), exec i s = .next t → i ≠ .reset →
    ((∀ b, i ≠ .rxByte b) → ∀ a, readPayload t a = readPayload s a) ∧
    (i ≠ .unpackStep → ∀ j, readSample t j = readSample s j)

/-- R207: DONE is left only by CMD READ, CMD UNPACK with PAYLOAD_VALID, CMD CLEAR, or RESET. -/
def Obligations.DoneIsLeftByCommandOrReset : Prop :=
  ∀ (i : Instr) (s t : State), s.state = .done → exec i s = .next t → t.state ≠ .done →
    (∃ rsv e, i = .cmdRead rsv e) ∨ ((∃ rsv arg, i = .cmdUnpack rsv arg) ∧ s.payloadValid = true) ∨
    (∃ rsv arg, i = .cmdClear rsv arg) ∨ i = .reset

/-- R23, R202, R41 (c): PAYLOAD_VALID becomes 1 only in the byte that completes a read with every check passed, and a read that
ends otherwise leaves it as it was. -/
def Obligations.OnlyFrameOkValidatesPayload : Prop :=
  ∀ (i : Instr) (s t : State), exec i s = .next t → s.payloadValid = false → t.payloadValid = true →
    ∃ b, i = .rxByte b ∧ s.state = .reading ∧ s.pos.toNat = s.expected.toNat + 5 ∧ t.state = .done ∧
      t.result = .frameOk ∧ t.errMagic = false ∧ t.errSize = false ∧ t.errCksum = false

/-- R186: what the host has read changes no operation. -/
def Obligations.HostReadsDisturbNothing : Prop :=
  ∀ (i : Instr) (s t : State) (w : Option Word), (∀ addr, i ≠ .rd addr) → exec i s = .next t →
    exec i { s with hostData := w } = .next { t with hostData := w }

/-- R27, R244: CANCEL is read by TIMEOUT and by a host read, and by no other operation. -/
def Obligations.CancelSteersOnlyTimeout : Prop :=
  ∀ (i : Instr) (s t : State) (c : Bool), i ≠ .timeout → (∀ addr, i ≠ .rd addr) → (∀ d, i ≠ .wrCtrl d) → i ≠ .reset →
    exec i s = .next t → exec i { s with cancel := c } = .next { t with cancel := c }

/-- R157, R80: the contents of P steer nothing: with any other contents, the same operation changes every register in the same
way. -/
def Obligations.PayloadContentsSteerNothing : Prop :=
  ∀ (i : Instr) (s t : State) (p : List (Nat × Byte)), (∀ addr, i ≠ .rd addr) → exec i s = .next t →
    ∃ u, exec i { s with payload := p } = .next u ∧ { u with payload := t.payload, samples := t.samples } = t

/-! ### The validator -/

/-- R105: `Decode` succeeds exactly when the magic is right, the size is `E` and the XOR from the size to the checksum byte is
zero. -/
def Obligations.DecodeOkIsOneEquation : Prop :=
  ∀ (f : List Byte) (e : BitVec 16), f.length = e.toNat + 6 →
    ((∃ frame flags, frameDecode f e = .ok frame flags) ↔
      f.take 3 = [0x5A#8, 0x77#8, 0xFF#8] ∧ (f.getD 4 0#8 ++ f.getD 3 0#8 : BitVec 16) = e ∧ xorFold (f.drop 3) = 0#8)

/-- R106: decoding the wire form of a payload gives the payload back. -/
def Obligations.WireRoundTrip : Prop :=
  ∀ p : List Byte, p.length ≤ 65535 →
    ∃ f, toWire p = some f ∧ f.length = p.length + 6 ∧
      frameDecode f (BitVec.ofNat 16 p.length) =
        .ok ⟨BitVec.ofNat 16 p.length, p, checksum (BitVec.ofNat 8 p.length) (BitVec.ofNat 8 (p.length / 256)) p⟩
          ⟨false, false, false⟩

/-- R107: what a single flipped bit of a valid frame is reported as, by where it is. -/
def Obligations.SingleBitFlipIsReported : Prop :=
  ∀ (p f : List Byte) (o n : Nat), toWire p = some f → o < f.length → n < 8 →
    frameDecode (f.set o (f.getD o 0#8 ^^^ (1#8 <<< n))) (BitVec.ofNat 16 p.length) =
      if o < 3 then .err .badMagic ⟨true, false, false⟩
      else if o < 5 then .err .badSize ⟨false, true, true⟩
      else .err .badChecksum ⟨false, false, true⟩

/-- R108: a change confined to the payload whose XOR is zero is not caught. -/
def Obligations.ZeroXorPayloadChangeIsMissed : Prop :=
  ∀ (p q f : List Byte), toWire p = some f → q.length = p.length → xorFold q = xorFold p →
    ∃ ck, frameDecode (f.take 5 ++ q ++ f.drop (p.length + 5)) (BitVec.ofNat 16 p.length) =
      .ok ⟨BitVec.ofNat 16 p.length, q, ck⟩ ⟨false, false, false⟩

/-! ### Headlines -/

/-- From R129, for an attempt whose bytes come one after the other with no other step between (the statement
StepKeepsReadInvariant carries any interleaving): accepting `F[0 .. E + 5]` computes `Decode(F, E)`: the result, all three flags, the payload in
P, the size bytes, the received and the computed checksum; nothing past the payload and no sample changes. -/
def Obligations.ParserComputesDecode : Prop :=
  ∀ (s : State) (f : List Byte), s.state = .reading → s.pos = 0#17 → s.acc = 0#8 → s.errMagic = false →
    s.errSize = false → s.expected.toNat ≤ s.payloadCap → f.length = s.expected.toNat + 6 →
    ∃ t, execAll (f.map .rxByte) s = .next t ∧ t.state = .done ∧
      (match frameDecode f s.expected with
        | .ok frame flags => t.result = .frameOk ∧ t.payloadValid = true ∧
            frame.payload = payloadPrefix t s.expected.toNat ∧
            flags = ⟨t.errMagic, t.errSize, t.errCksum⟩
        | .err e flags => t.result = (match e with
              | .badMagic => .badMagic | .badSize => .badSize | .badChecksum => .badChecksum) ∧
            t.payloadValid = false ∧ flags = ⟨t.errMagic, t.errSize, t.errCksum⟩
        | .undefinedLength => False) ∧
      payloadPrefix t s.expected.toNat = (f.drop 5).take s.expected.toNat ∧
      t.sizeLo = f.getD 3 0#8 ∧ t.sizeHi = f.getD 4 0#8 ∧ t.ckRx = f.getD (s.expected.toNat + 5) 0#8 ∧
      t.acc = checksum (f.getD 3 0#8) (f.getD 4 0#8) ((f.drop 5).take s.expected.toNat) ∧
      t.pos.toNat = s.expected.toNat + 6 ∧ t.attempts = s.attempts ∧ t.expected = s.expected ∧
      (∀ i, s.expected.toNat ≤ i → readPayload t i = readPayload s i) ∧
      (∀ j, readSample t j = readSample s j)

/-- From R136, R133: through the machine's own steps, a read takes exactly `E + 6` bytes from the line and leaves the rest there.
The line and the placed moves as lists are the model's (log entries 2 and 3). -/
def Obligations.ReadConsumesExactlyOneFrame : Prop :=
  ∀ (s : State) (f rest : List Byte) (ms : List Move), s.state = .reading → s.pos = 0#17 →
    s.expected.toNat ≤ s.payloadCap → f.length = s.expected.toNat + 6 → s.line = f ++ rest →
    s.moves = List.replicate (s.expected.toNat + 6) .lineByte ++ ms →
    ∃ t : State, Host.Core.run Sys2Proof.core (s.expected.toNat + 6) s = .next t ∧ t.state = .done ∧ t.line = rest ∧
      t.moves = ms ∧ t.host = s.host ∧ payloadPrefix t s.expected.toNat = (f.drop 5).take s.expected.toNat

/-- From R137, R129, with no other step between: a read during which any number of attempts, each short of a whole frame, end
in a TIMEOUT with CANCEL 0, and then `E + 6` bytes arrive, ends with ATTEMPTS one more than the timeouts, and with FRAME_OK
exactly when `Decode` of the last `E + 6` bytes is Ok. -/
def Obligations.RetriedReadCountsAttempts : Prop :=
  ∀ (s : State) (rsv : BitVec 13) (e : BitVec 16) (partials : List (List Byte)) (f : List Byte),
    s.state = .idle ∨ s.state = .done → s.cancel = false → e.toNat ≤ s.payloadCap →
    (∀ l ∈ partials, l.length < e.toNat + 6) → partials.length + 1 < 2 ^ 32 → f.length = e.toNat + 6 →
    ∃ t, execAll (.cmdRead rsv e :: (partials.flatMap fun l => l.map .rxByte ++ [.timeout]) ++ f.map .rxByte) s = .next t ∧
      t.state = .done ∧ t.attempts.toNat = partials.length + 1 ∧
      (t.result = .frameOk ↔ ∃ frame flags, frameDecode f e = .ok frame flags) ∧
      payloadPrefix t e.toNat = (f.drop 5).take e.toNat

/-- From R154, R150, with no other step between (the statement StepKeepsUnpackInvariant carries any interleaving): the 4800
UNPACK_STEPs of an unpack compute `Unpack` of the payload, and change nothing else. -/
def Obligations.UnpackRunComputesUnpack : Prop :=
  ∀ s : State, s.state = .unpacking → s.upkIdx = 0#16 → 14400 ≤ s.expected.toNat → s.expected.toNat ≤ s.payloadCap →
    ∃ t, execAll (List.replicate 4800 .unpackStep) s = .next t ∧
      t = { s with
            state := .done, result := .unpackOk, samplesValid := true, upkIdx := 4800#16, samples := t.samples } ∧
      unpack (payloadPrefix s s.expected.toNat) = some ((List.range 9600).map (readSample t))

/-- From R9, R218: whatever enabled operations are chosen, one after the other and for ever, there is an infinite run that takes
exactly them. How the outside places each one is the model's (log entries 2 and 3). -/
def Obligations.AnyEnabledChoiceIsARun : Prop :=
  ∀ (s : State) (choose : State → Input), Inv s → s.host = [] → s.line = [] → s.moves = [] →
    (∀ u, enabled (ofInput (choose u)) u = true) →
    ∃ tr us : Nat → State, us 0 = s ∧ IsRun tr ∧ ∀ n,
      Placed (us n) (tr n) ∧ step (tr n) = .next (us (n + 1)) ∧
      exec (ofInput (choose (us n))) { us n with moveNo := (us n).moveNo + 1 } = .next (us (n + 1))

/-- From R218: under weak fairness of the engine, no unpack goes on forever. -/
def Obligations.FairEngineEndsEveryUnpack : Prop :=
  ∀ (tr : Nat → State) (n : Nat), IsRun tr → EngineFair tr → Inv (tr 0) → (tr n).state = .unpacking →
    ∃ m, n ≤ m ∧ (tr m).state ≠ .unpacking

/-- From R214, R131, R138: under timer liveness, a read whose CANCEL stays 1 and that gets no more bytes does not go on forever. -/
def Obligations.LiveTimerEndsCancelledRead : Prop :=
  ∀ (tr : Nat → State) (n : Nat), IsRun tr → TimerLive tr → (tr n).state = .reading →
    (∀ m, n ≤ m → (tr m).state = .reading → (tr m).cancel = true) → (∀ m, n ≤ m → ¬takesByte tr m) →
    ∃ m, n ≤ m ∧ (tr m).state ≠ .reading

/-- From R213, R246: what a clock cycle of the RTL layer does to the block, at any values of the open parameters, is a run of
event-level operations, each of them enabled where it stands: the event-level model admits every TIMEOUT the RTL timer raises
(log entry 11). -/
def Obligations.ClockCycleIsEnabledRun : Prop :=
  ∀ (p : RtlParams) (c : Cycle p) (r r' : Rtl p), rtlCycle c r = .next r' →
    EnabledRun (cycleEvents c r ++ cycleWrite c r) r.block r'.block

/-- From R138, R212: in the RTL layer, whatever the host does meanwhile, a read on a silent line goes on until TMR reaches
`T_CYC`; in that cycle a cancelled read ends with ABORTED, and one that is not cancelled is retried, with TMR cleared (log
entry 11). In the last cycle the host writes nothing, since a CMD READ there would start another read. -/
def Obligations.SilentLineTimesOutAtLimit : Prop :=
  ∀ (p : RtlParams) (r : Rtl p) (cs : List (Cycle p)), r.block.state = .reading → r.tmr < tCyc p →
    (∀ c ∈ cs, lineSilent c = true) →
    (cs.length < tCyc p - r.tmr → ∃ r', rtlCycles cs r = .next r' ∧ r'.tmr = r.tmr + cs.length ∧
      r'.block = { r.block with
        cancel := r'.block.cancel, cmdReject := r'.block.cmdReject, hostData := r'.block.hostData }) ∧
    (∀ (c : Cycle p) (m : Rtl p), lineSilent c = true → cs.length + 1 = tCyc p - r.tmr → rtlCycles cs r = .next m →
      busWrite c m = none →
      ∃ r', rtlCycle c m = .next r' ∧
        (m.block.cancel = true →
          r'.block = { m.block with state := .done, result := .aborted, hostData := r'.block.hostData }) ∧
        (m.block.cancel = false →
          r'.tmr = 0 ∧ r'.block.state = .reading ∧ r'.block.pos = 0#17 ∧
          r'.block.attempts.toNat = min (m.block.attempts.toNat + 1) (2 ^ 32 - 1)))
end

