-- ==== Sys2Proof/Laws/Decode.lean ====
section
/-! SUPPORT. The fields of the CMD word and of a record: reading a field back gives it, and the fields give the word. -/

namespace Sys2Proof

@[simp] theorem cmdOp_cmdWord (op : BitVec 3) (rsv : BitVec 13) (arg : BitVec 16) :
    cmdOp (cmdWord op rsv arg) = op := by
  unfold cmdOp cmdWord
  ext i hi
  interval_cases i <;> simp

@[simp] theorem cmdRsv_cmdWord (op : BitVec 3) (rsv : BitVec 13) (arg : BitVec 16) :
    cmdRsv (cmdWord op rsv arg) = rsv := by
  unfold cmdRsv cmdWord
  ext i hi
  interval_cases i <;> simp

@[simp] theorem cmdArg_cmdWord (op : BitVec 3) (rsv : BitVec 13) (arg : BitVec 16) :
    cmdArg (cmdWord op rsv arg) = arg := by
  unfold cmdArg cmdWord
  ext i hi
  interval_cases i <;> simp

theorem cmdWord_fields (d : Word) : cmdWord (cmdOp d) (cmdRsv d) (cmdArg d) = d := by
  unfold cmdOp cmdRsv cmdArg cmdWord
  ext i hi
  interval_cases i <;> simp

/-- A command word with the fields of an operation decodes to that operation (R76). -/
theorem ofCommand_cmdWord (op : BitVec 3) (rsv : BitVec 13) (arg : BitVec 16) :
    ofCommand (cmdWord op rsv arg) =
      if op = 0b000#3 then .cmdNop rsv arg
      else if op = 0b001#3 then .cmdRead rsv arg
      else if op = 0b010#3 then .cmdUnpack rsv arg
      else if op = 0b011#3 then .cmdClear rsv arg
      else .cmdReserved (op.setWidth 2) rsv arg := by
  simp [ofCommand]

/-! ### Records -/

@[simp] theorem recordFormat_recordBits (f : BitVec 8) (a : Addr) (d : Word) : recordFormat (recordBits f a d) = f := by
  unfold recordFormat recordBits
  ext i hi
  interval_cases i <;> simp

@[simp] theorem recordPad_recordBits (f : BitVec 8) (a : Addr) (d : Word) : recordPad (recordBits f a d) = 0#6 := by
  unfold recordPad recordBits
  ext i hi
  interval_cases i <;> simp

@[simp] theorem recordAddr_recordBits (f : BitVec 8) (a : Addr) (d : Word) : recordAddr (recordBits f a d) = a := by
  unfold recordAddr recordBits
  ext i hi
  interval_cases i <;> simp

@[simp] theorem recordData_recordBits (f : BitVec 8) (a : Addr) (d : Word) : recordData (recordBits f a d) = d := by
  unfold recordData recordBits
  ext i hi
  interval_cases i <;> simp

/-- A record without padding bits is its fields. -/
theorem recordBits_fields {r : BitVec 64} (h : recordPad r = 0#6) :
    recordBits (recordFormat r) (recordAddr r) (recordData r) = r := by
  have hb : ∀ i < 6, r.getLsbD (50 + i) = false := by
    intro i hi
    have := congrArg (fun v => v.getLsbD i) h
    simpa [recordPad, hi] using this
  have h0 := hb 0 (by omega)
  have h1 := hb 1 (by omega)
  have h2 := hb 2 (by omega)
  have h3 := hb 3 (by omega)
  have h4 := hb 4 (by omega)
  have h5 := hb 5 (by omega)
  simp only [Nat.reduceAdd, Nat.add_zero, BitVec.getLsbD_eq_getElem, Nat.reduceLT] at h0 h1 h2 h3 h4 h5
  unfold recordBits recordFormat recordAddr recordData
  ext i hi
  interval_cases i <;> simp [*]

theorem joinBytes_split (r : BitVec 64) :
    joinBytes (r.extractLsb' 0 8) (r.extractLsb' 8 8) (r.extractLsb' 16 8) (r.extractLsb' 24 8)
      (r.extractLsb' 32 8) (r.extractLsb' 40 8) (r.extractLsb' 48 8) (r.extractLsb' 56 8) = r := by
  unfold joinBytes
  ext i hi
  interval_cases i <;> simp

/-- Reading the input at the head of a sequence that begins with 64 bits laid out. -/
theorem decodeInput_split (r : BitVec 64) (rest : List Byte) :
    decodeInput (splitBytes r ++ rest) =
      match recordInput r with
      | .ok i => .ok (i, rest)
      | .error e => .error e := by
  cases h : recordInput r <;>
    simp only [splitBytes, List.cons_append, List.nil_append, decodeInput, joinBytes_split, h]

end Sys2Proof
end

