-- ==== Sys2Proof/Laws/State.lean ====
section
/-! SUPPORT. The fields of a state after each named update, one lemma a field, so that no proof unfolds an update. -/

namespace Sys2Proof.Machine

/-! ### finish -/

@[simp] theorem finish_state (code : Result) (s : State) : (finish code s).state = .done := rfl
@[simp] theorem finish_result (code : Result) (s : State) : (finish code s).result = code := rfl
@[simp] theorem finish_payloadValid (code : Result) (s : State) : (finish code s).payloadValid = s.payloadValid := rfl
@[simp] theorem finish_samplesValid (code : Result) (s : State) : (finish code s).samplesValid = s.samplesValid := rfl
@[simp] theorem finish_cmdReject (code : Result) (s : State) : (finish code s).cmdReject = s.cmdReject := rfl
@[simp] theorem finish_errMagic (code : Result) (s : State) : (finish code s).errMagic = s.errMagic := rfl
@[simp] theorem finish_errSize (code : Result) (s : State) : (finish code s).errSize = s.errSize := rfl
@[simp] theorem finish_errCksum (code : Result) (s : State) : (finish code s).errCksum = s.errCksum := rfl
@[simp] theorem finish_cancel (code : Result) (s : State) : (finish code s).cancel = s.cancel := rfl
@[simp] theorem finish_expected (code : Result) (s : State) : (finish code s).expected = s.expected := rfl
@[simp] theorem finish_pos (code : Result) (s : State) : (finish code s).pos = s.pos := rfl
@[simp] theorem finish_acc (code : Result) (s : State) : (finish code s).acc = s.acc := rfl
@[simp] theorem finish_sizeLo (code : Result) (s : State) : (finish code s).sizeLo = s.sizeLo := rfl
@[simp] theorem finish_sizeHi (code : Result) (s : State) : (finish code s).sizeHi = s.sizeHi := rfl
@[simp] theorem finish_ckRx (code : Result) (s : State) : (finish code s).ckRx = s.ckRx := rfl
@[simp] theorem finish_magicRx0 (code : Result) (s : State) : (finish code s).magicRx0 = s.magicRx0 := rfl
@[simp] theorem finish_magicRx1 (code : Result) (s : State) : (finish code s).magicRx1 = s.magicRx1 := rfl
@[simp] theorem finish_magicRx2 (code : Result) (s : State) : (finish code s).magicRx2 = s.magicRx2 := rfl
@[simp] theorem finish_attempts (code : Result) (s : State) : (finish code s).attempts = s.attempts := rfl
@[simp] theorem finish_upkIdx (code : Result) (s : State) : (finish code s).upkIdx = s.upkIdx := rfl
@[simp] theorem finish_payload (code : Result) (s : State) : (finish code s).payload = s.payload := rfl
@[simp] theorem finish_samples (code : Result) (s : State) : (finish code s).samples = s.samples := rfl
@[simp] theorem finish_payloadCap (code : Result) (s : State) : (finish code s).payloadCap = s.payloadCap := rfl
@[simp] theorem finish_drawNo (code : Result) (s : State) : (finish code s).drawNo = s.drawNo := rfl
@[simp] theorem finish_host (code : Result) (s : State) : (finish code s).host = s.host := rfl
@[simp] theorem finish_line (code : Result) (s : State) : (finish code s).line = s.line := rfl
@[simp] theorem finish_hostData (code : Result) (s : State) : (finish code s).hostData = s.hostData := rfl
@[simp] theorem finish_moves (code : Result) (s : State) : (finish code s).moves = s.moves := rfl
@[simp] theorem finish_moveNo (code : Result) (s : State) : (finish code s).moveNo = s.moveNo := rfl

/-! ### reject -/

@[simp] theorem reject_state (s : State) : (reject s).state = s.state := rfl
@[simp] theorem reject_result (s : State) : (reject s).result = s.result := rfl
@[simp] theorem reject_payloadValid (s : State) : (reject s).payloadValid = s.payloadValid := rfl
@[simp] theorem reject_samplesValid (s : State) : (reject s).samplesValid = s.samplesValid := rfl
@[simp] theorem reject_cmdReject (s : State) : (reject s).cmdReject = true := rfl
@[simp] theorem reject_errMagic (s : State) : (reject s).errMagic = s.errMagic := rfl
@[simp] theorem reject_errSize (s : State) : (reject s).errSize = s.errSize := rfl
@[simp] theorem reject_errCksum (s : State) : (reject s).errCksum = s.errCksum := rfl
@[simp] theorem reject_cancel (s : State) : (reject s).cancel = s.cancel := rfl
@[simp] theorem reject_expected (s : State) : (reject s).expected = s.expected := rfl
@[simp] theorem reject_pos (s : State) : (reject s).pos = s.pos := rfl
@[simp] theorem reject_acc (s : State) : (reject s).acc = s.acc := rfl
@[simp] theorem reject_sizeLo (s : State) : (reject s).sizeLo = s.sizeLo := rfl
@[simp] theorem reject_sizeHi (s : State) : (reject s).sizeHi = s.sizeHi := rfl
@[simp] theorem reject_ckRx (s : State) : (reject s).ckRx = s.ckRx := rfl
@[simp] theorem reject_magicRx0 (s : State) : (reject s).magicRx0 = s.magicRx0 := rfl
@[simp] theorem reject_magicRx1 (s : State) : (reject s).magicRx1 = s.magicRx1 := rfl
@[simp] theorem reject_magicRx2 (s : State) : (reject s).magicRx2 = s.magicRx2 := rfl
@[simp] theorem reject_attempts (s : State) : (reject s).attempts = s.attempts := rfl
@[simp] theorem reject_upkIdx (s : State) : (reject s).upkIdx = s.upkIdx := rfl
@[simp] theorem reject_payload (s : State) : (reject s).payload = s.payload := rfl
@[simp] theorem reject_samples (s : State) : (reject s).samples = s.samples := rfl
@[simp] theorem reject_payloadCap (s : State) : (reject s).payloadCap = s.payloadCap := rfl
@[simp] theorem reject_drawNo (s : State) : (reject s).drawNo = s.drawNo := rfl
@[simp] theorem reject_host (s : State) : (reject s).host = s.host := rfl
@[simp] theorem reject_line (s : State) : (reject s).line = s.line := rfl
@[simp] theorem reject_hostData (s : State) : (reject s).hostData = s.hostData := rfl
@[simp] theorem reject_moves (s : State) : (reject s).moves = s.moves := rfl
@[simp] theorem reject_moveNo (s : State) : (reject s).moveNo = s.moveNo := rfl

/-! ### attemptReset -/

@[simp] theorem attemptReset_state (s : State) : (attemptReset s).state = s.state := rfl
@[simp] theorem attemptReset_result (s : State) : (attemptReset s).result = s.result := rfl
@[simp] theorem attemptReset_payloadValid (s : State) : (attemptReset s).payloadValid = s.payloadValid := rfl
@[simp] theorem attemptReset_samplesValid (s : State) : (attemptReset s).samplesValid = s.samplesValid := rfl
@[simp] theorem attemptReset_cmdReject (s : State) : (attemptReset s).cmdReject = s.cmdReject := rfl
@[simp] theorem attemptReset_errMagic (s : State) : (attemptReset s).errMagic = false := rfl
@[simp] theorem attemptReset_errSize (s : State) : (attemptReset s).errSize = false := rfl
@[simp] theorem attemptReset_errCksum (s : State) : (attemptReset s).errCksum = false := rfl
@[simp] theorem attemptReset_cancel (s : State) : (attemptReset s).cancel = s.cancel := rfl
@[simp] theorem attemptReset_expected (s : State) : (attemptReset s).expected = s.expected := rfl
@[simp] theorem attemptReset_pos (s : State) : (attemptReset s).pos = 0#17 := rfl
@[simp] theorem attemptReset_acc (s : State) : (attemptReset s).acc = 0x00#8 := rfl
@[simp] theorem attemptReset_sizeLo (s : State) : (attemptReset s).sizeLo = 0x00#8 := rfl
@[simp] theorem attemptReset_sizeHi (s : State) : (attemptReset s).sizeHi = 0x00#8 := rfl
@[simp] theorem attemptReset_ckRx (s : State) : (attemptReset s).ckRx = 0x00#8 := rfl
@[simp] theorem attemptReset_magicRx0 (s : State) : (attemptReset s).magicRx0 = 0x00#8 := rfl
@[simp] theorem attemptReset_magicRx1 (s : State) : (attemptReset s).magicRx1 = 0x00#8 := rfl
@[simp] theorem attemptReset_magicRx2 (s : State) : (attemptReset s).magicRx2 = 0x00#8 := rfl
@[simp] theorem attemptReset_attempts (s : State) : (attemptReset s).attempts = s.attempts := rfl
@[simp] theorem attemptReset_upkIdx (s : State) : (attemptReset s).upkIdx = s.upkIdx := rfl
@[simp] theorem attemptReset_payload (s : State) : (attemptReset s).payload = s.payload := rfl
@[simp] theorem attemptReset_samples (s : State) : (attemptReset s).samples = s.samples := rfl
@[simp] theorem attemptReset_payloadCap (s : State) : (attemptReset s).payloadCap = s.payloadCap := rfl
@[simp] theorem attemptReset_drawNo (s : State) : (attemptReset s).drawNo = s.drawNo := rfl
@[simp] theorem attemptReset_host (s : State) : (attemptReset s).host = s.host := rfl
@[simp] theorem attemptReset_line (s : State) : (attemptReset s).line = s.line := rfl
@[simp] theorem attemptReset_hostData (s : State) : (attemptReset s).hostData = s.hostData := rfl
@[simp] theorem attemptReset_moves (s : State) : (attemptReset s).moves = s.moves := rfl
@[simp] theorem attemptReset_moveNo (s : State) : (attemptReset s).moveNo = s.moveNo := rfl

/-! ### startRead -/

@[simp] theorem startRead_state (e : BitVec 16) (s : State) : (startRead e s).state = .reading := rfl
@[simp] theorem startRead_result (e : BitVec 16) (s : State) : (startRead e s).result = .none := rfl
@[simp] theorem startRead_payloadValid (e : BitVec 16) (s : State) : (startRead e s).payloadValid = false := rfl
@[simp] theorem startRead_samplesValid (e : BitVec 16) (s : State) :
    (startRead e s).samplesValid = s.samplesValid := rfl
@[simp] theorem startRead_cmdReject (e : BitVec 16) (s : State) : (startRead e s).cmdReject = s.cmdReject := rfl
@[simp] theorem startRead_errMagic (e : BitVec 16) (s : State) : (startRead e s).errMagic = false := rfl
@[simp] theorem startRead_errSize (e : BitVec 16) (s : State) : (startRead e s).errSize = false := rfl
@[simp] theorem startRead_errCksum (e : BitVec 16) (s : State) : (startRead e s).errCksum = false := rfl
@[simp] theorem startRead_cancel (e : BitVec 16) (s : State) : (startRead e s).cancel = s.cancel := rfl
@[simp] theorem startRead_expected (e : BitVec 16) (s : State) : (startRead e s).expected = e := rfl
@[simp] theorem startRead_pos (e : BitVec 16) (s : State) : (startRead e s).pos = 0#17 := rfl
@[simp] theorem startRead_acc (e : BitVec 16) (s : State) : (startRead e s).acc = 0x00#8 := rfl
@[simp] theorem startRead_sizeLo (e : BitVec 16) (s : State) : (startRead e s).sizeLo = 0x00#8 := rfl
@[simp] theorem startRead_sizeHi (e : BitVec 16) (s : State) : (startRead e s).sizeHi = 0x00#8 := rfl
@[simp] theorem startRead_ckRx (e : BitVec 16) (s : State) : (startRead e s).ckRx = 0x00#8 := rfl
@[simp] theorem startRead_magicRx0 (e : BitVec 16) (s : State) : (startRead e s).magicRx0 = 0x00#8 := rfl
@[simp] theorem startRead_magicRx1 (e : BitVec 16) (s : State) : (startRead e s).magicRx1 = 0x00#8 := rfl
@[simp] theorem startRead_magicRx2 (e : BitVec 16) (s : State) : (startRead e s).magicRx2 = 0x00#8 := rfl
@[simp] theorem startRead_attempts (e : BitVec 16) (s : State) : (startRead e s).attempts = 1#32 := rfl
@[simp] theorem startRead_upkIdx (e : BitVec 16) (s : State) : (startRead e s).upkIdx = s.upkIdx := rfl
@[simp] theorem startRead_payload (e : BitVec 16) (s : State) : (startRead e s).payload = s.payload := rfl
@[simp] theorem startRead_samples (e : BitVec 16) (s : State) : (startRead e s).samples = s.samples := rfl
@[simp] theorem startRead_payloadCap (e : BitVec 16) (s : State) : (startRead e s).payloadCap = s.payloadCap := rfl
@[simp] theorem startRead_drawNo (e : BitVec 16) (s : State) : (startRead e s).drawNo = s.drawNo := rfl
@[simp] theorem startRead_host (e : BitVec 16) (s : State) : (startRead e s).host = s.host := rfl
@[simp] theorem startRead_line (e : BitVec 16) (s : State) : (startRead e s).line = s.line := rfl
@[simp] theorem startRead_hostData (e : BitVec 16) (s : State) : (startRead e s).hostData = s.hostData := rfl
@[simp] theorem startRead_moves (e : BitVec 16) (s : State) : (startRead e s).moves = s.moves := rfl
@[simp] theorem startRead_moveNo (e : BitVec 16) (s : State) : (startRead e s).moveNo = s.moveNo := rfl

/-! ### startUnpack -/

@[simp] theorem startUnpack_state (s : State) : (startUnpack s).state = .unpacking := rfl
@[simp] theorem startUnpack_result (s : State) : (startUnpack s).result = .none := rfl
@[simp] theorem startUnpack_payloadValid (s : State) : (startUnpack s).payloadValid = s.payloadValid := rfl
@[simp] theorem startUnpack_samplesValid (s : State) : (startUnpack s).samplesValid = false := rfl
@[simp] theorem startUnpack_cmdReject (s : State) : (startUnpack s).cmdReject = s.cmdReject := rfl
@[simp] theorem startUnpack_errMagic (s : State) : (startUnpack s).errMagic = s.errMagic := rfl
@[simp] theorem startUnpack_errSize (s : State) : (startUnpack s).errSize = s.errSize := rfl
@[simp] theorem startUnpack_errCksum (s : State) : (startUnpack s).errCksum = s.errCksum := rfl
@[simp] theorem startUnpack_cancel (s : State) : (startUnpack s).cancel = s.cancel := rfl
@[simp] theorem startUnpack_expected (s : State) : (startUnpack s).expected = s.expected := rfl
@[simp] theorem startUnpack_pos (s : State) : (startUnpack s).pos = s.pos := rfl
@[simp] theorem startUnpack_acc (s : State) : (startUnpack s).acc = s.acc := rfl
@[simp] theorem startUnpack_sizeLo (s : State) : (startUnpack s).sizeLo = s.sizeLo := rfl
@[simp] theorem startUnpack_sizeHi (s : State) : (startUnpack s).sizeHi = s.sizeHi := rfl
@[simp] theorem startUnpack_ckRx (s : State) : (startUnpack s).ckRx = s.ckRx := rfl
@[simp] theorem startUnpack_magicRx0 (s : State) : (startUnpack s).magicRx0 = s.magicRx0 := rfl
@[simp] theorem startUnpack_magicRx1 (s : State) : (startUnpack s).magicRx1 = s.magicRx1 := rfl
@[simp] theorem startUnpack_magicRx2 (s : State) : (startUnpack s).magicRx2 = s.magicRx2 := rfl
@[simp] theorem startUnpack_attempts (s : State) : (startUnpack s).attempts = s.attempts := rfl
@[simp] theorem startUnpack_upkIdx (s : State) : (startUnpack s).upkIdx = 0#16 := rfl
@[simp] theorem startUnpack_payload (s : State) : (startUnpack s).payload = s.payload := rfl
@[simp] theorem startUnpack_samples (s : State) : (startUnpack s).samples = s.samples := rfl
@[simp] theorem startUnpack_payloadCap (s : State) : (startUnpack s).payloadCap = s.payloadCap := rfl
@[simp] theorem startUnpack_drawNo (s : State) : (startUnpack s).drawNo = s.drawNo := rfl
@[simp] theorem startUnpack_host (s : State) : (startUnpack s).host = s.host := rfl
@[simp] theorem startUnpack_line (s : State) : (startUnpack s).line = s.line := rfl
@[simp] theorem startUnpack_hostData (s : State) : (startUnpack s).hostData = s.hostData := rfl
@[simp] theorem startUnpack_moves (s : State) : (startUnpack s).moves = s.moves := rfl
@[simp] theorem startUnpack_moveNo (s : State) : (startUnpack s).moveNo = s.moveNo := rfl

/-! ### acknowledge -/

@[simp] theorem acknowledge_state (s : State) : (acknowledge s).state = .idle := rfl
@[simp] theorem acknowledge_result (s : State) : (acknowledge s).result = .none := rfl
@[simp] theorem acknowledge_payloadValid (s : State) : (acknowledge s).payloadValid = s.payloadValid := rfl
@[simp] theorem acknowledge_samplesValid (s : State) : (acknowledge s).samplesValid = s.samplesValid := rfl
@[simp] theorem acknowledge_cmdReject (s : State) : (acknowledge s).cmdReject = false := rfl
@[simp] theorem acknowledge_errMagic (s : State) : (acknowledge s).errMagic = false := rfl
@[simp] theorem acknowledge_errSize (s : State) : (acknowledge s).errSize = false := rfl
@[simp] theorem acknowledge_errCksum (s : State) : (acknowledge s).errCksum = false := rfl
@[simp] theorem acknowledge_cancel (s : State) : (acknowledge s).cancel = s.cancel := rfl
@[simp] theorem acknowledge_expected (s : State) : (acknowledge s).expected = s.expected := rfl
@[simp] theorem acknowledge_pos (s : State) : (acknowledge s).pos = s.pos := rfl
@[simp] theorem acknowledge_acc (s : State) : (acknowledge s).acc = s.acc := rfl
@[simp] theorem acknowledge_sizeLo (s : State) : (acknowledge s).sizeLo = s.sizeLo := rfl
@[simp] theorem acknowledge_sizeHi (s : State) : (acknowledge s).sizeHi = s.sizeHi := rfl
@[simp] theorem acknowledge_ckRx (s : State) : (acknowledge s).ckRx = s.ckRx := rfl
@[simp] theorem acknowledge_magicRx0 (s : State) : (acknowledge s).magicRx0 = s.magicRx0 := rfl
@[simp] theorem acknowledge_magicRx1 (s : State) : (acknowledge s).magicRx1 = s.magicRx1 := rfl
@[simp] theorem acknowledge_magicRx2 (s : State) : (acknowledge s).magicRx2 = s.magicRx2 := rfl
@[simp] theorem acknowledge_attempts (s : State) : (acknowledge s).attempts = s.attempts := rfl
@[simp] theorem acknowledge_upkIdx (s : State) : (acknowledge s).upkIdx = s.upkIdx := rfl
@[simp] theorem acknowledge_payload (s : State) : (acknowledge s).payload = s.payload := rfl
@[simp] theorem acknowledge_samples (s : State) : (acknowledge s).samples = s.samples := rfl
@[simp] theorem acknowledge_payloadCap (s : State) : (acknowledge s).payloadCap = s.payloadCap := rfl
@[simp] theorem acknowledge_drawNo (s : State) : (acknowledge s).drawNo = s.drawNo := rfl
@[simp] theorem acknowledge_host (s : State) : (acknowledge s).host = s.host := rfl
@[simp] theorem acknowledge_line (s : State) : (acknowledge s).line = s.line := rfl
@[simp] theorem acknowledge_hostData (s : State) : (acknowledge s).hostData = s.hostData := rfl
@[simp] theorem acknowledge_moves (s : State) : (acknowledge s).moves = s.moves := rfl
@[simp] theorem acknowledge_moveNo (s : State) : (acknowledge s).moveNo = s.moveNo := rfl

/-! ### retryAttempt -/

@[simp] theorem retryAttempt_state (s : State) : (retryAttempt s).state = s.state := rfl
@[simp] theorem retryAttempt_result (s : State) : (retryAttempt s).result = s.result := rfl
@[simp] theorem retryAttempt_payloadValid (s : State) : (retryAttempt s).payloadValid = s.payloadValid := rfl
@[simp] theorem retryAttempt_samplesValid (s : State) : (retryAttempt s).samplesValid = s.samplesValid := rfl
@[simp] theorem retryAttempt_cmdReject (s : State) : (retryAttempt s).cmdReject = s.cmdReject := rfl
@[simp] theorem retryAttempt_errMagic (s : State) : (retryAttempt s).errMagic = false := rfl
@[simp] theorem retryAttempt_errSize (s : State) : (retryAttempt s).errSize = false := rfl
@[simp] theorem retryAttempt_errCksum (s : State) : (retryAttempt s).errCksum = false := rfl
@[simp] theorem retryAttempt_cancel (s : State) : (retryAttempt s).cancel = s.cancel := rfl
@[simp] theorem retryAttempt_expected (s : State) : (retryAttempt s).expected = s.expected := rfl
@[simp] theorem retryAttempt_pos (s : State) : (retryAttempt s).pos = 0#17 := rfl
@[simp] theorem retryAttempt_acc (s : State) : (retryAttempt s).acc = 0x00#8 := rfl
@[simp] theorem retryAttempt_sizeLo (s : State) : (retryAttempt s).sizeLo = 0x00#8 := rfl
@[simp] theorem retryAttempt_sizeHi (s : State) : (retryAttempt s).sizeHi = 0x00#8 := rfl
@[simp] theorem retryAttempt_ckRx (s : State) : (retryAttempt s).ckRx = 0x00#8 := rfl
@[simp] theorem retryAttempt_magicRx0 (s : State) : (retryAttempt s).magicRx0 = 0x00#8 := rfl
@[simp] theorem retryAttempt_magicRx1 (s : State) : (retryAttempt s).magicRx1 = 0x00#8 := rfl
@[simp] theorem retryAttempt_magicRx2 (s : State) : (retryAttempt s).magicRx2 = 0x00#8 := rfl
@[simp] theorem retryAttempt_attempts (s : State) : (retryAttempt s).attempts = satInc32 s.attempts := rfl
@[simp] theorem retryAttempt_upkIdx (s : State) : (retryAttempt s).upkIdx = s.upkIdx := rfl
@[simp] theorem retryAttempt_payload (s : State) : (retryAttempt s).payload = s.payload := rfl
@[simp] theorem retryAttempt_samples (s : State) : (retryAttempt s).samples = s.samples := rfl
@[simp] theorem retryAttempt_payloadCap (s : State) : (retryAttempt s).payloadCap = s.payloadCap := rfl
@[simp] theorem retryAttempt_drawNo (s : State) : (retryAttempt s).drawNo = s.drawNo := rfl
@[simp] theorem retryAttempt_host (s : State) : (retryAttempt s).host = s.host := rfl
@[simp] theorem retryAttempt_line (s : State) : (retryAttempt s).line = s.line := rfl
@[simp] theorem retryAttempt_hostData (s : State) : (retryAttempt s).hostData = s.hostData := rfl
@[simp] theorem retryAttempt_moves (s : State) : (retryAttempt s).moves = s.moves := rfl
@[simp] theorem retryAttempt_moveNo (s : State) : (retryAttempt s).moveNo = s.moveNo := rfl

/-! ### writePayload -/

@[simp] theorem writePayload_state (i : Nat) (b : Byte) (s : State) : (writePayload i b s).state = s.state := rfl
@[simp] theorem writePayload_result (i : Nat) (b : Byte) (s : State) : (writePayload i b s).result = s.result := rfl
@[simp] theorem writePayload_payloadValid (i : Nat) (b : Byte) (s : State) :
    (writePayload i b s).payloadValid = s.payloadValid := rfl
@[simp] theorem writePayload_samplesValid (i : Nat) (b : Byte) (s : State) :
    (writePayload i b s).samplesValid = s.samplesValid := rfl
@[simp] theorem writePayload_cmdReject (i : Nat) (b : Byte) (s : State) :
    (writePayload i b s).cmdReject = s.cmdReject := rfl
@[simp] theorem writePayload_errMagic (i : Nat) (b : Byte) (s : State) :
    (writePayload i b s).errMagic = s.errMagic := rfl
@[simp] theorem writePayload_errSize (i : Nat) (b : Byte) (s : State) :
    (writePayload i b s).errSize = s.errSize := rfl
@[simp] theorem writePayload_errCksum (i : Nat) (b : Byte) (s : State) :
    (writePayload i b s).errCksum = s.errCksum := rfl
@[simp] theorem writePayload_cancel (i : Nat) (b : Byte) (s : State) : (writePayload i b s).cancel = s.cancel := rfl
@[simp] theorem writePayload_expected (i : Nat) (b : Byte) (s : State) :
    (writePayload i b s).expected = s.expected := rfl
@[simp] theorem writePayload_pos (i : Nat) (b : Byte) (s : State) : (writePayload i b s).pos = s.pos := rfl
@[simp] theorem writePayload_acc (i : Nat) (b : Byte) (s : State) : (writePayload i b s).acc = s.acc := rfl
@[simp] theorem writePayload_sizeLo (i : Nat) (b : Byte) (s : State) : (writePayload i b s).sizeLo = s.sizeLo := rfl
@[simp] theorem writePayload_sizeHi (i : Nat) (b : Byte) (s : State) : (writePayload i b s).sizeHi = s.sizeHi := rfl
@[simp] theorem writePayload_ckRx (i : Nat) (b : Byte) (s : State) : (writePayload i b s).ckRx = s.ckRx := rfl
@[simp] theorem writePayload_magicRx0 (i : Nat) (b : Byte) (s : State) :
    (writePayload i b s).magicRx0 = s.magicRx0 := rfl
@[simp] theorem writePayload_magicRx1 (i : Nat) (b : Byte) (s : State) :
    (writePayload i b s).magicRx1 = s.magicRx1 := rfl
@[simp] theorem writePayload_magicRx2 (i : Nat) (b : Byte) (s : State) :
    (writePayload i b s).magicRx2 = s.magicRx2 := rfl
@[simp] theorem writePayload_attempts (i : Nat) (b : Byte) (s : State) :
    (writePayload i b s).attempts = s.attempts := rfl
@[simp] theorem writePayload_upkIdx (i : Nat) (b : Byte) (s : State) : (writePayload i b s).upkIdx = s.upkIdx := rfl
@[simp] theorem writePayload_payload (i : Nat) (b : Byte) (s : State) :
    (writePayload i b s).payload = Memory.put s.payload i b := rfl
@[simp] theorem writePayload_samples (i : Nat) (b : Byte) (s : State) :
    (writePayload i b s).samples = s.samples := rfl
@[simp] theorem writePayload_payloadCap (i : Nat) (b : Byte) (s : State) :
    (writePayload i b s).payloadCap = s.payloadCap := rfl
@[simp] theorem writePayload_drawNo (i : Nat) (b : Byte) (s : State) : (writePayload i b s).drawNo = s.drawNo := rfl
@[simp] theorem writePayload_host (i : Nat) (b : Byte) (s : State) : (writePayload i b s).host = s.host := rfl
@[simp] theorem writePayload_line (i : Nat) (b : Byte) (s : State) : (writePayload i b s).line = s.line := rfl
@[simp] theorem writePayload_hostData (i : Nat) (b : Byte) (s : State) :
    (writePayload i b s).hostData = s.hostData := rfl
@[simp] theorem writePayload_moves (i : Nat) (b : Byte) (s : State) : (writePayload i b s).moves = s.moves := rfl
@[simp] theorem writePayload_moveNo (i : Nat) (b : Byte) (s : State) : (writePayload i b s).moveNo = s.moveNo := rfl

/-! ### writeSample -/

@[simp] theorem writeSample_state (j : Nat) (v : Sample) (s : State) : (writeSample j v s).state = s.state := rfl
@[simp] theorem writeSample_result (j : Nat) (v : Sample) (s : State) : (writeSample j v s).result = s.result := rfl
@[simp] theorem writeSample_payloadValid (j : Nat) (v : Sample) (s : State) :
    (writeSample j v s).payloadValid = s.payloadValid := rfl
@[simp] theorem writeSample_samplesValid (j : Nat) (v : Sample) (s : State) :
    (writeSample j v s).samplesValid = s.samplesValid := rfl
@[simp] theorem writeSample_cmdReject (j : Nat) (v : Sample) (s : State) :
    (writeSample j v s).cmdReject = s.cmdReject := rfl
@[simp] theorem writeSample_errMagic (j : Nat) (v : Sample) (s : State) :
    (writeSample j v s).errMagic = s.errMagic := rfl
@[simp] theorem writeSample_errSize (j : Nat) (v : Sample) (s : State) :
    (writeSample j v s).errSize = s.errSize := rfl
@[simp] theorem writeSample_errCksum (j : Nat) (v : Sample) (s : State) :
    (writeSample j v s).errCksum = s.errCksum := rfl
@[simp] theorem writeSample_cancel (j : Nat) (v : Sample) (s : State) : (writeSample j v s).cancel = s.cancel := rfl
@[simp] theorem writeSample_expected (j : Nat) (v : Sample) (s : State) :
    (writeSample j v s).expected = s.expected := rfl
@[simp] theorem writeSample_pos (j : Nat) (v : Sample) (s : State) : (writeSample j v s).pos = s.pos := rfl
@[simp] theorem writeSample_acc (j : Nat) (v : Sample) (s : State) : (writeSample j v s).acc = s.acc := rfl
@[simp] theorem writeSample_sizeLo (j : Nat) (v : Sample) (s : State) : (writeSample j v s).sizeLo = s.sizeLo := rfl
@[simp] theorem writeSample_sizeHi (j : Nat) (v : Sample) (s : State) : (writeSample j v s).sizeHi = s.sizeHi := rfl
@[simp] theorem writeSample_ckRx (j : Nat) (v : Sample) (s : State) : (writeSample j v s).ckRx = s.ckRx := rfl
@[simp] theorem writeSample_magicRx0 (j : Nat) (v : Sample) (s : State) :
    (writeSample j v s).magicRx0 = s.magicRx0 := rfl
@[simp] theorem writeSample_magicRx1 (j : Nat) (v : Sample) (s : State) :
    (writeSample j v s).magicRx1 = s.magicRx1 := rfl
@[simp] theorem writeSample_magicRx2 (j : Nat) (v : Sample) (s : State) :
    (writeSample j v s).magicRx2 = s.magicRx2 := rfl
@[simp] theorem writeSample_attempts (j : Nat) (v : Sample) (s : State) :
    (writeSample j v s).attempts = s.attempts := rfl
@[simp] theorem writeSample_upkIdx (j : Nat) (v : Sample) (s : State) : (writeSample j v s).upkIdx = s.upkIdx := rfl
@[simp] theorem writeSample_payload (j : Nat) (v : Sample) (s : State) :
    (writeSample j v s).payload = s.payload := rfl
@[simp] theorem writeSample_samples (j : Nat) (v : Sample) (s : State) :
    (writeSample j v s).samples = Memory.put s.samples j v := rfl
@[simp] theorem writeSample_payloadCap (j : Nat) (v : Sample) (s : State) :
    (writeSample j v s).payloadCap = s.payloadCap := rfl
@[simp] theorem writeSample_drawNo (j : Nat) (v : Sample) (s : State) : (writeSample j v s).drawNo = s.drawNo := rfl
@[simp] theorem writeSample_host (j : Nat) (v : Sample) (s : State) : (writeSample j v s).host = s.host := rfl
@[simp] theorem writeSample_line (j : Nat) (v : Sample) (s : State) : (writeSample j v s).line = s.line := rfl
@[simp] theorem writeSample_hostData (j : Nat) (v : Sample) (s : State) :
    (writeSample j v s).hostData = s.hostData := rfl
@[simp] theorem writeSample_moves (j : Nat) (v : Sample) (s : State) : (writeSample j v s).moves = s.moves := rfl
@[simp] theorem writeSample_moveNo (j : Nat) (v : Sample) (s : State) : (writeSample j v s).moveNo = s.moveNo := rfl

/-! ### acceptHeader -/

@[simp] theorem acceptHeader_state (p : Nat) (b : Byte) (s : State) : (acceptHeader p b s).state = s.state := rfl
@[simp] theorem acceptHeader_result (p : Nat) (b : Byte) (s : State) : (acceptHeader p b s).result = s.result := rfl
@[simp] theorem acceptHeader_payloadValid (p : Nat) (b : Byte) (s : State) :
    (acceptHeader p b s).payloadValid = s.payloadValid := rfl
@[simp] theorem acceptHeader_samplesValid (p : Nat) (b : Byte) (s : State) :
    (acceptHeader p b s).samplesValid = s.samplesValid := rfl
@[simp] theorem acceptHeader_cmdReject (p : Nat) (b : Byte) (s : State) :
    (acceptHeader p b s).cmdReject = s.cmdReject := rfl
@[simp] theorem acceptHeader_errMagic (p : Nat) (b : Byte) (s : State) :
    (acceptHeader p b s).errMagic = errMagicAfter s.errMagic p b := rfl
@[simp] theorem acceptHeader_errSize (p : Nat) (b : Byte) (s : State) :
    (acceptHeader p b s).errSize = s.errSize := rfl
@[simp] theorem acceptHeader_errCksum (p : Nat) (b : Byte) (s : State) :
    (acceptHeader p b s).errCksum = s.errCksum := rfl
@[simp] theorem acceptHeader_cancel (p : Nat) (b : Byte) (s : State) : (acceptHeader p b s).cancel = s.cancel := rfl
@[simp] theorem acceptHeader_expected (p : Nat) (b : Byte) (s : State) :
    (acceptHeader p b s).expected = s.expected := rfl
@[simp] theorem acceptHeader_pos (p : Nat) (b : Byte) (s : State) : (acceptHeader p b s).pos = s.pos := rfl
@[simp] theorem acceptHeader_acc (p : Nat) (b : Byte) (s : State) : (acceptHeader p b s).acc = s.acc := rfl
@[simp] theorem acceptHeader_sizeLo (p : Nat) (b : Byte) (s : State) : (acceptHeader p b s).sizeLo = s.sizeLo := rfl
@[simp] theorem acceptHeader_sizeHi (p : Nat) (b : Byte) (s : State) : (acceptHeader p b s).sizeHi = s.sizeHi := rfl
@[simp] theorem acceptHeader_ckRx (p : Nat) (b : Byte) (s : State) : (acceptHeader p b s).ckRx = s.ckRx := rfl
@[simp] theorem acceptHeader_magicRx0 (p : Nat) (b : Byte) (s : State) :
    (acceptHeader p b s).magicRx0 = if p = 0 then b else s.magicRx0 := rfl
@[simp] theorem acceptHeader_magicRx1 (p : Nat) (b : Byte) (s : State) :
    (acceptHeader p b s).magicRx1 = if p = 1 then b else s.magicRx1 := rfl
@[simp] theorem acceptHeader_magicRx2 (p : Nat) (b : Byte) (s : State) :
    (acceptHeader p b s).magicRx2 = if p = 2 then b else s.magicRx2 := rfl
@[simp] theorem acceptHeader_attempts (p : Nat) (b : Byte) (s : State) :
    (acceptHeader p b s).attempts = s.attempts := rfl
@[simp] theorem acceptHeader_upkIdx (p : Nat) (b : Byte) (s : State) : (acceptHeader p b s).upkIdx = s.upkIdx := rfl
@[simp] theorem acceptHeader_payload (p : Nat) (b : Byte) (s : State) :
    (acceptHeader p b s).payload = s.payload := rfl
@[simp] theorem acceptHeader_samples (p : Nat) (b : Byte) (s : State) :
    (acceptHeader p b s).samples = s.samples := rfl
@[simp] theorem acceptHeader_payloadCap (p : Nat) (b : Byte) (s : State) :
    (acceptHeader p b s).payloadCap = s.payloadCap := rfl
@[simp] theorem acceptHeader_drawNo (p : Nat) (b : Byte) (s : State) : (acceptHeader p b s).drawNo = s.drawNo := rfl
@[simp] theorem acceptHeader_host (p : Nat) (b : Byte) (s : State) : (acceptHeader p b s).host = s.host := rfl
@[simp] theorem acceptHeader_line (p : Nat) (b : Byte) (s : State) : (acceptHeader p b s).line = s.line := rfl
@[simp] theorem acceptHeader_hostData (p : Nat) (b : Byte) (s : State) :
    (acceptHeader p b s).hostData = s.hostData := rfl
@[simp] theorem acceptHeader_moves (p : Nat) (b : Byte) (s : State) : (acceptHeader p b s).moves = s.moves := rfl
@[simp] theorem acceptHeader_moveNo (p : Nat) (b : Byte) (s : State) : (acceptHeader p b s).moveNo = s.moveNo := rfl

/-! ### acceptSizeLo -/

@[simp] theorem acceptSizeLo_state (b : Byte) (s : State) : (acceptSizeLo b s).state = s.state := rfl
@[simp] theorem acceptSizeLo_result (b : Byte) (s : State) : (acceptSizeLo b s).result = s.result := rfl
@[simp] theorem acceptSizeLo_payloadValid (b : Byte) (s : State) :
    (acceptSizeLo b s).payloadValid = s.payloadValid := rfl
@[simp] theorem acceptSizeLo_samplesValid (b : Byte) (s : State) :
    (acceptSizeLo b s).samplesValid = s.samplesValid := rfl
@[simp] theorem acceptSizeLo_cmdReject (b : Byte) (s : State) : (acceptSizeLo b s).cmdReject = s.cmdReject := rfl
@[simp] theorem acceptSizeLo_errMagic (b : Byte) (s : State) : (acceptSizeLo b s).errMagic = s.errMagic := rfl
@[simp] theorem acceptSizeLo_errSize (b : Byte) (s : State) : (acceptSizeLo b s).errSize = s.errSize := rfl
@[simp] theorem acceptSizeLo_errCksum (b : Byte) (s : State) : (acceptSizeLo b s).errCksum = s.errCksum := rfl
@[simp] theorem acceptSizeLo_cancel (b : Byte) (s : State) : (acceptSizeLo b s).cancel = s.cancel := rfl
@[simp] theorem acceptSizeLo_expected (b : Byte) (s : State) : (acceptSizeLo b s).expected = s.expected := rfl
@[simp] theorem acceptSizeLo_pos (b : Byte) (s : State) : (acceptSizeLo b s).pos = s.pos := rfl
@[simp] theorem acceptSizeLo_acc (b : Byte) (s : State) : (acceptSizeLo b s).acc = s.acc ^^^ b := rfl
@[simp] theorem acceptSizeLo_sizeLo (b : Byte) (s : State) : (acceptSizeLo b s).sizeLo = b := rfl
@[simp] theorem acceptSizeLo_sizeHi (b : Byte) (s : State) : (acceptSizeLo b s).sizeHi = s.sizeHi := rfl
@[simp] theorem acceptSizeLo_ckRx (b : Byte) (s : State) : (acceptSizeLo b s).ckRx = s.ckRx := rfl
@[simp] theorem acceptSizeLo_magicRx0 (b : Byte) (s : State) : (acceptSizeLo b s).magicRx0 = s.magicRx0 := rfl
@[simp] theorem acceptSizeLo_magicRx1 (b : Byte) (s : State) : (acceptSizeLo b s).magicRx1 = s.magicRx1 := rfl
@[simp] theorem acceptSizeLo_magicRx2 (b : Byte) (s : State) : (acceptSizeLo b s).magicRx2 = s.magicRx2 := rfl
@[simp] theorem acceptSizeLo_attempts (b : Byte) (s : State) : (acceptSizeLo b s).attempts = s.attempts := rfl
@[simp] theorem acceptSizeLo_upkIdx (b : Byte) (s : State) : (acceptSizeLo b s).upkIdx = s.upkIdx := rfl
@[simp] theorem acceptSizeLo_payload (b : Byte) (s : State) : (acceptSizeLo b s).payload = s.payload := rfl
@[simp] theorem acceptSizeLo_samples (b : Byte) (s : State) : (acceptSizeLo b s).samples = s.samples := rfl
@[simp] theorem acceptSizeLo_payloadCap (b : Byte) (s : State) : (acceptSizeLo b s).payloadCap = s.payloadCap := rfl
@[simp] theorem acceptSizeLo_drawNo (b : Byte) (s : State) : (acceptSizeLo b s).drawNo = s.drawNo := rfl
@[simp] theorem acceptSizeLo_host (b : Byte) (s : State) : (acceptSizeLo b s).host = s.host := rfl
@[simp] theorem acceptSizeLo_line (b : Byte) (s : State) : (acceptSizeLo b s).line = s.line := rfl
@[simp] theorem acceptSizeLo_hostData (b : Byte) (s : State) : (acceptSizeLo b s).hostData = s.hostData := rfl
@[simp] theorem acceptSizeLo_moves (b : Byte) (s : State) : (acceptSizeLo b s).moves = s.moves := rfl
@[simp] theorem acceptSizeLo_moveNo (b : Byte) (s : State) : (acceptSizeLo b s).moveNo = s.moveNo := rfl

/-! ### acceptSizeHi -/

@[simp] theorem acceptSizeHi_state (b : Byte) (s : State) : (acceptSizeHi b s).state = s.state := rfl
@[simp] theorem acceptSizeHi_result (b : Byte) (s : State) : (acceptSizeHi b s).result = s.result := rfl
@[simp] theorem acceptSizeHi_payloadValid (b : Byte) (s : State) :
    (acceptSizeHi b s).payloadValid = s.payloadValid := rfl
@[simp] theorem acceptSizeHi_samplesValid (b : Byte) (s : State) :
    (acceptSizeHi b s).samplesValid = s.samplesValid := rfl
@[simp] theorem acceptSizeHi_cmdReject (b : Byte) (s : State) : (acceptSizeHi b s).cmdReject = s.cmdReject := rfl
@[simp] theorem acceptSizeHi_errMagic (b : Byte) (s : State) : (acceptSizeHi b s).errMagic = s.errMagic := rfl
@[simp] theorem acceptSizeHi_errSize (b : Byte) (s : State) :
    (acceptSizeHi b s).errSize = errSizeAfter s.errSize s.sizeLo b s.expected := rfl
@[simp] theorem acceptSizeHi_errCksum (b : Byte) (s : State) : (acceptSizeHi b s).errCksum = s.errCksum := rfl
@[simp] theorem acceptSizeHi_cancel (b : Byte) (s : State) : (acceptSizeHi b s).cancel = s.cancel := rfl
@[simp] theorem acceptSizeHi_expected (b : Byte) (s : State) : (acceptSizeHi b s).expected = s.expected := rfl
@[simp] theorem acceptSizeHi_pos (b : Byte) (s : State) : (acceptSizeHi b s).pos = s.pos := rfl
@[simp] theorem acceptSizeHi_acc (b : Byte) (s : State) : (acceptSizeHi b s).acc = s.acc ^^^ b := rfl
@[simp] theorem acceptSizeHi_sizeLo (b : Byte) (s : State) : (acceptSizeHi b s).sizeLo = s.sizeLo := rfl
@[simp] theorem acceptSizeHi_sizeHi (b : Byte) (s : State) : (acceptSizeHi b s).sizeHi = b := rfl
@[simp] theorem acceptSizeHi_ckRx (b : Byte) (s : State) : (acceptSizeHi b s).ckRx = s.ckRx := rfl
@[simp] theorem acceptSizeHi_magicRx0 (b : Byte) (s : State) : (acceptSizeHi b s).magicRx0 = s.magicRx0 := rfl
@[simp] theorem acceptSizeHi_magicRx1 (b : Byte) (s : State) : (acceptSizeHi b s).magicRx1 = s.magicRx1 := rfl
@[simp] theorem acceptSizeHi_magicRx2 (b : Byte) (s : State) : (acceptSizeHi b s).magicRx2 = s.magicRx2 := rfl
@[simp] theorem acceptSizeHi_attempts (b : Byte) (s : State) : (acceptSizeHi b s).attempts = s.attempts := rfl
@[simp] theorem acceptSizeHi_upkIdx (b : Byte) (s : State) : (acceptSizeHi b s).upkIdx = s.upkIdx := rfl
@[simp] theorem acceptSizeHi_payload (b : Byte) (s : State) : (acceptSizeHi b s).payload = s.payload := rfl
@[simp] theorem acceptSizeHi_samples (b : Byte) (s : State) : (acceptSizeHi b s).samples = s.samples := rfl
@[simp] theorem acceptSizeHi_payloadCap (b : Byte) (s : State) : (acceptSizeHi b s).payloadCap = s.payloadCap := rfl
@[simp] theorem acceptSizeHi_drawNo (b : Byte) (s : State) : (acceptSizeHi b s).drawNo = s.drawNo := rfl
@[simp] theorem acceptSizeHi_host (b : Byte) (s : State) : (acceptSizeHi b s).host = s.host := rfl
@[simp] theorem acceptSizeHi_line (b : Byte) (s : State) : (acceptSizeHi b s).line = s.line := rfl
@[simp] theorem acceptSizeHi_hostData (b : Byte) (s : State) : (acceptSizeHi b s).hostData = s.hostData := rfl
@[simp] theorem acceptSizeHi_moves (b : Byte) (s : State) : (acceptSizeHi b s).moves = s.moves := rfl
@[simp] theorem acceptSizeHi_moveNo (b : Byte) (s : State) : (acceptSizeHi b s).moveNo = s.moveNo := rfl

/-! ### acceptPayload -/

@[simp] theorem acceptPayload_state (i : Nat) (b : Byte) (s : State) : (acceptPayload i b s).state = s.state := rfl
@[simp] theorem acceptPayload_result (i : Nat) (b : Byte) (s : State) : (acceptPayload i b s).result = s.result := rfl
@[simp] theorem acceptPayload_payloadValid (i : Nat) (b : Byte) (s : State) :
    (acceptPayload i b s).payloadValid = s.payloadValid := rfl
@[simp] theorem acceptPayload_samplesValid (i : Nat) (b : Byte) (s : State) :
    (acceptPayload i b s).samplesValid = s.samplesValid := rfl
@[simp] theorem acceptPayload_cmdReject (i : Nat) (b : Byte) (s : State) :
    (acceptPayload i b s).cmdReject = s.cmdReject := rfl
@[simp] theorem acceptPayload_errMagic (i : Nat) (b : Byte) (s : State) :
    (acceptPayload i b s).errMagic = s.errMagic := rfl
@[simp] theorem acceptPayload_errSize (i : Nat) (b : Byte) (s : State) :
    (acceptPayload i b s).errSize = s.errSize := rfl
@[simp] theorem acceptPayload_errCksum (i : Nat) (b : Byte) (s : State) :
    (acceptPayload i b s).errCksum = s.errCksum := rfl
@[simp] theorem acceptPayload_cancel (i : Nat) (b : Byte) (s : State) : (acceptPayload i b s).cancel = s.cancel := rfl
@[simp] theorem acceptPayload_expected (i : Nat) (b : Byte) (s : State) :
    (acceptPayload i b s).expected = s.expected := rfl
@[simp] theorem acceptPayload_pos (i : Nat) (b : Byte) (s : State) : (acceptPayload i b s).pos = s.pos := rfl
@[simp] theorem acceptPayload_acc (i : Nat) (b : Byte) (s : State) : (acceptPayload i b s).acc = s.acc ^^^ b := rfl
@[simp] theorem acceptPayload_sizeLo (i : Nat) (b : Byte) (s : State) : (acceptPayload i b s).sizeLo = s.sizeLo := rfl
@[simp] theorem acceptPayload_sizeHi (i : Nat) (b : Byte) (s : State) : (acceptPayload i b s).sizeHi = s.sizeHi := rfl
@[simp] theorem acceptPayload_ckRx (i : Nat) (b : Byte) (s : State) : (acceptPayload i b s).ckRx = s.ckRx := rfl
@[simp] theorem acceptPayload_magicRx0 (i : Nat) (b : Byte) (s : State) :
    (acceptPayload i b s).magicRx0 = s.magicRx0 := rfl
@[simp] theorem acceptPayload_magicRx1 (i : Nat) (b : Byte) (s : State) :
    (acceptPayload i b s).magicRx1 = s.magicRx1 := rfl
@[simp] theorem acceptPayload_magicRx2 (i : Nat) (b : Byte) (s : State) :
    (acceptPayload i b s).magicRx2 = s.magicRx2 := rfl
@[simp] theorem acceptPayload_attempts (i : Nat) (b : Byte) (s : State) :
    (acceptPayload i b s).attempts = s.attempts := rfl
@[simp] theorem acceptPayload_upkIdx (i : Nat) (b : Byte) (s : State) : (acceptPayload i b s).upkIdx = s.upkIdx := rfl
@[simp] theorem acceptPayload_payload (i : Nat) (b : Byte) (s : State) :
    (acceptPayload i b s).payload = Memory.put s.payload i b := rfl
@[simp] theorem acceptPayload_samples (i : Nat) (b : Byte) (s : State) :
    (acceptPayload i b s).samples = s.samples := rfl
@[simp] theorem acceptPayload_payloadCap (i : Nat) (b : Byte) (s : State) :
    (acceptPayload i b s).payloadCap = s.payloadCap := rfl
@[simp] theorem acceptPayload_drawNo (i : Nat) (b : Byte) (s : State) : (acceptPayload i b s).drawNo = s.drawNo := rfl
@[simp] theorem acceptPayload_host (i : Nat) (b : Byte) (s : State) : (acceptPayload i b s).host = s.host := rfl
@[simp] theorem acceptPayload_line (i : Nat) (b : Byte) (s : State) : (acceptPayload i b s).line = s.line := rfl
@[simp] theorem acceptPayload_hostData (i : Nat) (b : Byte) (s : State) :
    (acceptPayload i b s).hostData = s.hostData := rfl
@[simp] theorem acceptPayload_moves (i : Nat) (b : Byte) (s : State) : (acceptPayload i b s).moves = s.moves := rfl
@[simp] theorem acceptPayload_moveNo (i : Nat) (b : Byte) (s : State) : (acceptPayload i b s).moveNo = s.moveNo := rfl

/-! ### acceptChecksum -/

@[simp] theorem acceptChecksum_state (b : Byte) (s : State) : (acceptChecksum b s).state = s.state := rfl
@[simp] theorem acceptChecksum_result (b : Byte) (s : State) : (acceptChecksum b s).result = s.result := rfl
@[simp] theorem acceptChecksum_payloadValid (b : Byte) (s : State) :
    (acceptChecksum b s).payloadValid = s.payloadValid := rfl
@[simp] theorem acceptChecksum_samplesValid (b : Byte) (s : State) :
    (acceptChecksum b s).samplesValid = s.samplesValid := rfl
@[simp] theorem acceptChecksum_cmdReject (b : Byte) (s : State) : (acceptChecksum b s).cmdReject = s.cmdReject := rfl
@[simp] theorem acceptChecksum_errMagic (b : Byte) (s : State) : (acceptChecksum b s).errMagic = s.errMagic := rfl
@[simp] theorem acceptChecksum_errSize (b : Byte) (s : State) : (acceptChecksum b s).errSize = s.errSize := rfl
@[simp] theorem acceptChecksum_errCksum (b : Byte) (s : State) :
    (acceptChecksum b s).errCksum = errCksumAt s.acc b := rfl
@[simp] theorem acceptChecksum_cancel (b : Byte) (s : State) : (acceptChecksum b s).cancel = s.cancel := rfl
@[simp] theorem acceptChecksum_expected (b : Byte) (s : State) : (acceptChecksum b s).expected = s.expected := rfl
@[simp] theorem acceptChecksum_pos (b : Byte) (s : State) : (acceptChecksum b s).pos = s.pos := rfl
@[simp] theorem acceptChecksum_acc (b : Byte) (s : State) : (acceptChecksum b s).acc = s.acc := rfl
@[simp] theorem acceptChecksum_sizeLo (b : Byte) (s : State) : (acceptChecksum b s).sizeLo = s.sizeLo := rfl
@[simp] theorem acceptChecksum_sizeHi (b : Byte) (s : State) : (acceptChecksum b s).sizeHi = s.sizeHi := rfl
@[simp] theorem acceptChecksum_ckRx (b : Byte) (s : State) : (acceptChecksum b s).ckRx = b := rfl
@[simp] theorem acceptChecksum_magicRx0 (b : Byte) (s : State) : (acceptChecksum b s).magicRx0 = s.magicRx0 := rfl
@[simp] theorem acceptChecksum_magicRx1 (b : Byte) (s : State) : (acceptChecksum b s).magicRx1 = s.magicRx1 := rfl
@[simp] theorem acceptChecksum_magicRx2 (b : Byte) (s : State) : (acceptChecksum b s).magicRx2 = s.magicRx2 := rfl
@[simp] theorem acceptChecksum_attempts (b : Byte) (s : State) : (acceptChecksum b s).attempts = s.attempts := rfl
@[simp] theorem acceptChecksum_upkIdx (b : Byte) (s : State) : (acceptChecksum b s).upkIdx = s.upkIdx := rfl
@[simp] theorem acceptChecksum_payload (b : Byte) (s : State) : (acceptChecksum b s).payload = s.payload := rfl
@[simp] theorem acceptChecksum_samples (b : Byte) (s : State) : (acceptChecksum b s).samples = s.samples := rfl
@[simp] theorem acceptChecksum_payloadCap (b : Byte) (s : State) :
    (acceptChecksum b s).payloadCap = s.payloadCap := rfl
@[simp] theorem acceptChecksum_drawNo (b : Byte) (s : State) : (acceptChecksum b s).drawNo = s.drawNo := rfl
@[simp] theorem acceptChecksum_host (b : Byte) (s : State) : (acceptChecksum b s).host = s.host := rfl
@[simp] theorem acceptChecksum_line (b : Byte) (s : State) : (acceptChecksum b s).line = s.line := rfl
@[simp] theorem acceptChecksum_hostData (b : Byte) (s : State) : (acceptChecksum b s).hostData = s.hostData := rfl
@[simp] theorem acceptChecksum_moves (b : Byte) (s : State) : (acceptChecksum b s).moves = s.moves := rfl
@[simp] theorem acceptChecksum_moveNo (b : Byte) (s : State) : (acceptChecksum b s).moveNo = s.moveNo := rfl

/-! ### advance -/

@[simp] theorem advance_state (s : State) : (advance s).state = s.state := rfl
@[simp] theorem advance_result (s : State) : (advance s).result = s.result := rfl
@[simp] theorem advance_payloadValid (s : State) : (advance s).payloadValid = s.payloadValid := rfl
@[simp] theorem advance_samplesValid (s : State) : (advance s).samplesValid = s.samplesValid := rfl
@[simp] theorem advance_cmdReject (s : State) : (advance s).cmdReject = s.cmdReject := rfl
@[simp] theorem advance_errMagic (s : State) : (advance s).errMagic = s.errMagic := rfl
@[simp] theorem advance_errSize (s : State) : (advance s).errSize = s.errSize := rfl
@[simp] theorem advance_errCksum (s : State) : (advance s).errCksum = s.errCksum := rfl
@[simp] theorem advance_cancel (s : State) : (advance s).cancel = s.cancel := rfl
@[simp] theorem advance_expected (s : State) : (advance s).expected = s.expected := rfl
@[simp] theorem advance_pos (s : State) : (advance s).pos = s.pos + 1#17 := rfl
@[simp] theorem advance_acc (s : State) : (advance s).acc = s.acc := rfl
@[simp] theorem advance_sizeLo (s : State) : (advance s).sizeLo = s.sizeLo := rfl
@[simp] theorem advance_sizeHi (s : State) : (advance s).sizeHi = s.sizeHi := rfl
@[simp] theorem advance_ckRx (s : State) : (advance s).ckRx = s.ckRx := rfl
@[simp] theorem advance_magicRx0 (s : State) : (advance s).magicRx0 = s.magicRx0 := rfl
@[simp] theorem advance_magicRx1 (s : State) : (advance s).magicRx1 = s.magicRx1 := rfl
@[simp] theorem advance_magicRx2 (s : State) : (advance s).magicRx2 = s.magicRx2 := rfl
@[simp] theorem advance_attempts (s : State) : (advance s).attempts = s.attempts := rfl
@[simp] theorem advance_upkIdx (s : State) : (advance s).upkIdx = s.upkIdx := rfl
@[simp] theorem advance_payload (s : State) : (advance s).payload = s.payload := rfl
@[simp] theorem advance_samples (s : State) : (advance s).samples = s.samples := rfl
@[simp] theorem advance_payloadCap (s : State) : (advance s).payloadCap = s.payloadCap := rfl
@[simp] theorem advance_drawNo (s : State) : (advance s).drawNo = s.drawNo := rfl
@[simp] theorem advance_host (s : State) : (advance s).host = s.host := rfl
@[simp] theorem advance_line (s : State) : (advance s).line = s.line := rfl
@[simp] theorem advance_hostData (s : State) : (advance s).hostData = s.hostData := rfl
@[simp] theorem advance_moves (s : State) : (advance s).moves = s.moves := rfl
@[simp] theorem advance_moveNo (s : State) : (advance s).moveNo = s.moveNo := rfl

/-! ### completeRead -/

@[simp] theorem completeRead_state (s : State) : (completeRead s).state = .done := rfl
@[simp] theorem completeRead_result (s : State) :
    (completeRead s).result = readCode s.errMagic s.errSize s.errCksum := rfl
@[simp] theorem completeRead_payloadValid (s : State) :
    (completeRead s).payloadValid = (readCode s.errMagic s.errSize s.errCksum == .frameOk) := rfl
@[simp] theorem completeRead_samplesValid (s : State) : (completeRead s).samplesValid = s.samplesValid := rfl
@[simp] theorem completeRead_cmdReject (s : State) : (completeRead s).cmdReject = s.cmdReject := rfl
@[simp] theorem completeRead_errMagic (s : State) : (completeRead s).errMagic = s.errMagic := rfl
@[simp] theorem completeRead_errSize (s : State) : (completeRead s).errSize = s.errSize := rfl
@[simp] theorem completeRead_errCksum (s : State) : (completeRead s).errCksum = s.errCksum := rfl
@[simp] theorem completeRead_cancel (s : State) : (completeRead s).cancel = s.cancel := rfl
@[simp] theorem completeRead_expected (s : State) : (completeRead s).expected = s.expected := rfl
@[simp] theorem completeRead_pos (s : State) : (completeRead s).pos = s.pos := rfl
@[simp] theorem completeRead_acc (s : State) : (completeRead s).acc = s.acc := rfl
@[simp] theorem completeRead_sizeLo (s : State) : (completeRead s).sizeLo = s.sizeLo := rfl
@[simp] theorem completeRead_sizeHi (s : State) : (completeRead s).sizeHi = s.sizeHi := rfl
@[simp] theorem completeRead_ckRx (s : State) : (completeRead s).ckRx = s.ckRx := rfl
@[simp] theorem completeRead_magicRx0 (s : State) : (completeRead s).magicRx0 = s.magicRx0 := rfl
@[simp] theorem completeRead_magicRx1 (s : State) : (completeRead s).magicRx1 = s.magicRx1 := rfl
@[simp] theorem completeRead_magicRx2 (s : State) : (completeRead s).magicRx2 = s.magicRx2 := rfl
@[simp] theorem completeRead_attempts (s : State) : (completeRead s).attempts = s.attempts := rfl
@[simp] theorem completeRead_upkIdx (s : State) : (completeRead s).upkIdx = s.upkIdx := rfl
@[simp] theorem completeRead_payload (s : State) : (completeRead s).payload = s.payload := rfl
@[simp] theorem completeRead_samples (s : State) : (completeRead s).samples = s.samples := rfl
@[simp] theorem completeRead_payloadCap (s : State) : (completeRead s).payloadCap = s.payloadCap := rfl
@[simp] theorem completeRead_drawNo (s : State) : (completeRead s).drawNo = s.drawNo := rfl
@[simp] theorem completeRead_host (s : State) : (completeRead s).host = s.host := rfl
@[simp] theorem completeRead_line (s : State) : (completeRead s).line = s.line := rfl
@[simp] theorem completeRead_hostData (s : State) : (completeRead s).hostData = s.hostData := rfl
@[simp] theorem completeRead_moves (s : State) : (completeRead s).moves = s.moves := rfl
@[simp] theorem completeRead_moveNo (s : State) : (completeRead s).moveNo = s.moveNo := rfl

/-! ### completeUnpack -/

@[simp] theorem completeUnpack_state (s : State) : (completeUnpack s).state = .done := rfl
@[simp] theorem completeUnpack_result (s : State) : (completeUnpack s).result = .unpackOk := rfl
@[simp] theorem completeUnpack_payloadValid (s : State) : (completeUnpack s).payloadValid = s.payloadValid := rfl
@[simp] theorem completeUnpack_samplesValid (s : State) : (completeUnpack s).samplesValid = true := rfl
@[simp] theorem completeUnpack_cmdReject (s : State) : (completeUnpack s).cmdReject = s.cmdReject := rfl
@[simp] theorem completeUnpack_errMagic (s : State) : (completeUnpack s).errMagic = s.errMagic := rfl
@[simp] theorem completeUnpack_errSize (s : State) : (completeUnpack s).errSize = s.errSize := rfl
@[simp] theorem completeUnpack_errCksum (s : State) : (completeUnpack s).errCksum = s.errCksum := rfl
@[simp] theorem completeUnpack_cancel (s : State) : (completeUnpack s).cancel = s.cancel := rfl
@[simp] theorem completeUnpack_expected (s : State) : (completeUnpack s).expected = s.expected := rfl
@[simp] theorem completeUnpack_pos (s : State) : (completeUnpack s).pos = s.pos := rfl
@[simp] theorem completeUnpack_acc (s : State) : (completeUnpack s).acc = s.acc := rfl
@[simp] theorem completeUnpack_sizeLo (s : State) : (completeUnpack s).sizeLo = s.sizeLo := rfl
@[simp] theorem completeUnpack_sizeHi (s : State) : (completeUnpack s).sizeHi = s.sizeHi := rfl
@[simp] theorem completeUnpack_ckRx (s : State) : (completeUnpack s).ckRx = s.ckRx := rfl
@[simp] theorem completeUnpack_magicRx0 (s : State) : (completeUnpack s).magicRx0 = s.magicRx0 := rfl
@[simp] theorem completeUnpack_magicRx1 (s : State) : (completeUnpack s).magicRx1 = s.magicRx1 := rfl
@[simp] theorem completeUnpack_magicRx2 (s : State) : (completeUnpack s).magicRx2 = s.magicRx2 := rfl
@[simp] theorem completeUnpack_attempts (s : State) : (completeUnpack s).attempts = s.attempts := rfl
@[simp] theorem completeUnpack_upkIdx (s : State) : (completeUnpack s).upkIdx = s.upkIdx := rfl
@[simp] theorem completeUnpack_payload (s : State) : (completeUnpack s).payload = s.payload := rfl
@[simp] theorem completeUnpack_samples (s : State) : (completeUnpack s).samples = s.samples := rfl
@[simp] theorem completeUnpack_payloadCap (s : State) : (completeUnpack s).payloadCap = s.payloadCap := rfl
@[simp] theorem completeUnpack_drawNo (s : State) : (completeUnpack s).drawNo = s.drawNo := rfl
@[simp] theorem completeUnpack_host (s : State) : (completeUnpack s).host = s.host := rfl
@[simp] theorem completeUnpack_line (s : State) : (completeUnpack s).line = s.line := rfl
@[simp] theorem completeUnpack_hostData (s : State) : (completeUnpack s).hostData = s.hostData := rfl
@[simp] theorem completeUnpack_moves (s : State) : (completeUnpack s).moves = s.moves := rfl
@[simp] theorem completeUnpack_moveNo (s : State) : (completeUnpack s).moveNo = s.moveNo := rfl

/-! ### unpackTriplet -/

@[simp] theorem unpackTriplet_state (k : Nat) (s : State) : (unpackTriplet k s).state = s.state := rfl
@[simp] theorem unpackTriplet_result (k : Nat) (s : State) : (unpackTriplet k s).result = s.result := rfl
@[simp] theorem unpackTriplet_payloadValid (k : Nat) (s : State) :
    (unpackTriplet k s).payloadValid = s.payloadValid := rfl
@[simp] theorem unpackTriplet_samplesValid (k : Nat) (s : State) :
    (unpackTriplet k s).samplesValid = s.samplesValid := rfl
@[simp] theorem unpackTriplet_cmdReject (k : Nat) (s : State) : (unpackTriplet k s).cmdReject = s.cmdReject := rfl
@[simp] theorem unpackTriplet_errMagic (k : Nat) (s : State) : (unpackTriplet k s).errMagic = s.errMagic := rfl
@[simp] theorem unpackTriplet_errSize (k : Nat) (s : State) : (unpackTriplet k s).errSize = s.errSize := rfl
@[simp] theorem unpackTriplet_errCksum (k : Nat) (s : State) : (unpackTriplet k s).errCksum = s.errCksum := rfl
@[simp] theorem unpackTriplet_cancel (k : Nat) (s : State) : (unpackTriplet k s).cancel = s.cancel := rfl
@[simp] theorem unpackTriplet_expected (k : Nat) (s : State) : (unpackTriplet k s).expected = s.expected := rfl
@[simp] theorem unpackTriplet_pos (k : Nat) (s : State) : (unpackTriplet k s).pos = s.pos := rfl
@[simp] theorem unpackTriplet_acc (k : Nat) (s : State) : (unpackTriplet k s).acc = s.acc := rfl
@[simp] theorem unpackTriplet_sizeLo (k : Nat) (s : State) : (unpackTriplet k s).sizeLo = s.sizeLo := rfl
@[simp] theorem unpackTriplet_sizeHi (k : Nat) (s : State) : (unpackTriplet k s).sizeHi = s.sizeHi := rfl
@[simp] theorem unpackTriplet_ckRx (k : Nat) (s : State) : (unpackTriplet k s).ckRx = s.ckRx := rfl
@[simp] theorem unpackTriplet_magicRx0 (k : Nat) (s : State) : (unpackTriplet k s).magicRx0 = s.magicRx0 := rfl
@[simp] theorem unpackTriplet_magicRx1 (k : Nat) (s : State) : (unpackTriplet k s).magicRx1 = s.magicRx1 := rfl
@[simp] theorem unpackTriplet_magicRx2 (k : Nat) (s : State) : (unpackTriplet k s).magicRx2 = s.magicRx2 := rfl
@[simp] theorem unpackTriplet_attempts (k : Nat) (s : State) : (unpackTriplet k s).attempts = s.attempts := rfl
@[simp] theorem unpackTriplet_upkIdx (k : Nat) (s : State) : (unpackTriplet k s).upkIdx = s.upkIdx + 1#16 := rfl
@[simp] theorem unpackTriplet_payload (k : Nat) (s : State) : (unpackTriplet k s).payload = s.payload := rfl
@[simp] theorem unpackTriplet_samples (k : Nat) (s : State) :
    (unpackTriplet k s).samples = Memory.put (Memory.put s.samples (2 * k) (pairEven (readPayload s (3 * k)) (readPayload s (3 * k + 1))))
      (2 * k + 1) (pairOdd (readPayload s (3 * k + 1)) (readPayload s (3 * k + 2))) := rfl
@[simp] theorem unpackTriplet_payloadCap (k : Nat) (s : State) : (unpackTriplet k s).payloadCap = s.payloadCap := rfl
@[simp] theorem unpackTriplet_drawNo (k : Nat) (s : State) : (unpackTriplet k s).drawNo = s.drawNo := rfl
@[simp] theorem unpackTriplet_host (k : Nat) (s : State) : (unpackTriplet k s).host = s.host := rfl
@[simp] theorem unpackTriplet_line (k : Nat) (s : State) : (unpackTriplet k s).line = s.line := rfl
@[simp] theorem unpackTriplet_hostData (k : Nat) (s : State) : (unpackTriplet k s).hostData = s.hostData := rfl
@[simp] theorem unpackTriplet_moves (k : Nat) (s : State) : (unpackTriplet k s).moves = s.moves := rfl
@[simp] theorem unpackTriplet_moveNo (k : Nat) (s : State) : (unpackTriplet k s).moveNo = s.moveNo := rfl

/-! ### takeMove -/

@[simp] theorem takeMove_state (s : State) : (takeMove s).state = s.state := rfl
@[simp] theorem takeMove_result (s : State) : (takeMove s).result = s.result := rfl
@[simp] theorem takeMove_payloadValid (s : State) : (takeMove s).payloadValid = s.payloadValid := rfl
@[simp] theorem takeMove_samplesValid (s : State) : (takeMove s).samplesValid = s.samplesValid := rfl
@[simp] theorem takeMove_cmdReject (s : State) : (takeMove s).cmdReject = s.cmdReject := rfl
@[simp] theorem takeMove_errMagic (s : State) : (takeMove s).errMagic = s.errMagic := rfl
@[simp] theorem takeMove_errSize (s : State) : (takeMove s).errSize = s.errSize := rfl
@[simp] theorem takeMove_errCksum (s : State) : (takeMove s).errCksum = s.errCksum := rfl
@[simp] theorem takeMove_cancel (s : State) : (takeMove s).cancel = s.cancel := rfl
@[simp] theorem takeMove_expected (s : State) : (takeMove s).expected = s.expected := rfl
@[simp] theorem takeMove_pos (s : State) : (takeMove s).pos = s.pos := rfl
@[simp] theorem takeMove_acc (s : State) : (takeMove s).acc = s.acc := rfl
@[simp] theorem takeMove_sizeLo (s : State) : (takeMove s).sizeLo = s.sizeLo := rfl
@[simp] theorem takeMove_sizeHi (s : State) : (takeMove s).sizeHi = s.sizeHi := rfl
@[simp] theorem takeMove_ckRx (s : State) : (takeMove s).ckRx = s.ckRx := rfl
@[simp] theorem takeMove_magicRx0 (s : State) : (takeMove s).magicRx0 = s.magicRx0 := rfl
@[simp] theorem takeMove_magicRx1 (s : State) : (takeMove s).magicRx1 = s.magicRx1 := rfl
@[simp] theorem takeMove_magicRx2 (s : State) : (takeMove s).magicRx2 = s.magicRx2 := rfl
@[simp] theorem takeMove_attempts (s : State) : (takeMove s).attempts = s.attempts := rfl
@[simp] theorem takeMove_upkIdx (s : State) : (takeMove s).upkIdx = s.upkIdx := rfl
@[simp] theorem takeMove_payload (s : State) : (takeMove s).payload = s.payload := rfl
@[simp] theorem takeMove_samples (s : State) : (takeMove s).samples = s.samples := rfl
@[simp] theorem takeMove_payloadCap (s : State) : (takeMove s).payloadCap = s.payloadCap := rfl
@[simp] theorem takeMove_drawNo (s : State) : (takeMove s).drawNo = s.drawNo := rfl
@[simp] theorem takeMove_host (s : State) : (takeMove s).host = s.host := rfl
@[simp] theorem takeMove_line (s : State) : (takeMove s).line = s.line := rfl
@[simp] theorem takeMove_hostData (s : State) : (takeMove s).hostData = s.hostData := rfl
@[simp] theorem takeMove_moves (s : State) : (takeMove s).moves = s.moves.tail := rfl
@[simp] theorem takeMove_moveNo (s : State) : (takeMove s).moveNo = s.moveNo + 1 := rfl

/-! ### resetBlock -/

@[simp] theorem resetBlock_state (s : State) : (resetBlock s).state = State.reset.state := rfl
@[simp] theorem resetBlock_result (s : State) : (resetBlock s).result = State.reset.result := rfl
@[simp] theorem resetBlock_payloadValid (s : State) : (resetBlock s).payloadValid = State.reset.payloadValid := rfl
@[simp] theorem resetBlock_samplesValid (s : State) : (resetBlock s).samplesValid = State.reset.samplesValid := rfl
@[simp] theorem resetBlock_cmdReject (s : State) : (resetBlock s).cmdReject = State.reset.cmdReject := rfl
@[simp] theorem resetBlock_errMagic (s : State) : (resetBlock s).errMagic = State.reset.errMagic := rfl
@[simp] theorem resetBlock_errSize (s : State) : (resetBlock s).errSize = State.reset.errSize := rfl
@[simp] theorem resetBlock_errCksum (s : State) : (resetBlock s).errCksum = State.reset.errCksum := rfl
@[simp] theorem resetBlock_cancel (s : State) : (resetBlock s).cancel = State.reset.cancel := rfl
@[simp] theorem resetBlock_expected (s : State) : (resetBlock s).expected = State.reset.expected := rfl
@[simp] theorem resetBlock_pos (s : State) : (resetBlock s).pos = State.reset.pos := rfl
@[simp] theorem resetBlock_acc (s : State) : (resetBlock s).acc = State.reset.acc := rfl
@[simp] theorem resetBlock_sizeLo (s : State) : (resetBlock s).sizeLo = State.reset.sizeLo := rfl
@[simp] theorem resetBlock_sizeHi (s : State) : (resetBlock s).sizeHi = State.reset.sizeHi := rfl
@[simp] theorem resetBlock_ckRx (s : State) : (resetBlock s).ckRx = State.reset.ckRx := rfl
@[simp] theorem resetBlock_magicRx0 (s : State) : (resetBlock s).magicRx0 = State.reset.magicRx0 := rfl
@[simp] theorem resetBlock_magicRx1 (s : State) : (resetBlock s).magicRx1 = State.reset.magicRx1 := rfl
@[simp] theorem resetBlock_magicRx2 (s : State) : (resetBlock s).magicRx2 = State.reset.magicRx2 := rfl
@[simp] theorem resetBlock_attempts (s : State) : (resetBlock s).attempts = State.reset.attempts := rfl
@[simp] theorem resetBlock_upkIdx (s : State) : (resetBlock s).upkIdx = State.reset.upkIdx := rfl
@[simp] theorem resetBlock_payload (s : State) : (resetBlock s).payload = State.reset.payload := rfl
@[simp] theorem resetBlock_samples (s : State) : (resetBlock s).samples = State.reset.samples := rfl
@[simp] theorem resetBlock_payloadCap (s : State) : (resetBlock s).payloadCap = s.payloadCap := rfl
@[simp] theorem resetBlock_drawNo (s : State) : (resetBlock s).drawNo = s.drawNo + 1 := rfl
@[simp] theorem resetBlock_host (s : State) : (resetBlock s).host = s.host := rfl
@[simp] theorem resetBlock_line (s : State) : (resetBlock s).line = s.line := rfl
@[simp] theorem resetBlock_hostData (s : State) : (resetBlock s).hostData = s.hostData := rfl
@[simp] theorem resetBlock_moves (s : State) : (resetBlock s).moves = s.moves := rfl
@[simp] theorem resetBlock_moveNo (s : State) : (resetBlock s).moveNo = s.moveNo := rfl

end Sys2Proof.Machine
end

