-- ==== Sys2Proof/Laws/Memory.lean ====
section
/-! SUPPORT. The laws of the two stores: a read after a write, the canonical form, the bound on the indices; and the same of
`readPayload` and `readSample` after every named update. -/

namespace Sys2Proof.Machine

variable {α : Type}

@[simp] theorem Memory.get_nil (a : Nat) : Memory.get ([] : Memory α) a = none := rfl

theorem Memory.get_put_same (m : Memory α) (a : Nat) (v : α) : Memory.get (Memory.put m a v) a = some v := by
  induction m with
  | nil => simp [Memory.put, Memory.get]
  | cons c m ih =>
    obtain ⟨k, w⟩ := c
    simp only [Memory.put]
    split
    · simp [Memory.get]
    · split
      · simp [Memory.get]
      · next _ hne => simp [Memory.get, hne, ih]

theorem Memory.get_put_other (m : Memory α) {a a' : Nat} (v : α) (h : a' ≠ a) :
    Memory.get (Memory.put m a v) a' = Memory.get m a' := by
  induction m with
  | nil => simp [Memory.put, Memory.get, h]
  | cons c m ih =>
    obtain ⟨k, w⟩ := c
    simp only [Memory.put]
    split
    · simp [Memory.get, h]
    · split
      · next _ he => subst he; simp [Memory.get, h]
      · simp only [Memory.get, ih]

theorem Memory.get_put (m : Memory α) (a a' : Nat) (v : α) :
    Memory.get (Memory.put m a v) a' = if a' = a then some v else Memory.get m a' := by
  split
  · next h => subst h; exact Memory.get_put_same m a' v
  · next h => exact Memory.get_put_other m v h

/-- The indices after a write: those before it, and the one written. -/
theorem Memory.mem_put {m : Memory α} {a : Nat} {v : α} {c : Nat × α} (h : c ∈ Memory.put m a v) :
    c = (a, v) ∨ c ∈ m := by
  induction m with
  | nil => simpa [Memory.put] using h
  | cons d m ih =>
    obtain ⟨k, w⟩ := d
    simp only [Memory.put] at h
    split at h
    · simpa using h
    · split at h
      · rcases List.mem_cons.mp h with h | h
        · exact .inl h
        · exact .inr (List.mem_cons_of_mem _ h)
      · rcases List.mem_cons.mp h with h | h
        · exact .inr (by simp [h])
        · rcases ih h with h | h
          · exact .inl h
          · exact .inr (List.mem_cons_of_mem _ h)

/-- Every index listed is below the bound. -/
theorem Memory.below_iff (m : Memory α) (n : Nat) : Memory.below m n = true ↔ ∀ c ∈ m, c.1 < n := by
  simp [Memory.below]

theorem Memory.wf_iff (m : Memory α) : Memory.wf m = true ↔ (m.map Prod.fst).Pairwise (· < ·) := by
  simp [Memory.wf]

theorem Memory.put_below {m : Memory α} {n a : Nat} {v : α} (h : Memory.below m n = true) (ha : a < n) :
    Memory.below (Memory.put m a v) n = true := by
  rw [Memory.below_iff] at h ⊢
  intro c hc
  rcases Memory.mem_put hc with rfl | hc
  · exact ha
  · exact h c hc

/-- A write keeps the canonical form. -/
theorem Memory.put_wf {m : Memory α} (a : Nat) (v : α) (h : Memory.wf m = true) :
    Memory.wf (Memory.put m a v) = true := by
  rw [Memory.wf_iff] at h ⊢
  induction m with
  | nil => simp [Memory.put]
  | cons c m ih =>
    obtain ⟨k, w⟩ := c
    simp only [List.map_cons, List.pairwise_cons] at h
    have hm := ih h.2
    simp only [Memory.put]
    split
    · next hlt =>
      simp only [List.map_cons, List.pairwise_cons]
      refine ⟨?_, h⟩
      intro b hb
      rcases List.mem_cons.mp hb with rfl | hb
      · exact hlt
      · exact Nat.lt_trans hlt (h.1 b hb)
    · split
      · next _ he => subst he; simpa using h
      · next hge hne =>
        simp only [List.map_cons, List.pairwise_cons]
        refine ⟨?_, hm⟩
        intro b hb
        obtain ⟨c, hc, rfl⟩ := List.mem_map.mp hb
        rcases Memory.mem_put hc with rfl | hc
        · show k < a
          omega
        · exact h.1 _ (List.mem_map_of_mem hc)

theorem reset_payload_wf : Memory.wf State.reset.payload = true := rfl

theorem reset_samples_wf : Memory.wf State.reset.samples = true := rfl

/-! ### Entries of `P` and `S` -/

/-- `P[i]` depends on the buffer and the draw alone. -/
theorem readPayload_congr {s t : State} (hp : t.payload = s.payload) (hd : t.drawNo = s.drawNo) (i : Nat) :
    readPayload t i = readPayload s i := by
  simp [readPayload, hp, hd]

/-- `S[j]` depends on the store and the draw alone. -/
theorem readSample_congr {s t : State} (hs : t.samples = s.samples) (hd : t.drawNo = s.drawNo) (j : Nat) :
    readSample t j = readSample s j := by
  simp [readSample, hs, hd]

theorem payloadPrefix_congr {s t : State} (hp : t.payload = s.payload) (hd : t.drawNo = s.drawNo) (n : Nat) :
    payloadPrefix t n = payloadPrefix s n := by
  simp [payloadPrefix, funext (readPayload_congr hp hd)]

/-! ### Updates that leave the stores alone -/

@[simp] theorem readPayload_finish (code : Result) (s : State) (a : Nat) :
    readPayload (finish code s) a = readPayload s a := rfl
@[simp] theorem payloadPrefix_finish (code : Result) (s : State) (m : Nat) :
    payloadPrefix (finish code s) m = payloadPrefix s m := rfl
@[simp] theorem readPayload_reject (s : State) (a : Nat) :
    readPayload (reject s) a = readPayload s a := rfl
@[simp] theorem payloadPrefix_reject (s : State) (m : Nat) :
    payloadPrefix (reject s) m = payloadPrefix s m := rfl
@[simp] theorem readPayload_attemptReset (s : State) (a : Nat) :
    readPayload (attemptReset s) a = readPayload s a := rfl
@[simp] theorem payloadPrefix_attemptReset (s : State) (m : Nat) :
    payloadPrefix (attemptReset s) m = payloadPrefix s m := rfl
@[simp] theorem readPayload_startRead (e : BitVec 16) (s : State) (a : Nat) :
    readPayload (startRead e s) a = readPayload s a := rfl
@[simp] theorem payloadPrefix_startRead (e : BitVec 16) (s : State) (m : Nat) :
    payloadPrefix (startRead e s) m = payloadPrefix s m := rfl
@[simp] theorem readPayload_startUnpack (s : State) (a : Nat) :
    readPayload (startUnpack s) a = readPayload s a := rfl
@[simp] theorem payloadPrefix_startUnpack (s : State) (m : Nat) :
    payloadPrefix (startUnpack s) m = payloadPrefix s m := rfl
@[simp] theorem readPayload_acknowledge (s : State) (a : Nat) :
    readPayload (acknowledge s) a = readPayload s a := rfl
@[simp] theorem payloadPrefix_acknowledge (s : State) (m : Nat) :
    payloadPrefix (acknowledge s) m = payloadPrefix s m := rfl
@[simp] theorem readPayload_retryAttempt (s : State) (a : Nat) :
    readPayload (retryAttempt s) a = readPayload s a := rfl
@[simp] theorem payloadPrefix_retryAttempt (s : State) (m : Nat) :
    payloadPrefix (retryAttempt s) m = payloadPrefix s m := rfl
@[simp] theorem readPayload_acceptHeader (p : Nat) (b : Byte) (s : State) (a : Nat) :
    readPayload (acceptHeader p b s) a = readPayload s a := rfl
@[simp] theorem payloadPrefix_acceptHeader (p : Nat) (b : Byte) (s : State) (m : Nat) :
    payloadPrefix (acceptHeader p b s) m = payloadPrefix s m := rfl
@[simp] theorem readPayload_acceptSizeLo (b : Byte) (s : State) (a : Nat) :
    readPayload (acceptSizeLo b s) a = readPayload s a := rfl
@[simp] theorem payloadPrefix_acceptSizeLo (b : Byte) (s : State) (m : Nat) :
    payloadPrefix (acceptSizeLo b s) m = payloadPrefix s m := rfl
@[simp] theorem readPayload_acceptSizeHi (b : Byte) (s : State) (a : Nat) :
    readPayload (acceptSizeHi b s) a = readPayload s a := rfl
@[simp] theorem payloadPrefix_acceptSizeHi (b : Byte) (s : State) (m : Nat) :
    payloadPrefix (acceptSizeHi b s) m = payloadPrefix s m := rfl
@[simp] theorem readPayload_acceptChecksum (b : Byte) (s : State) (a : Nat) :
    readPayload (acceptChecksum b s) a = readPayload s a := rfl
@[simp] theorem payloadPrefix_acceptChecksum (b : Byte) (s : State) (m : Nat) :
    payloadPrefix (acceptChecksum b s) m = payloadPrefix s m := rfl
@[simp] theorem readPayload_advance (s : State) (a : Nat) :
    readPayload (advance s) a = readPayload s a := rfl
@[simp] theorem payloadPrefix_advance (s : State) (m : Nat) :
    payloadPrefix (advance s) m = payloadPrefix s m := rfl
@[simp] theorem readPayload_completeRead (s : State) (a : Nat) :
    readPayload (completeRead s) a = readPayload s a := rfl
@[simp] theorem payloadPrefix_completeRead (s : State) (m : Nat) :
    payloadPrefix (completeRead s) m = payloadPrefix s m := rfl
@[simp] theorem readPayload_completeUnpack (s : State) (a : Nat) :
    readPayload (completeUnpack s) a = readPayload s a := rfl
@[simp] theorem payloadPrefix_completeUnpack (s : State) (m : Nat) :
    payloadPrefix (completeUnpack s) m = payloadPrefix s m := rfl
@[simp] theorem readPayload_takeMove (s : State) (a : Nat) :
    readPayload (takeMove s) a = readPayload s a := rfl
@[simp] theorem payloadPrefix_takeMove (s : State) (m : Nat) :
    payloadPrefix (takeMove s) m = payloadPrefix s m := rfl
@[simp] theorem readPayload_unpackTriplet (k : Nat) (s : State) (a : Nat) :
    readPayload (unpackTriplet k s) a = readPayload s a := rfl
@[simp] theorem payloadPrefix_unpackTriplet (k : Nat) (s : State) (m : Nat) :
    payloadPrefix (unpackTriplet k s) m = payloadPrefix s m := rfl
@[simp] theorem readSample_finish (code : Result) (s : State) (j : Nat) :
    readSample (finish code s) j = readSample s j := rfl
@[simp] theorem readSample_reject (s : State) (j : Nat) :
    readSample (reject s) j = readSample s j := rfl
@[simp] theorem readSample_attemptReset (s : State) (j : Nat) :
    readSample (attemptReset s) j = readSample s j := rfl
@[simp] theorem readSample_startRead (e : BitVec 16) (s : State) (j : Nat) :
    readSample (startRead e s) j = readSample s j := rfl
@[simp] theorem readSample_startUnpack (s : State) (j : Nat) :
    readSample (startUnpack s) j = readSample s j := rfl
@[simp] theorem readSample_acknowledge (s : State) (j : Nat) :
    readSample (acknowledge s) j = readSample s j := rfl
@[simp] theorem readSample_retryAttempt (s : State) (j : Nat) :
    readSample (retryAttempt s) j = readSample s j := rfl
@[simp] theorem readSample_acceptHeader (p : Nat) (b : Byte) (s : State) (j : Nat) :
    readSample (acceptHeader p b s) j = readSample s j := rfl
@[simp] theorem readSample_acceptSizeLo (b : Byte) (s : State) (j : Nat) :
    readSample (acceptSizeLo b s) j = readSample s j := rfl
@[simp] theorem readSample_acceptSizeHi (b : Byte) (s : State) (j : Nat) :
    readSample (acceptSizeHi b s) j = readSample s j := rfl
@[simp] theorem readSample_acceptChecksum (b : Byte) (s : State) (j : Nat) :
    readSample (acceptChecksum b s) j = readSample s j := rfl
@[simp] theorem readSample_advance (s : State) (j : Nat) :
    readSample (advance s) j = readSample s j := rfl
@[simp] theorem readSample_completeRead (s : State) (j : Nat) :
    readSample (completeRead s) j = readSample s j := rfl
@[simp] theorem readSample_completeUnpack (s : State) (j : Nat) :
    readSample (completeUnpack s) j = readSample s j := rfl
@[simp] theorem readSample_takeMove (s : State) (j : Nat) :
    readSample (takeMove s) j = readSample s j := rfl
@[simp] theorem readSample_acceptPayload (i : Nat) (b : Byte) (s : State) (j : Nat) :
    readSample (acceptPayload i b s) j = readSample s j := rfl

/-! ### Updates that write a store -/

theorem readPayload_writePayload (s : State) (i j : Nat) (b : Byte) :
    readPayload (writePayload i b s) j = if j = i then b else readPayload s j := by
  simp only [readPayload, writePayload_payload, writePayload_drawNo, Memory.get_put]
  split <;> rfl

theorem readPayload_acceptPayload (s : State) (i j : Nat) (b : Byte) :
    readPayload (acceptPayload i b s) j = if j = i then b else readPayload s j := by
  simp only [readPayload, acceptPayload_payload, acceptPayload_drawNo, Memory.get_put]
  split <;> rfl

theorem readSample_writeSample (s : State) (i j : Nat) (v : Sample) :
    readSample (writeSample i v s) j = if j = i then v else readSample s j := by
  simp only [readSample, writeSample_samples, writeSample_drawNo, Memory.get_put]
  split <;> rfl

theorem readSample_unpackTriplet (s : State) (k j : Nat) :
    readSample (unpackTriplet k s) j =
      if j = 2 * k + 1 then pairOdd (readPayload s (3 * k + 1)) (readPayload s (3 * k + 2))
      else if j = 2 * k then pairEven (readPayload s (3 * k)) (readPayload s (3 * k + 1))
      else readSample s j := by
  simp only [readSample, unpackTriplet_samples, unpackTriplet_drawNo, Memory.get_put]
  split
  · rfl
  · split <;> rfl

theorem payloadPrefix_length (s : State) (n : Nat) : (payloadPrefix s n).length = n := by simp [payloadPrefix]

theorem payloadPrefix_succ (s : State) (n : Nat) :
    payloadPrefix s (n + 1) = payloadPrefix s n ++ [readPayload s n] := by
  simp [payloadPrefix, List.range_succ]

/-- Writing entry `n` or a later one leaves the first `n` entries as they were. -/
theorem payloadPrefix_acceptPayload (s : State) {n i : Nat} (b : Byte) (h : n ≤ i) :
    payloadPrefix (acceptPayload i b s) n = payloadPrefix s n := by
  apply List.map_congr_left
  intro j hj
  have : j ≠ i := by have := List.mem_range.mp hj; omega
  simp [readPayload_acceptPayload, this]

end Sys2Proof.Machine
end

