-- ==== Sys2Proof/Laws/Ops.lean ====
section
/-! SUPPORT. For each shared operation, once, everything it can do: what it answers, and what follows when it answers a next
state. -/

namespace Sys2Proof.Machine

theorem rxReady_iff (s : State) : rxReady s = true ↔ s.state = .reading := by simp [rxReady]

theorem commandOpen_iff (s : State) : commandOpen s = true ↔ s.state = .idle ∨ s.state = .done := by
  simp [commandOpen]

/-! ### XOR fold -/

@[simp] theorem xorFold_nil : xorFold [] = 0x00#8 := rfl

@[simp] theorem xorFold_cons (b : Byte) (l : List Byte) : xorFold (b :: l) = b ^^^ xorFold l := rfl

theorem xorFold_append (l m : List Byte) : xorFold (l ++ m) = xorFold l ^^^ xorFold m := by
  induction l with
  | nil => simp
  | cons b l ih => simp [ih, BitVec.xor_assoc]

/-- Accepting one more covered byte. -/
theorem xorFold_snoc (l : List Byte) (b : Byte) : xorFold (l ++ [b]) = xorFold l ^^^ b := by
  simp [xorFold_append]

/-! ### Frame fields -/

/-- The field of an offset, case by case (R122). -/
theorem frameField_cases (p e : Nat) :
    (p < 3 ∧ frameField p e = .header p) ∨ (p = 3 ∧ frameField p e = .sizeLo) ∨ (p = 4 ∧ frameField p e = .sizeHi) ∨
    (5 ≤ p ∧ p < e + 5 ∧ frameField p e = .payload (p - 5)) ∨ (p = e + 5 ∧ frameField p e = .checksum) ∨
    (e + 5 < p ∧ frameField p e = .beyond) := by
  unfold frameField
  split
  · exact .inl ⟨‹_›, rfl⟩
  · split
    · exact .inr (.inl ⟨‹_›, rfl⟩)
    · split
      · exact .inr (.inr (.inl ⟨‹_›, rfl⟩))
      · split
        · exact .inr (.inr (.inr (.inl ⟨by omega, ‹_›, rfl⟩)))
        · split
          · exact .inr (.inr (.inr (.inr (.inl ⟨‹_›, rfl⟩))))
          · exact .inr (.inr (.inr (.inr (.inr ⟨by omega, rfl⟩))))

/-! ### Meanings that branch: what each can answer -/

theorem execCmdRead_cases {rsv : BitVec 13} {e : BitVec 16} {s t : State} (h : execCmdRead rsv e s = .next t) :
    (commandOpen s = true ∧ e.toNat ≤ s.payloadCap ∧ t = startRead e s) ∨
    ((commandOpen s = false ∨ s.payloadCap < e.toNat) ∧ t = reject s) := by
  unfold execCmdRead at h
  split at h
  · next hc =>
    cases h
    exact .inl ⟨by simp_all, by simp_all, rfl⟩
  · next hc =>
    cases h
    refine .inr ⟨?_, rfl⟩
    cases hs : commandOpen s
    · exact .inl rfl
    · exact .inr (by simpa [hs] using hc)

theorem execCmdUnpack_cases {rsv : BitVec 13} {arg : BitVec 16} {s t : State} (h : execCmdUnpack rsv arg s = .next t) :
    (commandOpen s = true ∧ s.payloadValid = true ∧ s.expected.toNat < Config.need ∧ t = finish .payloadTooShort s) ∨
    (commandOpen s = true ∧ s.payloadValid = true ∧ Config.need ≤ s.expected.toNat ∧ t = startUnpack s) ∨
    ((commandOpen s = false ∨ s.payloadValid = false) ∧ t = reject s) := by
  unfold execCmdUnpack at h
  split at h
  · next hc =>
    split at h
    · next he => cases h; exact .inl ⟨by simp_all, by simp_all, he, rfl⟩
    · next he => cases h; exact .inr (.inl ⟨by simp_all, by simp_all, by omega, rfl⟩)
  · next hc =>
    cases h
    refine .inr (.inr ⟨?_, rfl⟩)
    cases hs : commandOpen s
    · exact .inl rfl
    · exact .inr (by simpa [hs] using hc)

theorem execCmdClear_cases {rsv : BitVec 13} {arg : BitVec 16} {s t : State} (h : execCmdClear rsv arg s = .next t) :
    (commandOpen s = true ∧ t = acknowledge s) ∨ (commandOpen s = false ∧ t = reject s) := by
  unfold execCmdClear at h
  split at h
  · cases h; exact .inl ⟨‹_›, rfl⟩
  · cases h; exact .inr ⟨by simp_all, rfl⟩

/-- An accepted byte: the case of its frame offset (R122). -/
theorem acceptByte_cases {b : Byte} {s t : State} (h : acceptByte b s = .next t) :
    (s.pos.toNat < 3 ∧ t = advance (acceptHeader s.pos.toNat b s)) ∨
    (s.pos.toNat = 3 ∧ t = advance (acceptSizeLo b s)) ∨
    (s.pos.toNat = 4 ∧ t = advance (acceptSizeHi b s)) ∨
    (5 ≤ s.pos.toNat ∧ s.pos.toNat < s.expected.toNat + 5 ∧ s.pos.toNat - 5 < s.payloadCap ∧
      t = advance (acceptPayload (s.pos.toNat - 5) b s)) ∨
    (s.pos.toNat = s.expected.toNat + 5 ∧ t = completeRead (advance (acceptChecksum b s))) := by
  unfold acceptByte at h
  rcases frameField_cases s.pos.toNat s.expected.toNat with
    ⟨hp, hf⟩ | ⟨hp, hf⟩ | ⟨hp, hf⟩ | ⟨hp, hq, hf⟩ | ⟨hp, hf⟩ | ⟨hp, hf⟩ <;> simp only [hf] at h
  · cases h; exact .inl ⟨hp, rfl⟩
  · cases h; exact .inr (.inl ⟨hp, rfl⟩)
  · cases h; exact .inr (.inr (.inl ⟨hp, rfl⟩))
  · split at h
    · next hc => cases h; exact .inr (.inr (.inr (.inl ⟨hp, hq, hc, rfl⟩)))
    · cases h
  · cases h; exact .inr (.inr (.inr (.inr ⟨hp, rfl⟩)))
  · cases h

theorem execRxByte_cases {b : Byte} {s t : State} (h : execRxByte b s = .next t) :
    (s.state = .reading ∧ acceptByte b s = .next t) ∨ (s.state ≠ .reading ∧ t = s) := by
  unfold execRxByte at h
  split at h
  · next hr => exact .inl ⟨(rxReady_iff s).mp hr, h⟩
  · next hr => cases h; exact .inr ⟨fun hs => hr ((rxReady_iff s).mpr hs), rfl⟩

theorem execRxErr_cases {s t : State} (h : execRxErr s = .next t) :
    (s.state = .reading ∧ t = finish .transportError s) ∨ (s.state ≠ .reading ∧ t = s) := by
  unfold execRxErr at h
  split at h
  · next hr => cases h; exact .inl ⟨(rxReady_iff s).mp hr, rfl⟩
  · next hr => cases h; exact .inr ⟨fun hs => hr ((rxReady_iff s).mpr hs), rfl⟩

theorem execTimeout_cases {s t : State} (h : execTimeout s = .next t) :
    (s.state = .reading ∧ s.cancel = true ∧ t = finish .aborted s) ∨
    (s.state = .reading ∧ s.cancel = false ∧ t = retryAttempt s) ∨ (s.state ≠ .reading ∧ t = s) := by
  unfold execTimeout at h
  split at h
  · next hr =>
    split at h
    · next hc => cases h; exact .inl ⟨(rxReady_iff s).mp hr, hc, rfl⟩
    · next hc => cases h; exact .inr (.inl ⟨(rxReady_iff s).mp hr, by simpa using hc, rfl⟩)
  · next hr => cases h; exact .inr (.inr ⟨fun hs => hr ((rxReady_iff s).mpr hs), rfl⟩)

theorem execUnpackStep_cases {s t : State} (h : execUnpackStep s = .next t) :
    (s.state = .unpacking ∧ s.upkIdx.toNat + 1 < Config.triplets ∧ 3 * s.upkIdx.toNat + 2 < s.payloadCap ∧
      t = unpackTriplet s.upkIdx.toNat s) ∨
    (s.state = .unpacking ∧ s.upkIdx.toNat + 1 = Config.triplets ∧ 3 * s.upkIdx.toNat + 2 < s.payloadCap ∧
      t = completeUnpack (unpackTriplet s.upkIdx.toNat s)) ∨
    (s.state ≠ .unpacking ∧ t = s) := by
  unfold execUnpackStep at h
  split at h
  · next hs =>
    split at h
    · cases h
    · split at h
      · cases h
      · split at h
        · cases h; exact .inr (.inl ⟨hs, ‹_›, by omega, rfl⟩)
        · cases h; exact .inl ⟨hs, by omega, by omega, rfl⟩
  · next hs => cases h; exact .inr (.inr ⟨hs, rfl⟩)

/-! ### Fetch and step -/

/-- The host's next access: the first one placed, or the free one. -/
theorem nextAccess_cases {s : State} {op : HostOp} {rest : List HostOp} (h : nextAccess s = some (op, rest)) :
    s.host = op :: rest ∨ (s.host = [] ∧ rest = [] ∧ Config.freeAccess s.moveNo = some op) := by
  unfold nextAccess at h
  split at h
  · next o r hh => cases h; exact .inl hh
  · next hh =>
    obtain ⟨o, ho, he⟩ := Option.map_eq_some_iff.mp h
    cases he
    exact .inr ⟨hh, rfl, ho⟩

/-- The byte the line offers: the first one it holds, or the free one. -/
theorem nextByte_cases {s : State} {b : Byte} {rest : List Byte} (h : nextByte s = some (b, rest)) :
    s.line = b :: rest ∨ (s.line = [] ∧ rest = [] ∧ Config.freeByte s.moveNo = some b) := by
  unfold nextByte at h
  split at h
  · next o r hh => cases h; exact .inl hh
  · next hh =>
    obtain ⟨o, ho, he⟩ := Option.map_eq_some_iff.mp h
    cases he
    exact .inr ⟨hh, rfl, ho⟩

theorem nextAccess_placed {s : State} {op : HostOp} {rest : List HostOp} (h : s.host = op :: rest) :
    nextAccess s = some (op, rest) := by simp only [nextAccess, h]

theorem nextByte_held {s : State} {b : Byte} {rest : List Byte} (h : s.line = b :: rest) :
    nextByte s = some (b, rest) := by simp only [nextByte, h]

/-- The operation of the chosen move, and what is left of its agent's list. -/
theorem fetch_cases {s t : State} {i : Instr} (h : fetch s = some (i, t)) :
    (∃ op rest, chosenMove s = .host ∧ nextAccess s = some (op, rest) ∧ i = ofInput op.toInput ∧
      t = { takeMove s with host := rest }) ∨
    (∃ b rest, chosenMove s = .lineByte ∧ nextByte s = some (b, rest) ∧ i = .rxByte b ∧
      ((s.state = .reading ∧ t = { takeMove s with line := rest }) ∨
       (s.state ≠ .reading ∧ t = { takeMove s with line := b :: rest }))) ∨
    (chosenMove s = .lineErr ∧ i = .rxErr ∧ t = takeMove s) ∨
    (chosenMove s = .timer ∧ i = .timeout ∧ t = takeMove s) ∨
    (chosenMove s = .engine ∧ i = .unpackStep ∧ t = takeMove s) ∨
    (chosenMove s = .reset ∧ i = .reset ∧ t = takeMove s) := by
  unfold fetch at h
  split at h
  · next hm =>
    split at h
    · next op rest hh => cases h; exact .inl ⟨op, rest, hm, hh, rfl, rfl⟩
    · cases h
  · next hm =>
    split at h
    · next b rest hl =>
      cases h
      refine .inr (.inl ⟨b, rest, hm, hl, rfl, ?_⟩)
      cases hr : rxReady s
      · exact .inr ⟨fun hs => by simp [(rxReady_iff s).mpr hs] at hr, by simp⟩
      · exact .inl ⟨(rxReady_iff s).mp hr, by simp⟩
    · cases h
  · next hm => cases h; exact .inr (.inr (.inl ⟨hm, rfl, rfl⟩))
  · next hm => cases h; exact .inr (.inr (.inr (.inl ⟨hm, rfl, rfl⟩)))
  · next hm => cases h; exact .inr (.inr (.inr (.inr (.inl ⟨hm, rfl, rfl⟩))))
  · next hm => cases h; exact .inr (.inr (.inr (.inr (.inr ⟨hm, rfl, rfl⟩))))

/-- A step runs the fetched operation, or leaves the block as it is. -/
theorem step_cases {s t : State} (h : step s = .next t) :
    (∃ i u, fetch s = some (i, u) ∧ exec i u = .next t) ∨ (fetch s = none ∧ t = takeMove s) := by
  unfold step at h
  split at h
  · next i u hf => exact .inl ⟨i, u, hf, h⟩
  · next hf => cases h; exact .inr ⟨hf, rfl⟩

end Sys2Proof.Machine
end

