-- ==== Sys2Proof/Laws/PerInstr.lean ====
section
/-! SUPPORT. What holds of every operation as syntax, one lemma a constructor: the input that carries a well-formed operation
decodes to it (R86). -/

namespace Sys2Proof.Laws

def InputRoundTrip.Statement (i : Instr) : Prop := i.wf = true → ofInput (toInput i) = i

theorem InputRoundTrip.cmdNop (rsv : BitVec 13) (arg : BitVec 16) : InputRoundTrip.Statement (.cmdNop rsv arg) := by
  intro _
  simp [toInput, ofInput, ofCommand_cmdWord]

theorem InputRoundTrip.cmdRead (rsv : BitVec 13) (e : BitVec 16) : InputRoundTrip.Statement (.cmdRead rsv e) := by
  intro _
  simp [toInput, ofInput, ofCommand_cmdWord]

theorem InputRoundTrip.cmdUnpack (rsv : BitVec 13) (arg : BitVec 16) :
    InputRoundTrip.Statement (.cmdUnpack rsv arg) := by
  intro _
  simp [toInput, ofInput, ofCommand_cmdWord]

theorem InputRoundTrip.cmdClear (rsv : BitVec 13) (arg : BitVec 16) : InputRoundTrip.Statement (.cmdClear rsv arg) := by
  intro _
  simp [toInput, ofInput, ofCommand_cmdWord]

theorem InputRoundTrip.cmdReserved (op : BitVec 2) (rsv : BitVec 13) (arg : BitVec 16) :
    InputRoundTrip.Statement (.cmdReserved op rsv arg) := by
  intro _
  have h : ∀ op : BitVec 2, 0b100#3 ||| op.setWidth 3 ≠ 0b000#3 ∧ 0b100#3 ||| op.setWidth 3 ≠ 0b001#3 ∧
      0b100#3 ||| op.setWidth 3 ≠ 0b010#3 ∧ 0b100#3 ||| op.setWidth 3 ≠ 0b011#3 ∧
      (0b100#3 ||| op.setWidth 3).setWidth 2 = op := by decide
  obtain ⟨h0, h1, h2, h3, h4⟩ := h op
  simp only [toInput, ofInput, ofCommand_cmdWord, if_true, if_neg h0, if_neg h1, if_neg h2, if_neg h3, h4]

theorem InputRoundTrip.wrCtrl (d : Word) : InputRoundTrip.Statement (.wrCtrl d) := by
  intro _
  simp [toInput, ofInput]

theorem InputRoundTrip.wrIgnored (addr : Addr) (d : Word) : InputRoundTrip.Statement (.wrIgnored addr d) := by
  intro h
  simp only [Instr.wf, ignoredAddr, Bool.and_eq_true, bne_iff_ne, ne_eq] at h
  simp [toInput, ofInput, h.1, h.2]

theorem InputRoundTrip.rd (addr : Addr) : InputRoundTrip.Statement (.rd addr) := fun _ => rfl

theorem InputRoundTrip.rxByte (b : Byte) : InputRoundTrip.Statement (.rxByte b) := fun _ => rfl

theorem InputRoundTrip.rxErr : InputRoundTrip.Statement .rxErr := fun _ => rfl

theorem InputRoundTrip.timeout : InputRoundTrip.Statement .timeout := fun _ => rfl

theorem InputRoundTrip.unpackStep : InputRoundTrip.Statement .unpackStep := fun _ => rfl

theorem InputRoundTrip.reset : InputRoundTrip.Statement .reset := fun _ => rfl

end Sys2Proof.Laws
end

