-- ==== Sys2Proof/Laws/Rtl.lean ====
section
/-! SUPPORT. The clock-cycle layer: once, everything a cycle that answers can do. -/

namespace Sys2Proof.Machine

variable {p : RtlParams}

@[simp] theorem rtlCycles_nil (r : Rtl p) : rtlCycles [] r = .next r := rfl

theorem rtlCycles_cons_next {c : Cycle p} {cs : List (Cycle p)} {r r' : Rtl p} (h : rtlCycle c r = .next r') :
    rtlCycles (c :: cs) r = rtlCycles cs r' := by
  simp only [rtlCycles, h]

/-- A cycle that answers has run its events, then its write, and moved the timer and the bus on. -/
theorem rtlCycle_cases {c : Cycle p} {r r' : Rtl p} (h : rtlCycle c r = .next r') :
    ∃ mid, execAll (cycleEvents c r) r.block = .next mid ∧ execAll (cycleWrite c r) mid = .next r'.block ∧
      r'.tmr = tmrAfter c r mid r'.block ∧ r'.bus = busAfter c r := by
  unfold rtlCycle at h
  split at h
  · next mid hm =>
    split at h
    · next s hs => cases h; exact ⟨mid, hm, hs, rfl, rfl⟩
    · cases h
    · cases h
  · cases h
  · cases h

end Sys2Proof.Machine
end

