-- ==== Sys2Proof/Laws/Runs.lean ====
section
/-! SUPPORT. Placing operations from outside changes nothing of the block. -/

namespace Sys2Proof

open Sys2Proof.Machine

theorem Placed.refl (s : State) : Placed s s := ⟨[], [], [], by simp⟩

theorem Placed.state_eq {t s : State} (h : Placed t s) : s.state = t.state := by
  obtain ⟨hs, bs, ms, rfl⟩ := h
  rfl

theorem Placed.cancel_eq {t s : State} (h : Placed t s) : s.cancel = t.cancel := by
  obtain ⟨hs, bs, ms, rfl⟩ := h
  rfl

theorem Placed.upkIdx_eq {t s : State} (h : Placed t s) : s.upkIdx = t.upkIdx := by
  obtain ⟨hs, bs, ms, rfl⟩ := h
  rfl

/-- The invariant says nothing of the agents' lists. -/
theorem Placed.inv {t s : State} (h : Placed t s) (hi : Inv t) : Inv s := by
  obtain ⟨hs, bs, ms, rfl⟩ := h
  obtain ⟨a, b, c, d, e, f, g, i, j, k, l, m, n, o⟩ := hi
  exact ⟨a, b, c, d, e, f, g, i, j, k, l, m, n, o⟩

end Sys2Proof
end

