-- ==== Sys2Proof/Tests/Slice0.lean ====
section
/-! SUPPORT. The model's own tests. Expected values are those of `spec/` (95_test_vectors.md and the rules' examples), cited
at each group; the witnesses show a state and operands that meet the hypotheses of each statement. -/

namespace Sys2Proof.Tests

open Sys2Proof.Machine

/-! ### Well-formedness: the one check, and a term it refuses (R175) -/

theorem test_wf_refuses_ignored_write_to_cmd : (Instr.wrIgnored 0x00000#18 0xFF#32).wf = false := by decide

theorem test_wf_refuses_ignored_write_to_ctrl : (Instr.wrIgnored 0x00001#18 0xFF#32).wf = false := by decide

theorem test_wf_admits_other_write : (Instr.wrIgnored 0x00002#18 0xFF#32).wf = true := by decide

/-! ### Decoding: words and records written out from R75 to R78, R87 and the record of log entry 10 -/

theorem test_decode_nop : ofInput (.hostWr 0x00000#18 0xFFFF0000#32) = .cmdNop 0#13 0xFFFF#16 := by decide

theorem test_decode_read : ofInput (.hostWr 0x00000#18 0b0011100001000001_0000000000000_001#32) = .cmdRead 0#13 14401#16 := by
  decide

theorem test_decode_unpack : ofInput (.hostWr 0x00000#18 0b0000000000000000_0000000000000_010#32) = .cmdUnpack 0#13 0#16 := by
  decide

theorem test_decode_clear_with_ignored_bits :
    ofInput (.hostWr 0x00000#18 0b0000000000000001_1000000000001_011#32) = .cmdClear 0b1000000000001#13 1#16 := by decide

theorem test_decode_reserved_4 : ofInput (.hostWr 0x00000#18 0x00000004#32) = .cmdReserved 0#2 0#13 0#16 := by decide

theorem test_decode_reserved_7 : ofInput (.hostWr 0x00000#18 0x00000007#32) = .cmdReserved 3#2 0#13 0#16 := by decide

theorem test_decode_ctrl : ofInput (.hostWr 0x00001#18 0x00000001#32) = .wrCtrl 1#32 := by decide

theorem test_decode_ignored : ofInput (.hostWr 0x10000#18 0x000000FF#32) = .wrIgnored 0x10000#18 0xFF#32 := by decide

/-- `CMD READ 7` as a record: word 0x00070001, address 0, format 0. -/
theorem test_decode_record_read : decode [0x01, 0x00, 0x07, 0x00, 0, 0, 0, 0] = .ok (.cmdRead 0#13 7#16, []) := by decide

/-- `RD 0x2257F` as a record: format 1. -/
theorem test_decode_record_rd : decode [0, 0, 0, 0, 0x7F, 0x25, 0x02, 1, 0xAA] = .ok (.rd 0x2257F#18, [0xAA]) := by decide

theorem test_decode_record_rx : decode [0x5A, 0, 0, 0, 0, 0, 0, 2] = .ok (.rxByte 0x5A#8, []) := by decide

theorem test_decode_record_rxErr : decode [0, 0, 0, 0, 0, 0, 0, 3] = .ok (.rxErr, []) := by decide

theorem test_decode_record_timeout : decode [0, 0, 0, 0, 0, 0, 0, 4] = .ok (.timeout, []) := by decide

theorem test_decode_record_engine : decode [0, 0, 0, 0, 0, 0, 0, 5] = .ok (.unpackStep, []) := by decide

theorem test_decode_record_reset : decode [0, 0, 0, 0, 0, 0, 0, 6] = .ok (.reset, []) := by decide

theorem test_decode_rejects_format : decode [0, 0, 0, 0, 0, 0, 0, 7] = .error .noSuchFormat := by decide

theorem test_decode_rejects_stray_bits : decode [0, 1, 0, 0, 0, 0, 0, 2] = .error .strayBits := by decide

theorem test_decode_rejects_short : decode [0, 0, 0, 0, 0, 0, 0] = .error .truncated := by decide

/-- The opcode table's rows that bits alone tell apart, each on a word of its own (log entry 10). -/
theorem test_decodeTableWord :
    decodeTableWord 32 0x00000000 = some (.cmdNop 0#13 0#16) ∧ decodeTableWord 32 0x00000001 = some (.cmdRead 0#13 0#16) ∧
    decodeTableWord 32 0x00000002 = some (.cmdUnpack 0#13 0#16) ∧ decodeTableWord 32 0x00000003 = some (.cmdClear 0#13 0#16) ∧
    decodeTableWord 32 0x00000004 = some (.cmdReserved 0#2 0#13 0#16) ∧ decodeTableWord 8 0x5A = some (.rxByte 0x5A#8) := by
  decide

/-- R87's texts and encodings. -/
theorem test_program_lines :
    lineText (.cmdRead 14401#16) = "CMD READ 14401" ∧ lineText (.wr 0x00001#18 0x1#32) = "WR 0x00001, 0x00000001" ∧
    lineText (.rx 0x5A#8) = "RX 0x5A" ∧ lineInstr (.cmdRead 7#16) = .cmdRead 0#13 7#16 ∧
    lineInstr (.cancel true) = .wrCtrl 1#32 ∧ payloadAddr 6 = 0x10006#18 ∧ sampleAddr 9599 = 0x2257F#18 := by decide

/-! ### Small states -/

/-- READING at frame offset `p` of a frame of `e` payload bytes. -/
def readingAt (e : BitVec 16) (p : BitVec 17) : State :=
  { State.reset with state := .reading, expected := e, pos := p, attempts := 1#32 }

/-- UNPACKING a sensor payload, at triplet `k`. -/
def unpackingAt (k : BitVec 16) : State :=
  { State.reset with
    state := .unpacking, payloadValid := true, expected := 14401#16, pos := 14407#17, attempts := 1#32, upkIdx := k }

/-- DONE after the frame `5A 77 FF 02 00 08 00 0A` read with `E` = 2 (W2, V6). -/
def afterFrame : State :=
  { State.reset with
    state := .done, result := .frameOk, payloadValid := true, expected := 2#16, pos := 8#17, acc := 0x0A#8,
    sizeLo := 0x02#8, ckRx := 0x0A#8, magicRx0 := 0x5A#8, magicRx1 := 0x77#8, magicRx2 := 0xFF#8, attempts := 1#32,
    payload := [(0, 0x08#8), (1, 0x00#8)] }

/-- DONE after a frame that failed its checksum (P3). -/
def afterBadChecksum : State :=
  { afterFrame with result := .badChecksum, payloadValid := false, errCksum := true, ckRx := 0x0B#8 }

/-- STATUS after an operation, if it answers a next state. -/
def statusAfter (i : Instr) (s : State) : Option Word :=
  match exec i s with
  | .next t => some (statusWord t)
  | _ => none

/-- A word of the host's map after an operation. -/
def wordAfter (i : Instr) (addr : Addr) (s : State) : Option Word :=
  match exec i s with
  | .next t => some (hostRead t addr)
  | _ => none

/-! ### The validator and `Pair` (V1, V2) -/

theorem test_checksum : checksum 0x02 0x00 [0x12, 0x55] = 0x45#8 := by decide

theorem test_sizeOk_little_endian : sizeOk 0x00 0x02 2#16 = false ∧ sizeOk 0x02 0x00 2#16 = true := by decide

theorem test_frameDecode_ok :
    frameDecode [0x5A, 0x77, 0xFF, 0x02, 0x00, 0x08, 0x00, 0x0A] 2#16 =
      .ok ⟨2#16, [0x08, 0x00], 0x0A⟩ ⟨false, false, false⟩ := by decide

theorem test_frameDecode_size_flip :
    frameDecode [0x5A, 0x77, 0xFF, 0x03, 0x00, 0x08, 0x00, 0x0A] 2#16 = .err .badSize ⟨false, true, true⟩ := by decide

theorem test_frameDecode_empty : frameDecode [0x5A, 0x77, 0xFF, 0x00, 0x00, 0x01] 0#16 = .err .badChecksum ⟨false, false, true⟩ := by
  decide

theorem test_toWire : toWire [0x12, 0x55] = some [0x5A, 0x77, 0xFF, 0x02, 0x00, 0x12, 0x55, 0x45] := by decide

theorem test_pair : pair 0x12 0x34 0x56 = (0x412#12, 0x563#12) ∧ pair 0xAB 0xCD 0xEF = (0xDAB#12, 0xEFC#12) := by decide

theorem test_pair_keeps_b2 : pair 0x00 0x00 0xFF = (0x000#12, 0xFF0#12) := by decide

theorem test_sample_place : sampleIndex 1 1 = 161 ∧ sampleRow 161 = 1 ∧ sampleColumn 161 = 1 := by decide

/-! ### Commands and host access (V4, V5, V6, P8) -/

theorem test_nop_while_reading : exec (.cmdNop 0#13 0#16) (readingAt 2 0) = .next (readingAt 2 0) := rfl

theorem test_read_from_reset : statusAfter (.cmdRead 0#13 7#16) State.reset = some 0x00000001#32 := by decide

theorem test_read_rejected_while_reading : statusAfter (.cmdRead 0#13 2#16) (readingAt 2 0) = some 0x00000021#32 := by decide

theorem test_read_beyond_cap :
    statusAfter (.cmdRead 0#13 14402#16) { State.reset with payloadCap := 14401 } = some 0x00000020#32 := by decide

theorem test_unpack_without_payload : statusAfter (.cmdUnpack 0#13 0#16) State.reset = some 0x00000020#32 := by decide

theorem test_unpack_too_short : statusAfter (.cmdUnpack 0#13 0#16) afterFrame = some 0x0000800B#32 := by decide

theorem test_unpack_starts :
    statusAfter (.cmdUnpack 0#13 0#16) { afterFrame with expected := 14400#16 } = some 0x0000000A#32 := by decide

theorem test_clear_after_bad_checksum : statusAfter (.cmdClear 0#13 0#16) afterBadChecksum = some 0#32 := by decide

theorem test_clear_keeps_payload : statusAfter (.cmdClear 0#13 0#16) afterFrame = some 0x00000008#32 := by decide

theorem test_reserved_while_reading : statusAfter (.cmdReserved 1#2 0#13 0#16) (readingAt 2 0) = some 0x00000021#32 := by
  decide

theorem test_ctrl_takes_bit_zero :
    wordAfter (.wrCtrl 0xFFFFFFFF#32) 0x00001#18 State.reset = some 1#32 ∧
    wordAfter (.wrCtrl 0x00000002#32) 0x00001#18 State.reset = some 0#32 := by decide

theorem test_ignored_write : exec (.wrIgnored 0x10000#18 0xFF#32) afterFrame = .next afterFrame := rfl

/-- V6: the words after the frame `5A 77 FF 02 00 08 00 0A`. -/
theorem test_words_after_frame :
    hostRead afterFrame 0x00002#18 = 0x0000100B#32 ∧ hostRead afterFrame 0x00004#18 = 0x00000002#32 ∧
    hostRead afterFrame 0x00005#18 = 0x00000A0A#32 ∧ hostRead afterFrame 0x00008#18 = 0x00FF775A#32 ∧
    hostRead afterFrame 0x10000#18 = 0x00000008#32 := by decide

/-- V6: GEOMETRY, the unmapped words, and the ends of the windows. -/
theorem test_read_map :
    hostRead afterFrame 0x0000A#18 = 0x003C00A0#32 ∧ hostRead afterFrame 0x0000B#18 = 0#32 ∧
    hostRead afterFrame 0x3FFFF#18 = 0#32 ∧ hostRead afterFrame 0x1FFFF#18 = 0#32 ∧
    hostRead afterFrame (BitVec.ofNat 18 (0x20000 + 9600)) = 0#32 := by decide

/-! ### Parser (V4, P3, P4, P6) -/

theorem test_header_byte_wrong : statusAfter (.rxByte 0x78) { readingAt 2 1 with magicRx0 := 0x5A } = some 0x00000041#32 := by
  decide

theorem test_size_high_byte :
    statusAfter (.rxByte 0x00) { readingAt 2 4 with sizeLo := 0x03, acc := 0x03 } = some 0x00000081#32 := by decide

theorem test_payload_byte : wordAfter (.rxByte 0x01) 0x10000#18 { readingAt 7 5 with acc := 0x07 } = some 0x00000001#32 := by
  decide

theorem test_checksum_byte_wrong : statusAfter (.rxByte 0x0B) { readingAt 2 7 with acc := 0x0A } = some 0x00004103#32 := by
  decide

theorem test_empty_frame_completes : statusAfter (.rxByte 0x00) (readingAt 0 5) = some 0x0000100B#32 := by decide

theorem test_magic_has_priority :
    statusAfter (.rxByte 0x0B) { readingAt 2 7 with acc := 0x0A, errMagic := true, errSize := true } = some 0x000021C3#32 := by
  decide

theorem test_timeout_counts :
    wordAfter .timeout 0x00006#18 { readingAt 2 4 with attempts := 0xFFFFFFFE } = some 0xFFFFFFFF#32 ∧
    wordAfter .timeout 0x00006#18 { readingAt 2 4 with attempts := 0xFFFFFFFF } = some 0xFFFFFFFF#32 := by decide

theorem test_timeout_aborts : statusAfter .timeout { readingAt 7 0 with cancel := true } = some 0x00006003#32 := by decide

theorem test_line_error : statusAfter .rxErr (readingAt 2 0) = some 0x00005003#32 := by decide

theorem test_line_error_outside_reading : exec .rxErr (unpackingAt 5) = .next (unpackingAt 5) := rfl

/-! ### Unpacker (V5, V3) and reset (V7) -/

theorem test_unpack_step :
    wordAfter .unpackStep 0x20001#18 { unpackingAt 0 with payload := [(0, 0x00), (1, 0x01), (2, 0x02)] } =
      some 0x00000020#32 := by decide

theorem test_last_unpack_step : statusAfter .unpackStep (unpackingAt 4799) = some 0x0000701B#32 := by decide

theorem test_reset_while_unpacking : statusAfter .reset { unpackingAt 100 with cancel := true } = some 0#32 := by decide

/-! ### Steps: the first operation after reset, and a byte offered outside READING -/

theorem test_first_operation_after_reset :
    step (State.reset.withFetchWord 32 0x00070001) =
      .next { startRead 7#16 State.reset with moveNo := 1 } := rfl

theorem test_byte_waits_with_line :
    step (State.reset.withFetchWord 8 0x5A) = .next { State.reset with line := [0x5A#8], moveNo := 1 } := rfl

/-! ### Witnesses: encoding

Each witness shows operands and a state that meet the hypotheses of the statement it is named after, clause by clause. -/

theorem witness_DecodeInvertsEncode :
    (Instr.wrIgnored 0x00002#18 0#32).wf = true ∧ (Instr.wrIgnored 0x3FFFF#18 0#32).wf = true := by decide

theorem witness_EncodeInvertsDecode :
    decode [0xFF, 0, 0, 0, 0xFF, 0xFF, 0x03, 0, 0x11] = .ok (.wrIgnored 0x3FFFF#18 0xFF#32, [0x11]) := by decide

theorem witness_EveryInputIsOneOperation :
    (0xFFFFFFF8#32).extractLsb' 0 3 = 0b000#3 ∧ (0x00070001#32).extractLsb' 0 3 = 0b001#3 ∧
    (0x0000000A#32).extractLsb' 0 3 = 0b010#3 ∧ (0x00000003#32).extractLsb' 0 3 = 0b011#3 ∧
    (0x00000004#32).getLsbD 2 = true ∧ (0xFFFFFFFF#32).getLsbD 2 = true ∧
    (0x00002#18 ≠ 0#18 ∧ 0x00002#18 ≠ 1#18) ∧ (0x3FFFF#18 ≠ 0#18 ∧ 0x3FFFF#18 ≠ 1#18) := by decide

/-! ### Witnesses: steps and reset -/

/-- The reset state with moves, accesses and bytes placed, in a given STATE. -/
def placed (m : Mode) (moves : List Move) (host : List HostOp) (line : List Byte) : State :=
  { State.reset with state := m, moves := moves, host := host, line := line }

theorem witness_StepRunsTheChosenOperation :
    (placed .idle [.engine] [] []).moves = .engine :: [] ∧
    (chosenMove (placed .idle [.host] [.read 2#18] []) = .host ∧
      (placed .idle [.host] [.read 2#18] []).host = .read 2#18 :: []) ∧
    (chosenMove (placed .reading [.lineByte] [] [0x5A]) = .lineByte ∧
      (placed .reading [.lineByte] [] [0x5A]).line = 0x5A :: [] ∧
      (placed .reading [.lineByte] [] [0x5A]).state = .reading) ∧
    (chosenMove (placed .done [.lineByte] [] [0x5A]) = .lineByte ∧
      (placed .done [.lineByte] [] [0x5A]).line = 0x5A :: [] ∧ (placed .done [.lineByte] [] [0x5A]).state ≠ .reading) ∧
    chosenMove (placed .idle [.lineErr] [] []) = .lineErr ∧ chosenMove (placed .idle [.timer] [] []) = .timer ∧
    chosenMove (placed .idle [.engine] [] []) = .engine ∧ chosenMove (placed .idle [.reset] [] []) = .reset ∧
    (chosenMove (placed .idle [.host] [] []) = .host ∧ (placed .idle [.host] [] []).host = []) ∧
    (chosenMove (placed .idle [.lineByte] [] []) = .lineByte ∧ (placed .idle [.lineByte] [] []).line = []) := by
  decide

theorem witness_PlacedRecordRunsNext : decode [0x5A, 0, 0, 0, 0, 0, 0, 2] = .ok (.rxByte 0x5A#8, []) := by decide

theorem witness_LineBytesWaitOutsideReading :
    (∃ t, step (placed .unpacking [.lineByte] [] [0x5A]) = .next t ∧
      (placed .unpacking [.lineByte] [] [0x5A]).state ≠ .reading) ∧
    (∃ t, step (placed .reading [.lineByte] [] [0x5A]) = .next t ∧
      (placed .reading [.lineByte] [] [0x5A]).state = .reading ∧ t.line = []) :=
  ⟨⟨_, rfl, by decide⟩, ⟨_, rfl, rfl, rfl⟩⟩

theorem witness_ResetWordsReadZero :
    ∃ t, exec .reset afterFrame = .next t ∧ (0x0000A#18).toNat < 0x10000 ∧ (0x0FFFF#18).toNat < 0x10000 :=
  ⟨_, rfl, by decide, by decide⟩

/-! ### Witnesses: invariants -/

/-- READING the frame `5A 77 FF 02 00 08 00 0A` with `E` = 2, all but its last byte accepted, and that byte on the line. -/
def beforeChecksum : State :=
  { readingAt 2 7 with
    acc := 0x0A#8, sizeLo := 0x02#8, magicRx0 := 0x5A#8, magicRx1 := 0x77#8, magicRx2 := 0xFF#8,
    payload := [(0, 0x08#8), (1, 0x00#8)], line := [0x0A#8], moves := [.lineByte] }

/-- UNPACKING with one triplet done, the engine to move. -/
def afterOneTriplet : State :=
  { unpackingAt 1 with
    payload := [(0, 0x12#8), (1, 0x34#8), (2, 0x56#8)], samples := [(0, 0x412#12), (1, 0x563#12)], moves := [.engine] }

theorem inv_beforeChecksum : Inv beforeChecksum := by constructor <;> decide

theorem inv_afterOneTriplet : Inv afterOneTriplet := by constructor <;> decide

theorem inv_afterFrame : Inv afterFrame := by constructor <;> decide

theorem readInv_beforeChecksum : ReadInv beforeChecksum := by constructor <;> decide

theorem readInv_afterFrame : ReadInv afterFrame := by constructor <;> decide

theorem unpackInv_afterOneTriplet : UnpackInv afterOneTriplet where
  running := by
    intro _ k hk
    obtain rfl : k = 0 := by
      have : afterOneTriplet.upkIdx.toNat = 1 := rfl
      omega
    decide
  ended := by intro h; cases h

theorem witness_StepKeepsStateInvariant :
    (Inv beforeChecksum ∧ ∃ t, step beforeChecksum = .next t) ∧
    (Inv afterOneTriplet ∧ ∃ t, step afterOneTriplet = .next t) :=
  ⟨⟨inv_beforeChecksum, _, rfl⟩, ⟨inv_afterOneTriplet, _, rfl⟩⟩

theorem witness_StepKeepsReadInvariant :
    Inv beforeChecksum ∧ ReadInv beforeChecksum ∧ ∃ t, step beforeChecksum = .next t ∧ t.payloadValid = true :=
  ⟨inv_beforeChecksum, readInv_beforeChecksum, _, rfl, rfl⟩

theorem witness_StepKeepsUnpackInvariant :
    Inv afterOneTriplet ∧ UnpackInv afterOneTriplet ∧ ∃ t, step afterOneTriplet = .next t ∧ t.upkIdx = 2#16 :=
  ⟨inv_afterOneTriplet, unpackInv_afterOneTriplet, _, rfl, rfl⟩

theorem witness_NoStepStopsInsideInvariant : Inv beforeChecksum := inv_beforeChecksum

/-- Broken states, one for each way to stop, at the bounds: POS one past the last offset; a payload index at the capacity;
UPK_IDX at 4800; a triplet whose last byte is at the capacity. -/
theorem witness_OnlyBrokenPositionsStop :
    (∀ t, exec (.rxByte 0) (readingAt 2 8) ≠ .next t) ∧
    (∀ t, exec (.rxByte 0) { readingAt 14402 14406 with payloadCap := 14401 } ≠ .next t) ∧
    (∀ t, exec .unpackStep (unpackingAt 4800) ≠ .next t) ∧
    (∀ t, exec .unpackStep { unpackingAt 0 with payloadCap := 2 } ≠ .next t) := by
  refine ⟨fun t h => ?_, fun t h => ?_, fun t h => ?_, fun t h => ?_⟩ <;> exact nomatch h

theorem witness_ValidPayloadPassesEveryCheck : Inv afterFrame ∧ ReadInv afterFrame ∧ afterFrame.payloadValid = true :=
  ⟨inv_afterFrame, readInv_afterFrame, rfl⟩

/-! ### Witnesses: host access -/

theorem witness_NopHasNoEffect : (0xFFFF0000#32).extractLsb' 0 3 = 0b000#3 := by decide

theorem witness_ReadStartsOrIsRejected :
    (State.reset.state = .idle ∧ (65535#16).toNat ≤ State.reset.payloadCap) ∧
    (afterFrame.state = .done ∧ (0#16).toNat ≤ afterFrame.payloadCap) ∧
    ({ afterFrame with payloadCap := 14401 } : State).payloadCap < (14402#16).toNat ∧
    (readingAt 2 0).state = .reading ∧ (unpackingAt 0).state = .unpacking ∧
    (0xFFFF0001#32).extractLsb' 0 3 = 0b001#3 := by decide

theorem witness_UnpackStartsEndsOrIsRejected :
    (afterFrame.state = .done ∧ afterFrame.payloadValid = true ∧
      ({ afterFrame with expected := 14399#16 } : State).expected.toNat < 14400) ∧
    (({ afterFrame with state := .idle, expected := 14400#16 } : State).state = .idle ∧
      14400 ≤ ({ afterFrame with state := .idle, expected := 14400#16 } : State).expected.toNat) ∧
    (readingAt 2 0).state = .reading ∧ (unpackingAt 0).state = .unpacking ∧ afterBadChecksum.payloadValid = false ∧
    (0x00000002#32).extractLsb' 0 3 = 0b010#3 := by decide

theorem witness_ClearAcknowledgesOrIsRejected :
    State.reset.state = .idle ∧ afterBadChecksum.state = .done ∧ (readingAt 2 0).state = .reading ∧
    (unpackingAt 0).state = .unpacking ∧ (0x00000003#32).extractLsb' 0 3 = 0b011#3 := by decide

theorem witness_ReservedCommandIsRejected : (0x00000004#32).getLsbD 2 = true ∧ (0x00000007#32).getLsbD 2 = true := by decide

theorem witness_OtherWritesHaveNoEffect :
    (0x00002#18 ≠ 0#18 ∧ 0x00002#18 ≠ 1#18) ∧ (0x3FFFF#18 ≠ 0#18 ∧ 0x3FFFF#18 ≠ 1#18) := by decide

theorem witness_WindowsAndUnmappedWords :
    (0x10000 ≤ (0x10000#18).toNat ∧ (0x10000#18).toNat < 0x20000) ∧
    (0x10000 ≤ (0x1FFFF#18).toNat ∧ (0x1FFFF#18).toNat < 0x20000) ∧
    (0x20000 ≤ (0x20000#18).toNat ∧ (0x20000#18).toNat < 0x30000) ∧
    (0x20000 ≤ (0x2FFFF#18).toNat ∧ (0x2FFFF#18).toNat < 0x30000) ∧
    (0x0000B ≤ (0x0000B#18).toNat ∧ (0x0000B#18).toNat < 0x10000) ∧
    (0x0000B ≤ (0x0FFFF#18).toNat ∧ (0x0FFFF#18).toNat < 0x10000) ∧
    0x30000 ≤ (0x30000#18).toNat ∧ 0x30000 ≤ (0x3FFFF#18).toNat := by decide

theorem witness_BusyBlockRejectsCommands : (readingAt 2 0).state = .reading ∧ (unpackingAt 0).state = .unpacking := by decide

theorem witness_IgnoredBitsChangeNothing :
    ((0x0007FFF9#32).extractLsb' 0 3 = (0x00070001#32).extractLsb' 0 3 ∧
      (0x0007FFF9#32).extractLsb' 0 3 = 0b001#3 ∧
      (0x0007FFF9#32).extractLsb' 16 16 = (0x00070001#32).extractLsb' 16 16) ∧
    ((0xFFFFFFFB#32).extractLsb' 0 3 = (0x00000003#32).extractLsb' 0 3 ∧ (0xFFFFFFFB#32).extractLsb' 0 3 ≠ 0b001#3) ∧
    (0xFFFFFFFF#32).getLsbD 0 = (0x00000001#32).getLsbD 0 := by decide

/-! ### Witnesses: frame parser -/

theorem witness_HeaderByteIsChecked :
    (readingAt 0 0).state = .reading ∧ (readingAt 0 0).pos = 0#17 ∧ (readingAt 0 1).pos = 1#17 ∧
    (readingAt 0 2).pos = 2#17 := by decide

theorem witness_SizeBytesAreCheckedLittleEndian :
    (readingAt 0 3).state = .reading ∧ (readingAt 0 3).pos = 3#17 ∧ (readingAt 0 4).pos = 4#17 := by decide

/-- The first and the last payload byte, also at the largest `E`. -/
theorem witness_PayloadByteIsStored :
    (5 ≤ (readingAt 7 5).pos.toNat ∧ (readingAt 7 5).pos.toNat < (readingAt 7 5).expected.toNat + 5 ∧
      (readingAt 7 5).pos.toNat - 5 < (readingAt 7 5).payloadCap) ∧
    (5 ≤ (readingAt 65535 65539).pos.toNat ∧
      (readingAt 65535 65539).pos.toNat < (readingAt 65535 65539).expected.toNat + 5 ∧
      (readingAt 65535 65539).pos.toNat - 5 < (readingAt 65535 65539).payloadCap) := by decide

theorem witness_ChecksumByteCompletesRead :
    (readingAt 0 5).pos.toNat = (readingAt 0 5).expected.toNat + 5 ∧
    (readingAt 65535 65540).pos.toNat = (readingAt 65535 65540).expected.toNat + 5 := by decide

theorem witness_NoEarlyEndOfRead :
    (readingAt 2 6).pos.toNat < (readingAt 2 6).expected.toNat + 5 ∧ ∃ t, exec (.rxByte 0) (readingAt 2 6) = .next t :=
  ⟨by decide, _, rfl⟩

theorem witness_TimeoutRetriesAttempt : (readingAt 2 4).state = .reading ∧ (readingAt 2 4).cancel = false := by decide

theorem witness_TimeoutAbortsCancelledRead :
    ({ readingAt 2 4 with cancel := true } : State).state = .reading ∧
    ({ readingAt 2 4 with cancel := true } : State).cancel = true := by decide

theorem witness_LineErrorEndsRead : (readingAt 2 4).state = .reading ∧ afterFrame.state ≠ .reading := by decide

theorem witness_DisabledOperationsChangeNothing : afterFrame.state ≠ .reading ∧ (readingAt 2 4).state ≠ .unpacking := by decide

/-! ### Witnesses: unpacker -/

theorem witness_UnpackStepWritesTwoSamples :
    ((unpackingAt 0).state = .unpacking ∧ (unpackingAt 0).upkIdx.toNat + 1 < 4800 ∧
      3 * (unpackingAt 0).upkIdx.toNat + 2 < (unpackingAt 0).payloadCap) ∧
    (unpackingAt 4798).upkIdx.toNat + 1 < 4800 ∧
    ((unpackingAt 4799).upkIdx.toNat + 1 = 4800 ∧
      3 * (unpackingAt 4799).upkIdx.toNat + 2 < ({ unpackingAt 4799 with payloadCap := 14401 } : State).payloadCap) := by
  decide

/-! ### Witnesses: whole-machine rules -/

/-- Each register is changed by an operation that the rule names. -/
theorem witness_RegistersHaveTheirWritersOnly :
    (∃ t, exec (.wrCtrl 1#32) State.reset = .next t ∧ t.cancel ≠ State.reset.cancel) ∧
    (∃ t, exec (.cmdRead 0#13 7#16) afterFrame = .next t ∧ t.expected ≠ afterFrame.expected ∧
      t.payloadValid ≠ afterFrame.payloadValid ∧ t.pos ≠ afterFrame.pos) ∧
    (∃ t, exec .unpackStep (unpackingAt 4799) = .next t ∧ t.samplesValid ≠ (unpackingAt 4799).samplesValid ∧
      t.upkIdx ≠ (unpackingAt 4799).upkIdx ∧ t.state ≠ (unpackingAt 4799).state) ∧
    (∃ t, exec .timeout (readingAt 2 4) = .next t ∧ t.attempts ≠ (readingAt 2 4).attempts) ∧
    (∃ t, exec (.cmdReserved 0#2 0#13 0#16) (readingAt 2 4) = .next t ∧ t.cmdReject ≠ (readingAt 2 4).cmdReject) ∧
    (∃ t, exec (.cmdClear 0#13 0#16) afterBadChecksum = .next t ∧ t.errCksum ≠ afterBadChecksum.errCksum) ∧
    (∃ t, exec (.rd 0x0000A#18) State.reset = .next t ∧ t.hostData ≠ State.reset.hostData) := by
  refine ⟨⟨_, rfl, ?_⟩, ⟨_, rfl, ?_⟩, ⟨_, rfl, ?_⟩, ⟨_, rfl, ?_⟩, ⟨_, rfl, ?_⟩, ⟨_, rfl, ?_⟩, ⟨_, rfl, ?_⟩⟩ <;> decide

theorem witness_StoresHaveTheirWritersOnly :
    (∃ t, exec .unpackStep (unpackingAt 0) = .next t) ∧ (∃ t, exec (.rxByte 0x01) (readingAt 7 5) = .next t) ∧
    Instr.unpackStep ≠ .reset ∧ (∀ b, Instr.unpackStep ≠ .rxByte b) ∧ Instr.rxByte 0x01 ≠ .unpackStep :=
  ⟨⟨_, rfl⟩, ⟨_, rfl⟩, by decide, fun _ h => (nomatch h), by decide⟩

theorem witness_DoneIsLeftByCommandOrReset :
    (∃ t, exec (.cmdRead 0#13 7#16) afterFrame = .next t ∧ t.state ≠ .done) ∧
    (∃ t, exec (.cmdUnpack 0#13 0#16) { afterFrame with expected := 14400#16 } = .next t ∧ t.state ≠ .done) ∧
    (∃ t, exec (.cmdClear 0#13 0#16) afterFrame = .next t ∧ t.state ≠ .done) ∧
    (∃ t, exec .reset afterFrame = .next t ∧ t.state ≠ .done) ∧ afterFrame.state = .done := by
  refine ⟨⟨_, rfl, ?_⟩, ⟨_, rfl, ?_⟩, ⟨_, rfl, ?_⟩, ⟨_, rfl, ?_⟩, rfl⟩ <;> decide

theorem witness_OnlyFrameOkValidatesPayload :
    ∃ t, exec (.rxByte 0x0A) beforeChecksum = .next t ∧ beforeChecksum.payloadValid = false ∧ t.payloadValid = true :=
  ⟨_, rfl, rfl, rfl⟩

theorem witness_HostReadsDisturbNothing :
    (∀ addr, Instr.unpackStep ≠ .rd addr) ∧ ∃ t, exec .unpackStep (unpackingAt 0) = .next t :=
  ⟨fun _ h => (nomatch h), _, rfl⟩

theorem witness_CancelSteersOnlyTimeout :
    (Instr.rxErr ≠ .timeout ∧ (∀ addr, Instr.rxErr ≠ .rd addr) ∧ (∀ d, Instr.rxErr ≠ .wrCtrl d) ∧ Instr.rxErr ≠ .reset) ∧
    ∃ t, exec .rxErr (readingAt 2 4) = .next t :=
  ⟨⟨by decide, fun _ h => (nomatch h), fun _ h => (nomatch h), by decide⟩, _, rfl⟩

theorem witness_PayloadContentsSteerNothing :
    (∀ addr, Instr.unpackStep ≠ .rd addr) ∧ ∃ t, exec .unpackStep (unpackingAt 4799) = .next t :=
  ⟨fun _ h => (nomatch h), _, rfl⟩

/-! ### Witnesses: validator -/

/-- The frame of `[0x08, 0x00]` (W2). -/
def frame2 : List Byte := [0x5A, 0x77, 0xFF, 0x02, 0x00, 0x08, 0x00, 0x0A]

theorem witness_DecodeOkIsOneEquation : frame2.length = (2#16).toNat + 6 := by decide

theorem witness_WireRoundTrip : ([] : List Byte).length ≤ 65535 ∧ ([0x12, 0x55] : List Byte).length ≤ 65535 := by decide

/-- The first and last offset of each part: header, size, payload, checksum. -/
theorem witness_SingleBitFlipIsReported :
    toWire [0x08, 0x00] = some frame2 ∧ (∀ o ∈ [0, 2, 3, 4, 5, 6, 7], o < frame2.length) ∧ 0 < 8 ∧ 7 < 8 := by decide

theorem witness_ZeroXorPayloadChangeIsMissed :
    toWire [0x08, 0x00] = some frame2 ∧ ([0x00, 0x08] : List Byte).length = ([0x08, 0x00] : List Byte).length ∧
    xorFold [0x00, 0x08] = xorFold [0x08, 0x00] := by decide

/-! ### Witnesses: headlines -/

theorem witness_ParserComputesDecode :
    ((readingAt 2 0).state = .reading ∧ (readingAt 2 0).pos = 0#17 ∧ (readingAt 2 0).acc = 0#8 ∧
      (readingAt 2 0).errMagic = false ∧ (readingAt 2 0).errSize = false ∧
      (readingAt 2 0).expected.toNat ≤ (readingAt 2 0).payloadCap ∧
      frame2.length = (readingAt 2 0).expected.toNat + 6) ∧
    ([0, 0, 0, 0, 0, 0] : List Byte).length = (readingAt 0 0).expected.toNat + 6 := by decide

/-- READING with a whole frame and two more bytes on the line. -/
def frameOnLine : State := { readingAt 2 0 with line := frame2 ++ [0x5A, 0x77], moves := List.replicate 8 .lineByte ++ [.timer] }

theorem witness_ReadConsumesExactlyOneFrame :
    frameOnLine.state = .reading ∧ frameOnLine.pos = 0#17 ∧ frameOnLine.expected.toNat ≤ frameOnLine.payloadCap ∧
    frame2.length = frameOnLine.expected.toNat + 6 ∧ frameOnLine.line = frame2 ++ [0x5A, 0x77] ∧
    frameOnLine.moves = List.replicate (frameOnLine.expected.toNat + 6) .lineByte ++ [.timer] := by decide

theorem witness_RetriedReadCountsAttempts :
    afterFrame.state = .done ∧ afterFrame.cancel = false ∧ (2#16).toNat ≤ afterFrame.payloadCap ∧
    (∀ l ∈ ([[], [0x5A, 0x77, 0xFF, 0x02, 0x00, 0x08, 0x00]] : List (List Byte)), l.length < (2#16).toNat + 6) ∧
    ([[], [0x5A, 0x77, 0xFF, 0x02, 0x00, 0x08, 0x00]] : List (List Byte)).length + 1 < 2 ^ 32 ∧
    frame2.length = (2#16).toNat + 6 := by decide

theorem witness_UnpackRunComputesUnpack :
    (unpackingAt 0).state = .unpacking ∧ (unpackingAt 0).upkIdx = 0#16 ∧ 14400 ≤ (unpackingAt 0).expected.toNat ∧
    (unpackingAt 0).expected.toNat ≤ (unpackingAt 0).payloadCap := by decide

theorem witness_AnyEnabledChoiceIsARun :
    Inv State.reset ∧ State.reset.host = [] ∧ State.reset.line = [] ∧ State.reset.moves = [] ∧
    (∀ u : State, enabled (ofInput ((fun _ => .hostRd 0x00002#18) u)) u = true) ∧
    (∀ u : State, enabled (ofInput ((fun v => if v.state = .reading then .lineByte 0x5A#8
      else if v.state = .unpacking then .engine else .hostWr 0#18 0x00070001#32) u)) u = true) := by
  refine ⟨by constructor <;> decide, rfl, rfl, rfl, fun _ => rfl, fun u => ?_⟩
  cases h : u.state <;> simp [h, enabled, ofInput, ofCommand, cmdOp]

/-! Infinite runs: one that ends an unpack, one that ends a cancelled read. After it the block is IDLE or DONE, and the outside
places a line error before every step, which has no effect there (R132). -/

/-- Neither reading nor unpacking, with a line error to come next. -/
def Quiet (s : State) : Prop := s.moves = [.lineErr] ∧ (s.state = .done ∨ s.state = .idle)

/-- A line error placed. -/
def placeErr (s : State) : State := { s with moves := s.moves ++ [.lineErr] }

theorem placed_placeErr (s : State) : Placed s (placeErr s) := ⟨[], [], [.lineErr], by simp [placeErr]⟩

theorem quiet_step (s : State) (h : Quiet s) : ∃ t, step s = .next t ∧ Quiet (placeErr t) := by
  obtain ⟨hm, hs⟩ := h
  have hr : rxReady (takeMove s) = false := by rcases hs with hs | hs <;> simp [rxReady, takeMove, hs]
  have hc : chosenMove s = .lineErr := by simp [chosenMove, hm]
  refine ⟨takeMove s, by simp [step, fetch, hc, ofInput, exec, execRxErr, hr], ?_, hs⟩
  simp [placeErr, takeMove, hm]

/-- The state that the `n`-th step starts from, while steps answer next states. -/
def runFrom (s : State) : Nat → State
  | 0 => s
  | n + 1 =>
    match step (runFrom s n) with
    | .next t => placeErr t
    | .fault _ => s
    | .refused _ => s

theorem runFrom_quiet {s t : State} (h : step s = .next t) (ht : Quiet (placeErr t)) : ∀ n, Quiet (runFrom s (n + 1))
  | 0 => by simpa [runFrom, h] using ht
  | n + 1 => by
    obtain ⟨u, hu, hq⟩ := quiet_step _ (runFrom_quiet h ht n)
    rw [runFrom, hu]
    exact hq

theorem runFrom_isRun {s t : State} (h : step s = .next t) (ht : Quiet (placeErr t)) : IsRun (runFrom s)
  | 0 => ⟨t, h, by simpa [runFrom, h] using placed_placeErr t⟩
  | n + 1 => by
    obtain ⟨u, hu, -⟩ := quiet_step _ (runFrom_quiet h ht n)
    refine ⟨u, hu, ?_⟩
    rw [runFrom.eq_2 s (n + 1), hu]
    exact placed_placeErr u

theorem quiet_not_busy {s : State} (h : Quiet s) : s.state ≠ .unpacking ∧ s.state ≠ .reading := by
  rcases h.2 with h | h <;> simp [h]

/-- The last triplet to do, the engine to move. -/
def lastTriplet : State := { unpackingAt 4799 with moves := [.engine] }

theorem lastTriplet_step : ∃ t, step lastTriplet = .next t ∧ Quiet (placeErr t) := ⟨_, rfl, rfl, .inl rfl⟩

theorem witness_FairEngineEndsEveryUnpack :
    ∃ tr : Nat → State, IsRun tr ∧ EngineFair tr ∧ Inv (tr 0) ∧ (tr 0).state = .unpacking := by
  obtain ⟨t, h, hq⟩ := lastTriplet_step
  refine ⟨runFrom lastTriplet, runFrom_isRun h hq, ?_, ?_, rfl⟩
  · intro n hn
    exact absurd (hn (n + 1) (by omega)) (quiet_not_busy (runFrom_quiet h hq n)).1
  · show Inv lastTriplet
    constructor <;> decide

/-- READING with CANCEL set, the timer to move. -/
def cancelledRead : State := { readingAt 2 0 with cancel := true, moves := [.timer] }

theorem cancelledRead_step : ∃ t, step cancelledRead = .next t ∧ Quiet (placeErr t) := ⟨_, rfl, rfl, .inl rfl⟩

theorem witness_LiveTimerEndsCancelledRead :
    ∃ tr : Nat → State, IsRun tr ∧ TimerLive tr ∧ (tr 0).state = .reading ∧
      (∀ m, 0 ≤ m → (tr m).state = .reading → (tr m).cancel = true) ∧ (∀ m, 0 ≤ m → ¬takesByte tr m) := by
  obtain ⟨t, h, hq⟩ := cancelledRead_step
  refine ⟨runFrom cancelledRead, runFrom_isRun h hq, ?_, rfl, ?_, ?_⟩
  · intro n hn _
    exact absurd (hn (n + 1) (by omega)) (quiet_not_busy (runFrom_quiet h hq n)).2
  · rintro (_ | m) - hr
    · rfl
    · exact absurd hr (quiet_not_busy (runFrom_quiet h hq m)).2
  · rintro (_ | m) - ⟨hr, hb, -⟩
    · exact nomatch (show Move.timer = Move.lineByte from hb)
    · exact absurd hr (quiet_not_busy (runFrom_quiet h hq m)).2

/-! ### The RTL layer -/

/-- A bus that delivers what the host drives in the same cycle and answers in the next one. -/
def directBus : HostBus where
  Signals := Option (Addr × Word) × Option Addr
  Phase := Option Word
  write _ c := c.1
  read _ c := c.2
  next _ _ _ word := word
  answer word := word

/-- A bus that delivers an access one cycle late, and drops it in reset. -/
def lateBus : HostBus where
  Signals := Option (Addr × Word)
  Phase := Option (Addr × Word)
  write held _ := held
  read _ _ := none
  next _ c reset _ := if reset then none else c
  answer _ := none

/-- `T_CYC` = 5 (R6: 130 ms at 38 Hz, rounded up), reset active low. -/
def slowClock : RtlParams := ⟨38, false, directBus⟩

/-- The same with the late bus, reset active high. -/
def lateClock : RtlParams := ⟨38, true, lateBus⟩

/-- A cycle with a byte, a host write and a host read, and one in which the timer expires. -/
theorem witness_ClockCycleIsEnabledRun :
    (∃ r', rtlCycle (p := slowClock) ⟨true, false, some 0x5A, (some (0#18, 3#32), some 2#18)⟩ ⟨readingAt 2 0, 4, none⟩ =
      .next r') ∧
    (∃ r', rtlCycle (p := slowClock) ⟨true, false, none, (none, none)⟩ ⟨readingAt 2 0, 4, none⟩ = .next r') :=
  ⟨⟨_, rfl⟩, ⟨_, rfl⟩⟩

/-- One cycle below the limit, and the two sides of the limit itself after that cycle. -/
theorem witness_SilentLineTimesOutAtLimit :
    (readingAt 2 0).state = .reading ∧ 3 < tCyc slowClock ∧
    (∀ c ∈ [(⟨true, false, none, (some (1#18, 1#32), none)⟩ : Cycle slowClock)], lineSilent c = true) ∧
    1 < tCyc slowClock - 3 ∧ 1 + 1 = tCyc slowClock - 3 ∧
    (∃ m, rtlCycles (p := slowClock) [⟨true, false, none, (some (1#18, 1#32), none)⟩] ⟨readingAt 2 0, 3, none⟩ = .next m ∧
      m.block.cancel = true ∧ busWrite ⟨true, false, none, (none, none)⟩ m = none) ∧
    (∃ m, rtlCycles (p := slowClock) [⟨true, false, none, (none, none)⟩] ⟨readingAt 2 0, 3, none⟩ = .next m ∧
      m.block.cancel = false ∧ busWrite ⟨true, false, none, (none, none)⟩ m = none) := by
  refine ⟨rfl, by decide, ?_, by decide, by decide, ⟨_, rfl, rfl, rfl⟩, ⟨_, rfl, rfl, rfl⟩⟩
  intro c hc
  rw [List.mem_singleton.mp hc]
  decide

/-- `T_CYC` rounds up (R6): 130 ms at 1 MHz and at 1 Hz. -/
theorem test_tCyc : tCyc ⟨1000000, true, directBus⟩ = 130000 ∧ tCyc ⟨1, true, directBus⟩ = 1 := by decide

/-- A byte and the timer's expiry in one cycle: the byte is accepted and there is no timeout (R246). -/
theorem test_byte_beats_timer :
    rtlCycle (p := slowClock) ⟨true, false, some 0x5A, (none, none)⟩ ⟨readingAt 2 0, 4, none⟩ =
      .next ⟨{ readingAt 2 0 with pos := 1#17, magicRx0 := 0x5A#8 }, 0, none⟩ := rfl

/-- The same level of the reset input resets one build and not the other (R6, R230). -/
theorem test_reset_polarity :
    resetActive (p := slowClock) ⟨false, false, none, (none, none)⟩ = true ∧
    resetActive (p := lateClock) ⟨false, false, none, none⟩ = false := by decide

/-- The late bus delivers a write in the cycle after the one in which the host drives it. -/
theorem test_late_bus_delivers :
    ∃ r', rtlCycles (p := lateClock) [⟨false, false, none, some (1#18, 1#32)⟩, ⟨false, false, none, none⟩]
        ⟨State.reset, 0, none⟩ = .next r' ∧ r'.block.cancel = true := ⟨_, rfl, rfl⟩

end Sys2Proof.Tests
end

/-! ### Decoding an input (R86)

Where each kind of host write decodes to, which input the operation is carried back to, and from these O3. -/

namespace Sys2Proof

/-! The three places of a host write. -/

@[simp] theorem ofInput_hostWr_cmd (d : Word) : ofInput (.hostWr 0#18 d) = ofCommand d := rfl

@[simp] theorem ofInput_hostWr_ctrl (d : Word) : ofInput (.hostWr 1#18 d) = .wrCtrl d := rfl

theorem ofInput_hostWr_ignored {addr : Addr} (hcmd : addr ≠ 0#18) (hctrl : addr ≠ 1#18) (d : Word) :
    ofInput (.hostWr addr d) = .wrIgnored addr d := by
  simp only [ofInput, if_neg hcmd, if_neg hctrl]

/-! The command selected by OP (R76). -/

theorem ofCommand_nop {d : Word} (h : cmdOp d = 0b000#3) : ofCommand d = .cmdNop (cmdRsv d) (cmdArg d) := by
  simp [ofCommand, h]

theorem ofCommand_read {d : Word} (h : cmdOp d = 0b001#3) : ofCommand d = .cmdRead (cmdRsv d) (cmdArg d) := by
  simp [ofCommand, h]

theorem ofCommand_unpack {d : Word} (h : cmdOp d = 0b010#3) : ofCommand d = .cmdUnpack (cmdRsv d) (cmdArg d) := by
  simp [ofCommand, h]

theorem ofCommand_clear {d : Word} (h : cmdOp d = 0b011#3) : ofCommand d = .cmdClear (cmdRsv d) (cmdArg d) := by
  simp [ofCommand, h]

/-- The top bit of OP separates the reserved codes from the four named ones. -/
theorem getLsbD_two_ne_named {op : BitVec 3} (h : op.getLsbD 2 = true) :
    op ≠ 0b000#3 ∧ op ≠ 0b001#3 ∧ op ≠ 0b010#3 ∧ op ≠ 0b011#3 := by
  revert op
  decide

theorem ofCommand_reserved {d : Word} (h : (cmdOp d).getLsbD 2 = true) :
    ofCommand d = .cmdReserved ((cmdOp d).setWidth 2) (cmdRsv d) (cmdArg d) := by
  obtain ⟨hnop, hread, hunpack, hclear⟩ := getLsbD_two_ne_named h
  simp only [ofCommand, if_neg hnop, if_neg hread, if_neg hunpack, if_neg hclear]

theorem getLsbD_two_cmdOp (d : Word) : (cmdOp d).getLsbD 2 = d.getLsbD 2 := by
  simp [cmdOp]

theorem setWidth_two_cmdOp (d : Word) : (cmdOp d).setWidth 2 = d.extractLsb' 0 2 := by
  simp [cmdOp, BitVec.setWidth_extractLsb'_of_le]

/-- Every OP is one of the four named codes or has its top bit set; then its low two bits give it back. -/
theorem op_cases (op : BitVec 3) :
    op = 0b000#3 ∨ op = 0b001#3 ∨ op = 0b010#3 ∨ op = 0b011#3 ∨
      op.getLsbD 2 = true ∧ 0b100#3 ||| (op.setWidth 2).setWidth 3 = op := by
  revert op
  decide

/-! The operation is well formed, and it is carried by the input it came from. -/

theorem wf_ofCommand (d : Word) : (ofCommand d).wf = true := by
  obtain h | h | h | h | ⟨h, -⟩ := op_cases (cmdOp d)
  · rw [ofCommand_nop h]; rfl
  · rw [ofCommand_read h]; rfl
  · rw [ofCommand_unpack h]; rfl
  · rw [ofCommand_clear h]; rfl
  · rw [ofCommand_reserved h]; rfl

theorem toInput_ofCommand (d : Word) : toInput (ofCommand d) = .hostWr 0#18 d := by
  obtain h | h | h | h | ⟨h, hop⟩ := op_cases (cmdOp d)
  · rw [ofCommand_nop h, toInput, ← h, cmdWord_fields]
  · rw [ofCommand_read h, toInput, ← h, cmdWord_fields]
  · rw [ofCommand_unpack h, toInput, ← h, cmdWord_fields]
  · rw [ofCommand_clear h, toInput, ← h, cmdWord_fields]
  · rw [ofCommand_reserved h, toInput, hop, cmdWord_fields]

/-- The operation of a host write, at each of the three places. -/
theorem ofInput_hostWr_cases (addr : Addr) (d : Word) :
    addr = 0#18 ∧ ofInput (.hostWr addr d) = ofCommand d ∨
    addr = 1#18 ∧ ofInput (.hostWr addr d) = .wrCtrl d ∨
    (addr ≠ 0#18 ∧ addr ≠ 1#18) ∧ ofInput (.hostWr addr d) = .wrIgnored addr d := by
  by_cases hcmd : addr = 0#18
  · subst hcmd
    exact .inl ⟨rfl, rfl⟩
  · by_cases hctrl : addr = 1#18
    · subst hctrl
      exact .inr (.inl ⟨rfl, rfl⟩)
    · exact .inr (.inr ⟨⟨hcmd, hctrl⟩, ofInput_hostWr_ignored hcmd hctrl d⟩)

theorem wf_ofInput (i : Input) : (ofInput i).wf = true := by
  cases i with
  | hostWr addr d =>
    obtain ⟨-, h⟩ | ⟨-, h⟩ | ⟨⟨hcmd, hctrl⟩, h⟩ := ofInput_hostWr_cases addr d
    · rw [h, wf_ofCommand]
    · rw [h]; rfl
    · simp [h, Instr.wf, ignoredAddr, hcmd, hctrl]
  | hostRd | lineByte | lineErr | timer | engine | reset => rfl

theorem toInput_ofInput (i : Input) : toInput (ofInput i) = i := by
  cases i with
  | hostWr addr d =>
    obtain ⟨rfl, h⟩ | ⟨rfl, h⟩ | ⟨-, h⟩ := ofInput_hostWr_cases addr d
    · rw [h, toInput_ofCommand]
    · rw [h, toInput]
    · rw [h, toInput]
  | hostRd | lineByte | lineErr | timer | engine | reset => rfl

/-- Settles O3: the clauses of R86 are the equations above, one for each place of a host write and each OP; the other formats
decode by definition. -/
theorem everyInputIsOneOperation : Obligations.EveryInputIsOneOperation := by
  refine ⟨fun _ => rfl, fun d => ⟨ofCommand_nop, ofCommand_read, ofCommand_unpack, ofCommand_clear, fun h => ?reserved⟩,
    ofInput_hostWr_ctrl, fun _ d hcmd hctrl => ofInput_hostWr_ignored hcmd hctrl d, fun _ => rfl, rfl, rfl, rfl, rfl,
    fun i => ⟨wf_ofInput i, toInput_ofInput i⟩⟩
  case reserved =>
    rw [← getLsbD_two_cmdOp] at h
    rw [ofInput_hostWr_cmd, ofCommand_reserved h, setWidth_two_cmdOp, cmdRsv, cmdArg]

end Sys2Proof

/-! ### The frame validator (40_frame_validator.md)

`Decode` on a sequence of `E + 6` bytes is the verdict on three checks of that sequence, the third of them one XOR equation
(R105); O48, O49 and O50 follow from what the three checks say of any sequence, of a wire form, and of a sequence with one byte
changed. -/

namespace Sys2Proof

open Sys2Proof.Machine

/-! `Decode` as one verdict. -/

/-- R56, R73: the little-endian size is the high byte followed by the low byte. -/
theorem sizeField_eq_append (lo hi : Byte) : sizeField lo hi = (hi ++ lo : BitVec 16) := by
  rw [sizeField, ← BitVec.setWidth_append_eq_shiftLeft_setWidth_or, BitVec.setWidth_eq]

theorem checksum_bne_eq (lo hi : Byte) (q : List Byte) (ck : Byte) :
    (checksum lo hi q != ck) = (xorFold (lo :: hi :: (q ++ [ck])) != 0#8) := by
  rw [Bool.eq_iff_iff, bne_iff_ne, bne_iff_ne, checksum, ← List.cons_append, ← List.cons_append, xorFold_snoc, ne_eq, ne_eq,
    BitVec.xor_eq_zero_iff]

/-- The three checks of R105 on a whole sequence, each flag true when its check fails. -/
def frameChecks (f : List Byte) (e : BitVec 16) : CheckFlags :=
  ⟨f.take 3 != [0x5A#8, 0x77#8, 0xFF#8], (f.getD 4 0#8 ++ f.getD 3 0#8 : BitVec 16) != e, xorFold (f.drop 3) != 0#8⟩

/-- The frame `Decode` returns when every check passes: the bytes at the offsets `E` gives (R103). -/
def frameAt (f : List Byte) (e : BitVec 16) : Frame := ⟨e, (f.drop 5).take e.toNat, f.getD (e.toNat + 5) 0#8⟩

theorem frameDecode_eq_verdict {f : List Byte} {e : BitVec 16} (hlen : f.length = e.toNat + 6) :
    frameDecode f e = verdict (frameChecks f e) (frameAt f e) := by
  match f, hlen with
  | m0 :: m1 :: m2 :: lo :: hi :: rest, hlen =>
    have hrest : rest.length = e.toNat + 1 := by simpa using hlen
    have hmagic : (!magicOk m0 m1 m2) = ([m0, m1, m2] != [0x5A#8, 0x77#8, 0xFF#8]) := by
      simp [bne, magicOk, Config.magic0, Config.magic1, Config.magic2, Bool.and_assoc]
    have hsize : (!sizeOk lo hi e) = ((hi ++ lo : BitVec 16) != e) := by rw [sizeOk, sizeField_eq_append]; rfl
    have hsplit : rest.take e.toNat ++ [rest.getD e.toNat 0#8] = rest := by
      rw [List.getD_eq_getElem _ _ (by omega), List.take_append_getElem (by omega), ← hrest, List.take_length]
    rw [frameDecode, if_pos hlen]
    simp only [hmagic, hsize, checksum_bne_eq, hsplit]
    rfl

/-- R103: every failed check has an error of its own, in priority order. -/
theorem verdict_ok_iff (flags : CheckFlags) (frame : Frame) :
    (∃ fr fl, verdict flags frame = .ok fr fl) ↔ flags = ⟨false, false, false⟩ := by
  match flags with
  | ⟨true, _, _⟩ => simp [verdict]
  | ⟨false, true, _⟩ => simp [verdict]
  | ⟨false, false, true⟩ => simp [verdict]
  | ⟨false, false, false⟩ => simp [verdict]

theorem frameChecks_eq_clear_iff (f : List Byte) (e : BitVec 16) :
    frameChecks f e = ⟨false, false, false⟩ ↔
      f.take 3 = [0x5A#8, 0x77#8, 0xFF#8] ∧ (f.getD 4 0#8 ++ f.getD 3 0#8 : BitVec 16) = e ∧ xorFold (f.drop 3) = 0#8 := by
  rw [frameChecks, CheckFlags.mk.injEq, bne_eq_false_iff_eq, bne_eq_false_iff_eq, bne_eq_false_iff_eq]

/-- Settles O48: `Decode` is the verdict on the three checks, and the verdict is `Ok` when none of them fails. -/
theorem decodeOkIsOneEquation : Obligations.DecodeOkIsOneEquation := by
  intro f e hlen
  rw [frameDecode_eq_verdict hlen, verdict_ok_iff, frameChecks_eq_clear_iff]

/-! The wire form passes every check. -/

theorem lengthHi_append_lengthLo (p : List Byte) : (lengthHi p ++ lengthLo p : BitVec 16) = BitVec.ofNat 16 p.length := by
  apply BitVec.eq_of_toNat_eq
  rw [BitVec.toNat_append, ← Nat.shiftLeft_add_eq_or_of_lt (lengthLo p).isLt, Nat.shiftLeft_eq]
  simp only [lengthHi, lengthLo, BitVec.toNat_ofNat]
  omega

theorem toWire_of_length_le {p : List Byte} (hp : p.length ≤ 65535) :
    toWire p = some (0x5A#8 :: 0x77#8 :: 0xFF#8 :: lengthLo p :: lengthHi p ::
      (p ++ [checksum (lengthLo p) (lengthHi p) p])) := if_pos hp

/-- R104: only a payload of at most 65535 bytes has a wire form. -/
theorem length_le_of_toWire {p f : List Byte} (h : toWire p = some f) : p.length ≤ 65535 := by
  by_contra hp
  simp [toWire, hp] at h

theorem toNat_ofNat_length {p : List Byte} (hp : p.length ≤ 65535) : (BitVec.ofNat 16 p.length).toNat = p.length := by
  rw [BitVec.toNat_ofNat]
  omega

theorem length_toWire {p f : List Byte} (h : toWire p = some f) : f.length = p.length + 6 := by
  rw [toWire_of_length_le (length_le_of_toWire h)] at h
  cases h
  simp

theorem frameChecks_toWire {p f : List Byte} (h : toWire p = some f) :
    frameChecks f (BitVec.ofNat 16 p.length) = ⟨false, false, false⟩ := by
  rw [toWire_of_length_le (length_le_of_toWire h)] at h
  cases h
  refine (frameChecks_eq_clear_iff ..).mpr ⟨rfl, lengthHi_append_lengthLo p, ?_⟩
  show xorFold ((lengthLo p :: lengthHi p :: p) ++ [xorFold (lengthLo p :: lengthHi p :: p)]) = 0#8
  rw [xorFold_snoc, BitVec.xor_self]

theorem frameAt_toWire {p f : List Byte} (h : toWire p = some f) :
    frameAt f (BitVec.ofNat 16 p.length) =
      ⟨BitVec.ofNat 16 p.length, p, checksum (lengthLo p) (lengthHi p) p⟩ := by
  have hp := length_le_of_toWire h
  rw [toWire_of_length_le hp] at h
  cases h
  simp [frameAt, Nat.mod_eq_of_lt (Nat.lt_succ_of_le hp)]

/-- Settles O49: the wire form passes the three checks, and its payload and checksum stand where `Decode` reads them. -/
theorem wireRoundTrip : Obligations.WireRoundTrip := by
  intro p hp
  have hwire := toWire_of_length_le hp
  have hlen := length_toWire hwire
  refine ⟨_, hwire, hlen, ?_⟩
  rw [frameDecode_eq_verdict (by rw [hlen, toNat_ofNat_length hp]), frameChecks_toWire hwire, frameAt_toWire hwire]
  rfl

/-! One byte changed by a mask: what each check sees of it. -/

/-- `f` with the bits of `d` flipped in byte `o` (R107). -/
def flipByte (f : List Byte) (o : Nat) (d : Byte) : List Byte := f.set o (f.getD o 0#8 ^^^ d)

@[simp] theorem length_flipByte (f : List Byte) (o : Nat) (d : Byte) : (flipByte f o d).length = f.length :=
  List.length_set

theorem getD_flipByte_same {f : List Byte} {o : Nat} (ho : o < f.length) (d : Byte) :
    (flipByte f o d).getD o 0#8 = f.getD o 0#8 ^^^ d := by
  simp [flipByte, ho]

theorem getD_flipByte_of_ne (f : List Byte) {o j : Nat} (h : o ≠ j) (d : Byte) :
    (flipByte f o d).getD j 0#8 = f.getD j 0#8 := by
  simp [flipByte, List.getElem?_set_ne h]

theorem take_flipByte_of_le (f : List Byte) {o k : Nat} (h : k ≤ o) (d : Byte) : (flipByte f o d).take k = f.take k :=
  List.take_set_of_le h

theorem take_flipByte_of_lt (f : List Byte) {o k : Nat} (h : o < k) (d : Byte) :
    (flipByte f o d).take k = flipByte (f.take k) o d := by
  simp [flipByte, List.take_set, List.getElem?_take_of_lt h]

theorem drop_flipByte_of_lt (f : List Byte) {o k : Nat} (h : o < k) (d : Byte) : (flipByte f o d).drop k = f.drop k :=
  List.drop_set_of_lt h

theorem drop_flipByte_of_le (f : List Byte) {o k : Nat} (h : k ≤ o) (d : Byte) :
    (flipByte f o d).drop k = flipByte (f.drop k) (o - k) d := by
  simp [flipByte, List.drop_set, Nat.not_lt.mpr h, Nat.add_sub_cancel' h]

/-- The XOR fold changes by the mask, wherever the byte is. -/
theorem xorFold_flipByte {f : List Byte} {o : Nat} (ho : o < f.length) (d : Byte) :
    xorFold (flipByte f o d) = xorFold f ^^^ d := by
  induction f generalizing o with
  | nil => exact absurd ho (Nat.not_lt_zero o)
  | cons b f ih =>
    cases o with
    | zero =>
      show b ^^^ d ^^^ xorFold f = b ^^^ xorFold f ^^^ d
      rw [BitVec.xor_assoc, BitVec.xor_comm d, BitVec.xor_assoc]
    | succ o =>
      show b ^^^ xorFold (flipByte f o d) = b ^^^ xorFold f ^^^ d
      rw [ih (Nat.lt_of_succ_lt_succ ho), BitVec.xor_assoc]

theorem xor_ne_self (b : Byte) {d : Byte} (hd : d ≠ 0#8) : b ^^^ d ≠ b := by
  simpa using hd

theorem xorFold_flipByte_ne {f : List Byte} {o : Nat} (ho : o < f.length) {d : Byte} (hd : d ≠ 0#8) :
    xorFold (flipByte f o d) ≠ xorFold f := by
  rw [xorFold_flipByte ho]
  exact xor_ne_self _ hd

theorem append_byte_inj {hi lo hi' lo' : Byte} : (hi ++ lo : BitVec 16) = hi' ++ lo' ↔ hi = hi' ∧ lo = lo' := by
  refine ⟨fun h => ⟨?_, ?_⟩, fun ⟨hhi, hlo⟩ => by rw [hhi, hlo]⟩
  · rw [← BitVec.extractLsb'_append_eq_left (a := hi) (b := lo), h, BitVec.extractLsb'_append_eq_left]
  · rw [← BitVec.extractLsb'_append_eq_right (a := hi) (b := lo), h, BitVec.extractLsb'_append_eq_right]

section
variable {f : List Byte} {o : Nat} {d : Byte}

/-- The first `k` bytes show the change exactly when it is among them; with `k = 3` this is the header check (R101). -/
theorem take_flipByte_eq_iff (ho : o < f.length) (hd : d ≠ 0#8) (k : Nat) :
    (flipByte f o d).take k = f.take k ↔ k ≤ o := by
  refine ⟨fun h => Nat.le_of_not_lt fun hlt => ?_, fun h => take_flipByte_of_le f h d⟩
  rw [take_flipByte_of_lt f hlt] at h
  exact xorFold_flipByte_ne (by rw [List.length_take]; omega) hd (congrArg xorFold h)

/-- The XOR from offset `k` on shows the change exactly when it is at `k` or later; with `k = 3` this is the checksum (R100). -/
theorem xorFold_drop_flipByte_eq_iff (ho : o < f.length) (hd : d ≠ 0#8) (k : Nat) :
    xorFold ((flipByte f o d).drop k) = xorFold (f.drop k) ↔ o < k := by
  refine ⟨fun h => Nat.lt_of_not_le fun hle => ?_, fun h => by rw [drop_flipByte_of_lt f h]⟩
  rw [drop_flipByte_of_le f hle] at h
  exact xorFold_flipByte_ne (by rw [List.length_drop]; omega) hd h

theorem getD_flipByte_eq_iff (ho : o < f.length) (hd : d ≠ 0#8) (j : Nat) :
    (flipByte f o d).getD j 0#8 = f.getD j 0#8 ↔ o ≠ j := by
  refine ⟨?_, fun h => getD_flipByte_of_ne f h d⟩
  rintro h rfl
  rw [getD_flipByte_same ho] at h
  exact xor_ne_self _ hd h

/-- R107: which checks one changed byte makes fail. The header is outside the checksum, the size bytes are inside it. -/
theorem frameChecks_flipByte {e : BitVec 16} (hok : frameChecks f e = ⟨false, false, false⟩) (ho : o < f.length)
    (hd : d ≠ 0#8) :
    frameChecks (flipByte f o d) e = ⟨decide (o < 3), decide (o = 3 ∨ o = 4), decide (3 ≤ o)⟩ := by
  obtain ⟨hmagic, rfl, hxor⟩ := (frameChecks_eq_clear_iff f e).mp hok
  rw [frameChecks, CheckFlags.mk.injEq]
  refine ⟨?header, ?sizeBytes, ?xor⟩ <;> rw [Bool.eq_iff_iff, bne_iff_ne, ne_eq, decide_eq_true_iff]
  case header =>
    rw [← hmagic, take_flipByte_eq_iff ho hd]
    omega
  case sizeBytes =>
    rw [append_byte_inj, getD_flipByte_eq_iff ho hd, getD_flipByte_eq_iff ho hd]
    omega
  case xor =>
    rw [← hxor, xorFold_drop_flipByte_eq_iff ho hd]
    omega

end

theorem one_shiftLeft_ne_zero {n : Nat} (hn : n < 8) : 1#8 <<< n ≠ 0#8 := by
  revert n
  decide

/-- Settles O50: each part of the frame is under its own checks, and the verdict names the first that fails. -/
theorem singleBitFlipIsReported : Obligations.SingleBitFlipIsReported := by
  intro p f o n hwire ho hn
  have hlen : f.length = (BitVec.ofNat 16 p.length).toNat + 6 := by
    rw [toNat_ofNat_length (length_le_of_toWire hwire), length_toWire hwire]
  have hchecks := frameChecks_flipByte (frameChecks_toWire hwire) ho (one_shiftLeft_ne_zero hn)
  rw [← flipByte, frameDecode_eq_verdict (by rw [length_flipByte, hlen]), hchecks]
  obtain hheader | hsize | hcovered : o < 3 ∨ (o = 3 ∨ o = 4) ∨ 5 ≤ o := by omega
  · simp [verdict, hheader, show o ≠ 3 by omega, show o ≠ 4 by omega]
  · obtain rfl | rfl := hsize <;> rfl
  · simp [verdict, show ¬o < 3 by omega, show ¬o < 5 by omega, show o ≠ 3 by omega, show o ≠ 4 by omega,
      show 3 ≤ o by omega]

end Sys2Proof

/-! ### The frame parser (41_frame_parser.md)

What CMD READ, RX_BYTE, RX_ERR and TIMEOUT answer, one equation a branch, in terms of the named updates; O18, O31, O33, O35 and
O37 write those updates out register by register. -/

namespace Sys2Proof

open Sys2Proof.Machine

/-! CMD READ (R120). -/

/-- R176: the states in which READ, UNPACK and CLEAR are rejected. -/
theorem commandOpen_eq_false_iff (s : State) : commandOpen s = false ↔ s.state = .reading ∨ s.state = .unpacking := by
  rw [commandOpen]
  cases s.state <;> decide

theorem exec_cmdRead_accepted (rsv : BitVec 13) {e : BitVec 16} {s : State} (hopen : s.state = .idle ∨ s.state = .done)
    (hcap : e.toNat ≤ s.payloadCap) : exec (.cmdRead rsv e) s = .next (startRead e s) :=
  if_pos (by rw [(commandOpen_iff s).mpr hopen, decide_eq_true hcap, Bool.and_true])

theorem exec_cmdRead_rejected (rsv : BitVec 13) {e : BitVec 16} {s : State}
    (h : s.state = .reading ∨ s.state = .unpacking ∨ s.payloadCap < e.toNat) :
    exec (.cmdRead rsv e) s = .next (reject s) := by
  refine if_neg ?_
  rw [← or_assoc, ← commandOpen_eq_false_iff] at h
  obtain hbusy | hcap := h
  · simp [hbusy]
  · simp [hcap]

/-- Settles O18: each branch of R120 is a named update, and a CMD word with OP 1 decodes to READ with `E` its ARG. -/
theorem readStartsOrIsRejected : Obligations.ReadStartsOrIsRejected :=
  ⟨fun rsv _ _ => ⟨exec_cmdRead_accepted rsv, exec_cmdRead_rejected rsv⟩, fun d hop => ⟨cmdRsv d, ofCommand_read hop⟩⟩

/-! RX_BYTE while READING, by the field of the frame offset (R122). -/

theorem exec_rxByte_of_reading (b : Byte) {s : State} (h : s.state = .reading) : exec (.rxByte b) s = acceptByte b s :=
  if_pos ((rxReady_iff s).mpr h)

theorem frameField_checksum (e : Nat) : frameField (e + 5) e = .checksum := by
  simp [frameField]

theorem acceptByte_sizeLo (b : Byte) {s : State} (h : s.pos = 3#17) :
    acceptByte b s = .next { s with pos := 4#17, sizeLo := b, acc := s.acc ^^^ b } := by
  have hfield : frameField s.pos.toNat s.expected.toNat = .sizeLo := by rw [h]; rfl
  rw [acceptByte, hfield]
  simp [advance, acceptSizeLo, h]

/-- R125: the new high byte is compared together with the SIZE_LO kept from the byte before it. -/
theorem acceptByte_sizeHi (b : Byte) {s : State} (h : s.pos = 4#17) :
    acceptByte b s = .next { s with
      pos := 5#17, sizeHi := b, acc := s.acc ^^^ b, errSize := s.errSize || (b ++ s.sizeLo : BitVec 16) != s.expected } := by
  have hfield : frameField s.pos.toNat s.expected.toNat = .sizeHi := by rw [h]; rfl
  rw [acceptByte, hfield]
  simp [advance, acceptSizeHi, errSizeAfter, sizeField_eq_append, h]

theorem acceptByte_checksum (b : Byte) {s : State} (h : s.pos.toNat = s.expected.toNat + 5) :
    acceptByte b s = .next (completeRead (advance (acceptChecksum b s))) := by
  rw [acceptByte, h, frameField_checksum]

/-- Settles O31: offsets 3 and 4 are the two size fields. -/
theorem sizeBytesAreCheckedLittleEndian : Obligations.SizeBytesAreCheckedLittleEndian := by
  intro b s hs
  rw [exec_rxByte_of_reading b hs]
  exact ⟨acceptByte_sizeLo b, acceptByte_sizeHi b⟩

/-- R128: FRAME_OK is the code exactly when no check failed. -/
theorem readCode_beq_frameOk (magic size cksum : Bool) :
    (readCode magic size cksum == .frameOk) = (!magic && !size && !cksum) := by
  revert magic size cksum
  decide

/-- Settles O33: the byte at offset `E + 5` is the checksum, and the flags it completes the read with are the two kept ones and
its own check. -/
theorem checksumByteCompletesRead : Obligations.ChecksumByteCompletesRead := by
  intro b s hs hpos
  have hvalid : (readCode s.errMagic s.errSize (b != s.acc) == .frameOk) = (!s.errMagic && !s.errSize && b == s.acc) := by
    rw [readCode_beq_frameOk, bne, Bool.not_not]
  rw [exec_rxByte_of_reading b hs, acceptByte_checksum b hpos, ← hvalid]
  rfl

/-! TIMEOUT and RX_ERR (R130 to R132). -/

theorem exec_timeout_of_reading {s : State} (h : s.state = .reading) :
    exec .timeout s = if s.cancel then .next (finish .aborted s) else .next (retryAttempt s) :=
  if_pos ((rxReady_iff s).mpr h)

/-- R11: the value that is kept is the largest one. -/
theorem satInc32_eq_ite_max (v : BitVec 32) :
    satInc32 v = if v = 0xFFFFFFFF#32 then 0xFFFFFFFF#32 else v + 1#32 :=
  ite_congr rfl id fun _ => rfl

/-- Settles O35: a retry is `sat_inc_32` of ATTEMPTS and `attempt_reset()`. -/
theorem timeoutRetriesAttempt : Obligations.TimeoutRetriesAttempt := by
  intro s hs hcancel
  rw [exec_timeout_of_reading hs, if_neg (Bool.eq_false_iff.mp hcancel), ← satInc32_eq_ite_max]
  rfl

theorem exec_rxErr_of_reading {s : State} (h : s.state = .reading) : exec .rxErr s = .next (finish .transportError s) :=
  if_pos ((rxReady_iff s).mpr h)

theorem exec_rxErr_of_not_reading {s : State} (h : s.state ≠ .reading) : exec .rxErr s = .next s :=
  if_neg (mt (rxReady_iff s).mp h)

/-- Settles O37: the two branches of R132. -/
theorem lineErrorEndsRead : Obligations.LineErrorEndsRead :=
  fun _ => ⟨exec_rxErr_of_reading, exec_rxErr_of_not_reading⟩

end Sys2Proof

/-! ### The sample unpacker (42_unpacker.md)

`Pair` as two concatenations of nibbles and bytes, what CMD UNPACK answers in each branch of R152, and the two samples that an
UNPACK_STEP writes; from these O19, O39 and O40. -/

namespace Sys2Proof

open Sys2Proof.Machine

/-! CMD UNPACK (R152). -/

theorem exec_cmdUnpack_of_valid (rsv : BitVec 13) (arg : BitVec 16) {s : State} (hopen : s.state = .idle ∨ s.state = .done)
    (hvalid : s.payloadValid = true) :
    exec (.cmdUnpack rsv arg) s =
      if s.expected.toNat < Config.need then .next (finish .payloadTooShort s) else .next (startUnpack s) :=
  if_pos (by rw [(commandOpen_iff s).mpr hopen, hvalid, Bool.and_true])

theorem exec_cmdUnpack_rejected (rsv : BitVec 13) (arg : BitVec 16) {s : State}
    (h : s.state = .reading ∨ s.state = .unpacking ∨ s.payloadValid = false) :
    exec (.cmdUnpack rsv arg) s = .next (reject s) := by
  refine if_neg ?_
  rw [← or_assoc, ← commandOpen_eq_false_iff] at h
  obtain hbusy | hinvalid := h
  · simp [hbusy]
  · simp [hinvalid]

/-- Settles O19: with a validated payload R152 branches on `NEED`; every other CMD UNPACK is rejected (R176). -/
theorem unpackStartsEndsOrIsRejected : Obligations.UnpackStartsEndsOrIsRejected := by
  refine ⟨fun rsv arg s => ⟨fun hopen hvalid hshort => ?short, fun hopen hvalid hneed => ?starts,
    exec_cmdUnpack_rejected rsv arg⟩, fun d hop => ⟨cmdRsv d, cmdArg d, ofCommand_unpack hop⟩⟩
  case short =>
    rw [exec_cmdUnpack_of_valid rsv arg hopen hvalid, if_pos hshort, finish]
  case starts =>
    rw [exec_cmdUnpack_of_valid rsv arg hopen hvalid, if_neg hneed.not_gt, startUnpack]

/-! `Pair` (R83, R151): the masks select the nibbles of `b1`, and the shifts and ORs are concatenations that fit 12 bits. -/

theorem setWidth_and_lowNibble (b : Byte) : b.setWidth 16 &&& 0x000F#16 = (b.extractLsb' 0 4).setWidth 16 := by
  have hmask : b.toNat &&& 15 = b.toNat % 16 := Nat.and_two_pow_sub_one_eq_mod b.toNat 4
  have hbyte : b.toNat % 65536 = b.toNat := by omega
  have hnibble : b.toNat % 16 % 65536 = b.toNat % 16 := by omega
  apply BitVec.eq_of_toNat_eq
  simp [hmask, hbyte, hnibble]

/-- The high nibble is the low nibble of the byte shifted down. -/
theorem setWidth_and_highNibble (b : Byte) :
    (b.setWidth 16 &&& 0x00F0#16) >>> 4 = (b.extractLsb' 4 4).setWidth 16 := by
  have hmask : 0x00F0#16 >>> 4 = 0x000F#16 := rfl
  have hshift : b.setWidth 16 >>> 4 = (b >>> 4).setWidth 16 := BitVec.eq_of_toNat_eq (by simp)
  have hnibble : (b >>> 4).extractLsb' 0 4 = b.extractLsb' 4 4 := BitVec.eq_of_toNat_eq (by simp)
  rw [BitVec.ushiftRight_and_distrib, hmask, hshift, setWidth_and_lowNibble, hnibble]

theorem pairEven_eq_append (b0 b1 : Byte) : pairEven b0 b1 = b1.extractLsb' 0 4 ++ b0 := by
  rw [pairEven, setWidth_and_lowNibble, BitVec.or_comm, ← BitVec.setWidth_append_eq_shiftLeft_setWidth_or]
  simp

theorem pairOdd_eq_append (b1 b2 : Byte) : pairOdd b1 b2 = b2 ++ b1.extractLsb' 4 4 := by
  rw [pairOdd, setWidth_and_highNibble, BitVec.or_comm, ← BitVec.setWidth_append_eq_shiftLeft_setWidth_or]
  simp

/-- Settles O39: the two halves of `Pair` are the two concatenations. -/
theorem pairPlacesEveryBit : Obligations.PairPlacesEveryBit := fun b0 b1 b2 =>
  Prod.ext (pairEven_eq_append b0 b1) (pairOdd_eq_append b1 b2)

/-! What `S` reads as after a triplet is unpacked (R153). -/

theorem readSample_unpackTriplet_even (s : State) (k : Nat) :
    readSample (unpackTriplet k s) (2 * k) = (readPayload s (3 * k + 1)).extractLsb' 0 4 ++ readPayload s (3 * k) := by
  rw [readSample_unpackTriplet, if_neg (by omega), if_pos rfl, pairEven_eq_append]

theorem readSample_unpackTriplet_odd (s : State) (k : Nat) :
    readSample (unpackTriplet k s) (2 * k + 1) =
      readPayload s (3 * k + 2) ++ (readPayload s (3 * k + 1)).extractLsb' 4 4 := by
  rw [readSample_unpackTriplet, if_pos rfl, pairOdd_eq_append]

theorem readSample_unpackTriplet_other (s : State) {k j : Nat} (heven : j ≠ 2 * k) (hodd : j ≠ 2 * k + 1) :
    readSample (unpackTriplet k s) j = readSample s j := by
  rw [readSample_unpackTriplet, if_neg hodd, if_neg heven]

/-! UNPACK_STEP while UNPACKING (R153, R154). -/

/-- With both indices in range neither fault of log entry 6 is answered. -/
theorem exec_unpackStep_of_unpacking {s : State} (hs : s.state = .unpacking) (hk : s.upkIdx.toNat < Config.triplets)
    (hcap : 3 * s.upkIdx.toNat + 2 < s.payloadCap) :
    exec .unpackStep s =
      if s.upkIdx.toNat + 1 = Config.triplets then .next (completeUnpack (unpackTriplet s.upkIdx.toNat s))
      else .next (unpackTriplet s.upkIdx.toNat s) :=
  (if_pos hs).trans ((if_neg hk.not_ge).trans (if_neg hcap.not_ge))

/-- Settles O40: the triplet is written in both branches, and completion (R154) touches neither store. -/
theorem unpackStepWritesTwoSamples : Obligations.UnpackStepWritesTwoSamples := by
  intro s hs hk hcap
  rw [exec_unpackStep_of_unpacking hs hk hcap]
  by_cases hlast : s.upkIdx.toNat + 1 = 4800
  · refine ⟨_, if_pos hlast, fun hmore => absurd hlast hmore.ne, fun _ => rfl, ?_⟩
    simp only [readSample_completeUnpack, readPayload_completeUnpack]
    exact ⟨readSample_unpackTriplet_even s _, readSample_unpackTriplet_odd s _,
      fun _ => readSample_unpackTriplet_other s, readPayload_unpackTriplet _ s⟩
  · exact ⟨_, if_neg hlast, fun _ => rfl, fun h => absurd h hlast, readSample_unpackTriplet_even s _,
      readSample_unpackTriplet_odd s _, fun _ => readSample_unpackTriplet_other s, readPayload_unpackTriplet _ s⟩

end Sys2Proof

/-! ### Host access (43_host_access.md)

What NOP, CLEAR, a reserved command and the writes answer, and the words of the address map: which range an address is in, the
register words as concatenations, and the STATUS word bit by bit. From these O17, O20 to O23 and O25 to
O27. -/

namespace Sys2Proof

open Sys2Proof.Machine

/-! Commands and writes (R171 to R175). -/

theorem exec_cmdNop (rsv : BitVec 13) (arg : BitVec 16) (s : State) : exec (.cmdNop rsv arg) s = .next s := rfl

theorem exec_cmdClear_accepted (rsv : BitVec 13) (arg : BitVec 16) {s : State} (hopen : s.state = .idle ∨ s.state = .done) :
    exec (.cmdClear rsv arg) s = .next (acknowledge s) :=
  if_pos ((commandOpen_iff s).mpr hopen)

theorem exec_cmdClear_rejected (rsv : BitVec 13) (arg : BitVec 16) {s : State}
    (hbusy : s.state = .reading ∨ s.state = .unpacking) : exec (.cmdClear rsv arg) s = .next (reject s) :=
  if_neg (Bool.eq_false_iff.mp ((commandOpen_eq_false_iff s).mpr hbusy))

theorem exec_cmdReserved (op : BitVec 2) (rsv : BitVec 13) (arg : BitVec 16) (s : State) :
    exec (.cmdReserved op rsv arg) s = .next (reject s) := rfl

theorem exec_wrCtrl (d : Word) (s : State) : exec (.wrCtrl d) s = .next { s with cancel := ctrlCancel d } := rfl

theorem exec_wrIgnored (addr : Addr) (d : Word) (s : State) : exec (.wrIgnored addr d) s = .next s := rfl

/-- Settles O17: NOP answers the state it was given, and a CMD word with OP 0 decodes to it. -/
theorem nopHasNoEffect : Obligations.NopHasNoEffect :=
  ⟨exec_cmdNop, fun d hop => ⟨cmdRsv d, cmdArg d, ofCommand_nop hop⟩⟩

/-- Settles O20: each branch of R172 is a named update, and a CMD word with OP 3 decodes to CLEAR. -/
theorem clearAcknowledgesOrIsRejected : Obligations.ClearAcknowledgesOrIsRejected :=
  ⟨fun rsv arg _ => ⟨exec_cmdClear_accepted rsv arg, exec_cmdClear_rejected rsv arg⟩,
    fun d hop => ⟨cmdRsv d, cmdArg d, ofCommand_clear hop⟩⟩

/-- Settles O21: bit 2 of the CMD word is the top bit of OP, which marks the reserved codes. -/
theorem reservedCommandIsRejected : Obligations.ReservedCommandIsRejected := by
  refine ⟨exec_cmdReserved, fun d htop => ⟨(cmdOp d).setWidth 2, cmdRsv d, cmdArg d, ?_⟩⟩
  rw [← getLsbD_two_cmdOp] at htop
  rw [ofInput_hostWr_cmd, ofCommand_reserved htop]

/-- Settles O22: WR_CTRL takes CANCEL from bit 0 (R78), and a write to address 1 decodes to it. -/
theorem ctrlWriteSetsCancel : Obligations.CtrlWriteSetsCancel := ⟨exec_wrCtrl, ofInput_hostWr_ctrl⟩

/-- Settles O23: WR_IGNORED answers the state it was given, and a write past the two ports decodes to it. -/
theorem otherWritesHaveNoEffect : Obligations.OtherWritesHaveNoEffect :=
  ⟨exec_wrIgnored, fun _ d hcmd hctrl => ofInput_hostWr_ignored hcmd hctrl d⟩

/-! The address map, by range (R51). -/

theorem hostRead_of_lt_payloadBase (s : State) {addr : Addr} (h : addr.toNat < Config.payloadBase) :
    hostRead s addr = registerWord s addr.toNat := if_pos h

theorem hostRead_of_payload_range (s : State) {addr : Addr} (hlo : Config.payloadBase ≤ addr.toNat)
    (hhi : addr.toNat < Config.sampleBase) : hostRead s addr = payloadWindow s (addr.toNat - Config.payloadBase) := by
  rw [hostRead, if_neg hlo.not_gt, if_pos hhi]

theorem hostRead_of_sample_range (s : State) {addr : Addr} (hlo : Config.sampleBase ≤ addr.toNat)
    (hhi : addr.toNat < Config.windowEnd) : hostRead s addr = sampleWindow s (addr.toNat - Config.sampleBase) := by
  have hpayload : Config.payloadBase ≤ addr.toNat := le_trans (by decide) hlo
  rw [hostRead, if_neg hpayload.not_gt, if_neg hlo.not_gt, if_pos hhi]

theorem hostRead_of_windowEnd_le (s : State) {addr : Addr} (h : Config.windowEnd ≤ addr.toNat) :
    hostRead s addr = 0#32 := by
  have hpayload : Config.payloadBase ≤ addr.toNat := le_trans (by decide) h
  have hsample : Config.sampleBase ≤ addr.toNat := le_trans (by decide) h
  rw [hostRead, if_neg hpayload.not_gt, if_neg hsample.not_gt, if_neg h.not_gt]

/-- R185: GEOMETRY is the last register. -/
theorem registerWord_unmapped (s : State) {a : Nat} (h : 0xA < a) : registerWord s a = 0#32 := by
  have hne : ∀ k ≤ 0xA, a ≠ k := fun k hk => by omega
  simp [registerWord, hne]

theorem setWidth_eq_zero_append (n : Nat) {w : Nat} (x : BitVec w) : x.setWidth (n + w) = 0#n ++ x := by
  simp [BitVec.setWidth_eq_append]

/-- Settles O27: one clause for each range of R51, each window branching on its size. -/
theorem windowsAndUnmappedWords : Obligations.WindowsAndUnmappedWords := by
  refine fun s addr => ⟨fun hlo hhi => ?payload, fun hlo hhi => ?sample, fun hlo hhi => ?gap, hostRead_of_windowEnd_le s⟩
  case payload => rw [hostRead_of_payload_range s hlo hhi, payloadWindow, setWidth_eq_zero_append 24]
  case sample => rw [hostRead_of_sample_range s hlo hhi, sampleWindow, setWidth_eq_zero_append 20]
  case gap => rw [hostRead_of_lt_payloadBase s hhi, registerWord_unmapped s hlo]

/-! The register words (R182). -/

theorem setWidth_two_bytes (hi lo : Byte) : (hi ++ lo).setWidth 32 = (0#16 ++ hi ++ lo : BitVec 32) := by
  rw [← BitVec.setWidth_eq (0#16 ++ hi ++ lo), BitVec.setWidth_append_append_eq_shiftLeft_setWidth_or,
    BitVec.setWidth_append_eq_shiftLeft_setWidth_or]
  simp

theorem setWidth_three_bytes (hi mid lo : Byte) :
    (hi ++ mid ++ lo).setWidth 32 = (0#8 ++ hi ++ mid ++ lo : BitVec 32) := by
  rw [← BitVec.setWidth_eq (0#8 ++ hi ++ mid ++ lo), BitVec.setWidth_append_append_append_eq_shiftLeft_setWidth_or,
    BitVec.setWidth_append_append_eq_shiftLeft_setWidth_or]
  simp

/-- Settles O26: the model's shifts and ORs of bytes are concatenations, and each word is zero-extended. -/
theorem registerWords : Obligations.RegisterWords := by
  refine fun s => ⟨rfl, rfl, setWidth_eq_zero_append 16 s.expected, ?size, ?accumulator, rfl,
    setWidth_eq_zero_append 15 s.pos, ?magic, setWidth_eq_zero_append 16 s.upkIdx, rfl⟩
  case size =>
    calc hostRead s 0x00004#18
      _ = (sizeField s.sizeLo s.sizeHi).setWidth 32 := rfl
      _ = (s.sizeHi ++ s.sizeLo).setWidth 32 := by rw [sizeField_eq_append]
      _ = 0#16 ++ s.sizeHi ++ s.sizeLo := setWidth_two_bytes s.sizeHi s.sizeLo
  case accumulator =>
    calc hostRead s 0x00005#18
      _ = (s.acc.setWidth 32 <<< 8) ||| s.ckRx.setWidth 32 := rfl
      _ = (s.acc ++ s.ckRx).setWidth 32 := by rw [BitVec.setWidth_append_eq_shiftLeft_setWidth_or]
      _ = 0#16 ++ s.acc ++ s.ckRx := setWidth_two_bytes s.acc s.ckRx
  case magic =>
    calc hostRead s 0x00008#18
      _ = (s.magicRx2.setWidth 32 <<< 16) ||| (s.magicRx1.setWidth 32 <<< 8) ||| s.magicRx0.setWidth 32 := rfl
      _ = (s.magicRx2 ++ s.magicRx1 ++ s.magicRx0).setWidth 32 := by
        rw [BitVec.setWidth_append_append_eq_shiftLeft_setWidth_or]
      _ = 0#8 ++ s.magicRx2 ++ s.magicRx1 ++ s.magicRx0 := setWidth_three_bytes s.magicRx2 s.magicRx1 s.magicRx0

/-! The STATUS word (R181), bit by bit. -/

/-- The single-bit fields of the STATUS word by bit number; the bits between the two codes that R181 reserves are 0. -/
def statusFlag (s : State) : Nat → Bool
  | 3 => s.payloadValid
  | 4 => s.samplesValid
  | 5 => s.cmdReject
  | 6 => s.errMagic
  | 7 => s.errSize
  | 8 => s.errCksum
  | _ => false

theorem statusFlag_of_reserved (s : State) {i : Nat} (h : i < 3 ∨ 8 < i) : statusFlag s i = false := by
  unfold statusFlag
  split <;> simp_all

theorem getLsbD_flagWord_shiftLeft (f : Bool) {k : Nat} (hk : k < 32) (i : Nat) :
    (flagWord f <<< k).getLsbD i = (f && decide (i = k)) := by
  cases f with
  | false => simp [flagWord]
  | true =>
    rw [Bool.eq_iff_iff]
    simp [flagWord, BitVec.getLsbD_one]
    omega

/-- Each bit of the STATUS word is a bit of STATE, a flag, or a bit of RESULT. -/
theorem getLsbD_statusWord (s : State) {i : Nat} (hi : i < 32) :
    (statusWord s).getLsbD i =
      (s.state.code.getLsbD i || statusFlag s i || (!decide (i < 12) && s.result.code.getLsbD (i - 12))) := by
  have hflags : statusFlag s i = (s.payloadValid && decide (i = 3) || s.samplesValid && decide (i = 4) ||
      s.cmdReject && decide (i = 5) || s.errMagic && decide (i = 6) || s.errSize && decide (i = 7) ||
      s.errCksum && decide (i = 8)) := by
    unfold statusFlag
    split <;> simp_all
  rw [statusWord, hflags]
  simp only [BitVec.getLsbD_or, getLsbD_flagWord_shiftLeft, Nat.reduceLT]
  simp [hi, Bool.or_assoc]

theorem extractLsb'_statusWord_state (s : State) : (statusWord s).extractLsb' 0 2 = s.state.code := by
  refine BitVec.eq_of_getLsbD_eq fun i hi => ?_
  have hflag : statusFlag s i = false := statusFlag_of_reserved s (by omega)
  have hresult : i < 12 := by omega
  rw [BitVec.getLsbD_extractLsb', zero_add, getLsbD_statusWord s (by omega), hflag]
  simp [hi, hresult]

theorem getLsbD_statusWord_flag (s : State) {i : Nat} (hlo : 2 ≤ i) (hhi : i < 12) :
    (statusWord s).getLsbD i = statusFlag s i := by
  rw [getLsbD_statusWord s (by omega), BitVec.getLsbD_of_ge _ _ hlo]
  simp [hhi]

theorem extractLsb'_statusWord_result (s : State) : (statusWord s).extractLsb' 12 4 = s.result.code := by
  refine BitVec.eq_of_getLsbD_eq fun i hi => ?_
  have hflag : statusFlag s (12 + i) = false := statusFlag_of_reserved s (by omega)
  have hstate : s.state.code.getLsbD (12 + i) = false := BitVec.getLsbD_of_ge _ _ (by omega)
  rw [BitVec.getLsbD_extractLsb', getLsbD_statusWord s (by omega), hflag, hstate]
  simp [hi]

/-- Settles O25: between the codes of STATE and RESULT each bit is a flag or reserved, above them all are reserved. -/
theorem statusWordFields : Obligations.StatusWordFields := by
  intro s
  have hword : hostRead s 0x00002#18 = statusWord s := rfl
  have hflag : ∀ i, 2 ≤ i → i < 12 → (statusWord s).getLsbD i = statusFlag s i := fun _ => getLsbD_statusWord_flag s
  rw [hword]
  refine ⟨extractLsb'_statusWord_state s, hflag 2 (by decide) (by decide), hflag 3 (by decide) (by decide),
    hflag 4 (by decide) (by decide), hflag 5 (by decide) (by decide), hflag 6 (by decide) (by decide),
    hflag 7 (by decide) (by decide), hflag 8 (by decide) (by decide), ?gap, extractLsb'_statusWord_result s, ?high⟩
  case gap =>
    refine BitVec.eq_of_getLsbD_eq fun i hi => ?_
    rw [BitVec.getLsbD_extractLsb', getLsbD_statusWord_flag s (by omega) (by omega),
      statusFlag_of_reserved s (by omega), BitVec.getLsbD_zero, Bool.and_false]
  case high =>
    refine BitVec.eq_of_getLsbD_eq fun i hi => ?_
    have hflag : statusFlag s (16 + i) = false := statusFlag_of_reserved s (by omega)
    have hstate : s.state.code.getLsbD (16 + i) = false := BitVec.getLsbD_of_ge _ _ (by omega)
    have hresult : s.result.code.getLsbD (16 + i - 12) = false := BitVec.getLsbD_of_ge _ _ (by omega)
    rw [BitVec.getLsbD_extractLsb', getLsbD_statusWord s (by omega), hflag, hstate, hresult]
    simp

end Sys2Proof

/-! ### Reset and hazards (70_reset_and_hazards.md)

A busy block (R242): the rejected branches of the commands, taken together; from them O28. -/

namespace Sys2Proof

open Sys2Proof.Machine

/-- Settles O28: READ, UNPACK and CLEAR take their rejected branch because the block is busy; NOP and the reserved OPs do not
depend on STATE. -/
theorem busyBlockRejectsCommands : Obligations.BusyBlockRejectsCommands := by
  intro s rsv arg op hbusy
  have hread : exec (.cmdRead rsv arg) s = .next (reject s) := exec_cmdRead_rejected rsv (hbusy.imp_right .inl)
  have hunpack : exec (.cmdUnpack rsv arg) s = .next (reject s) :=
    exec_cmdUnpack_rejected rsv arg (hbusy.imp_right .inl)
  have hclear : exec (.cmdClear rsv arg) s = .next (reject s) := exec_cmdClear_rejected rsv arg hbusy
  exact ⟨exec_cmdNop rsv arg s, hread, hunpack, hclear, exec_cmdReserved op rsv arg s⟩

end Sys2Proof

/-! ### Records of operations (log entry 10)

A record gives its input back, and a sequence of bytes that begins with a record is that record's eight bytes and the
rest; with the two round trips of R86's decoder these give O1 and O2. -/

namespace Sys2Proof

/-- R86: a well-formed operation is the one its input decodes to. -/
theorem ofInput_toInput {i : Instr} (h : i.wf = true) : ofInput (toInput i) = i := by
  cases i with
  | cmdNop rsv arg => exact Laws.InputRoundTrip.cmdNop rsv arg h
  | cmdRead rsv e => exact Laws.InputRoundTrip.cmdRead rsv e h
  | cmdUnpack rsv arg => exact Laws.InputRoundTrip.cmdUnpack rsv arg h
  | cmdClear rsv arg => exact Laws.InputRoundTrip.cmdClear rsv arg h
  | cmdReserved op rsv arg => exact Laws.InputRoundTrip.cmdReserved op rsv arg h
  | wrCtrl d => exact Laws.InputRoundTrip.wrCtrl d h
  | wrIgnored addr d => exact Laws.InputRoundTrip.wrIgnored addr d h
  | rd | rxByte | rxErr | timeout | unpackStep | reset => rfl

/-! A byte in the data field of a record. -/

theorem extractLsb'_setWidth_byte_low (b : Byte) : (b.setWidth 32).extractLsb' 0 8 = b := by
  ext i hi
  simp [hi, show i < 32 by omega]

theorem extractLsb'_setWidth_byte_high (b : Byte) : (b.setWidth 32).extractLsb' 8 24 = 0#24 := by
  ext i hi
  simp

/-- A word whose upper bits are 0 is its low byte. -/
theorem setWidth_extractLsb'_byte {d : Word} (h : d.extractLsb' 8 24 = 0#24) : (d.extractLsb' 0 8).setWidth 32 = d := by
  refine BitVec.eq_of_getLsbD_eq fun i hi => ?_
  rw [BitVec.getLsbD_setWidth, BitVec.getLsbD_extractLsb']
  by_cases hlow : i < 8
  · simp [hi, hlow]
  · have hbit := congrArg (fun v => v.getLsbD (i - 8)) h
    have hback : 8 + (i - 8) = i := by omega
    simp [hback, show i - 8 < 24 by omega] at hbit
    simp [hlow, hbit]

/-! The record of an input. -/

theorem recordInput_inputRecord (j : Input) : recordInput (inputRecord j) = .ok j := by
  cases j with
  | hostWr | hostRd | lineErr | timer | engine | reset => simp [inputRecord, recordInput, emptyInput]
  | lineByte b =>
    simp [inputRecord, recordInput, extractLsb'_setWidth_byte_low, extractLsb'_setWidth_byte_high]

/-- A format without data: the fields of its record are all 0. -/
theorem inputRecord_of_emptyInput {r : BitVec 64} {f : BitVec 8} {i j : Input} (hf : recordFormat r = f)
    (hi : inputRecord i = recordBits f 0#18 0#32) (h : emptyInput r i = .ok j) :
    inputRecord j = recordBits (recordFormat r) (recordAddr r) (recordData r) := by
  unfold emptyInput at h
  split at h
  · next hfields => cases h; rw [hi, hf, hfields.1, hfields.2]
  · cases h

/-- Each format keeps every bit of its record: in the fields of its input, or as a 0 that `recordInput` checks. -/
theorem inputRecord_of_recordInput {r : BitVec 64} {j : Input} (h : recordInput r = .ok j) : inputRecord j = r := by
  unfold recordInput at h
  split at h
  · cases h
  next hpad =>
  rw [← recordBits_fields (not_not.mp hpad)]
  split at h
  next hf => cases h; rw [inputRecord, hf]
  split at h
  next hf =>
    split at h
    · next hd => cases h; rw [inputRecord, hf, hd]
    · cases h
  split at h
  next hf =>
    split at h
    · next hd => cases h; rw [inputRecord, hf, hd.1, setWidth_extractLsb'_byte hd.2]
    · cases h
  split at h
  next hf => exact inputRecord_of_emptyInput hf rfl h
  split at h
  next hf => exact inputRecord_of_emptyInput hf rfl h
  split at h
  next hf => exact inputRecord_of_emptyInput hf rfl h
  split at h
  next hf => exact inputRecord_of_emptyInput hf rfl h
  cases h

/-! The bytes of a record. -/

theorem splitBytes_joinBytes (b0 b1 b2 b3 b4 b5 b6 b7 : Byte) :
    splitBytes (joinBytes b0 b1 b2 b3 b4 b5 b6 b7) = [b0, b1, b2, b3, b4, b5, b6, b7] := by
  simp only [splitBytes, List.cons.injEq, and_true]
  refine ⟨?_, ?_, ?_, ?_, ?_, ?_, ?_, ?_⟩ <;>
    · unfold joinBytes
      ext i hi
      interval_cases i <;> simp

theorem decodeInput_record (j : Input) (rest : List Byte) :
    decodeInput (splitBytes (inputRecord j) ++ rest) = .ok (j, rest) := by
  simp only [decodeInput_split, recordInput_inputRecord]

theorem eq_record_of_decodeInput {bytes rest : List Byte} {j : Input} (h : decodeInput bytes = .ok (j, rest)) :
    bytes = splitBytes (inputRecord j) ++ rest := by
  unfold decodeInput at h
  split at h
  · next b0 b1 b2 b3 b4 b5 b6 b7 tail =>
    split at h
    · next hj => cases h; rw [inputRecord_of_recordInput hj, splitBytes_joinBytes]; rfl
    · cases h
  · cases h

theorem decode_eq_ok {bytes rest : List Byte} {i : Instr} (h : decode bytes = .ok (i, rest)) :
    ∃ j, decodeInput bytes = .ok (j, rest) ∧ i = ofInput j := by
  unfold decode at h
  split at h
  · next j tail hj => cases h; exact ⟨j, hj, rfl⟩
  · cases h

/-- Settles O1: the record of the operation's input is read back, and the input decodes to the operation. -/
theorem decodeInvertsEncode : Obligations.DecodeInvertsEncode := by
  intro i rest hwf
  simp only [encode, decode, decodeInput_record, ofInput_toInput hwf]

/-- Settles O2: the bytes are the record of an input, and the operation is carried back to that input. -/
theorem encodeInvertsDecode : Obligations.EncodeInvertsDecode := by
  intro bytes i rest h
  obtain ⟨j, hj, rfl⟩ := decode_eq_ok h
  exact ⟨wf_ofInput j, by rw [encode, toInput_ofInput, eq_record_of_decodeInput hj]⟩

/-- Settles O4: the seven words are literals, so each decodes by computation. -/
theorem writtenOutWordsDecode : Obligations.WrittenOutWordsDecode := by
  unfold Obligations.WrittenOutWordsDecode
  decide

end Sys2Proof

/-! ### What one operation can do

`Effect s i t` lists the branches of the meanings, each with its guard and the named update it makes; it holds exactly
when `exec` answers `t`. What follows about all operations goes through it, one case for each branch. -/

namespace Sys2Proof

open Sys2Proof.Machine

/-- Operation `i` in state `s` leads to `t`: one constructor for each branch of the rules, with the branch's guard. -/
inductive Effect (s : State) : Instr → State → Prop
  /-- R171 -/
  | nop (rsv : BitVec 13) (arg : BitVec 16) : Effect s (.cmdNop rsv arg) s
  /-- R120 -/
  | readStarts (rsv : BitVec 13) {e : BitVec 16} (hopen : s.state = .idle ∨ s.state = .done)
      (hcap : e.toNat ≤ s.payloadCap) : Effect s (.cmdRead rsv e) (startRead e s)
  /-- R120, R176 -/
  | readRejected (rsv : BitVec 13) {e : BitVec 16}
      (h : s.state = .reading ∨ s.state = .unpacking ∨ s.payloadCap < e.toNat) : Effect s (.cmdRead rsv e) (reject s)
  /-- R152 -/
  | unpackTooShort (rsv : BitVec 13) (arg : BitVec 16) (hopen : s.state = .idle ∨ s.state = .done)
      (hvalid : s.payloadValid = true) (hshort : s.expected.toNat < Config.need) :
      Effect s (.cmdUnpack rsv arg) (finish .payloadTooShort s)
  /-- R152 -/
  | unpackStarts (rsv : BitVec 13) (arg : BitVec 16) (hopen : s.state = .idle ∨ s.state = .done)
      (hvalid : s.payloadValid = true) (hneed : Config.need ≤ s.expected.toNat) :
      Effect s (.cmdUnpack rsv arg) (startUnpack s)
  /-- R152, R176 -/
  | unpackRejected (rsv : BitVec 13) (arg : BitVec 16)
      (h : s.state = .reading ∨ s.state = .unpacking ∨ s.payloadValid = false) :
      Effect s (.cmdUnpack rsv arg) (reject s)
  /-- R172 -/
  | clears (rsv : BitVec 13) (arg : BitVec 16) (hopen : s.state = .idle ∨ s.state = .done) :
      Effect s (.cmdClear rsv arg) (acknowledge s)
  /-- R172, R176 -/
  | clearRejected (rsv : BitVec 13) (arg : BitVec 16) (hbusy : s.state = .reading ∨ s.state = .unpacking) :
      Effect s (.cmdClear rsv arg) (reject s)
  /-- R173 -/
  | reservedRejected (op : BitVec 2) (rsv : BitVec 13) (arg : BitVec 16) : Effect s (.cmdReserved op rsv arg) (reject s)
  /-- R174 -/
  | setsCancel (d : Word) : Effect s (.wrCtrl d) { s with cancel := ctrlCancel d }
  /-- R175 -/
  | ignores (addr : Addr) (d : Word) : Effect s (.wrIgnored addr d) s
  /-- R180 -/
  | reads (addr : Addr) : Effect s (.rd addr) { s with hostData := some (hostRead s addr) }
  /-- R123 -/
  | header (b : Byte) (hs : s.state = .reading) (hpos : s.pos.toNat < 3) :
      Effect s (.rxByte b) (advance (acceptHeader s.pos.toNat b s))
  /-- R124 -/
  | sizeLo (b : Byte) (hs : s.state = .reading) (hpos : s.pos.toNat = 3) :
      Effect s (.rxByte b) (advance (acceptSizeLo b s))
  /-- R125 -/
  | sizeHi (b : Byte) (hs : s.state = .reading) (hpos : s.pos.toNat = 4) :
      Effect s (.rxByte b) (advance (acceptSizeHi b s))
  /-- R126 -/
  | payload (b : Byte) (hs : s.state = .reading) (hlo : 5 ≤ s.pos.toNat) (hhi : s.pos.toNat < s.expected.toNat + 5)
      (hcap : s.pos.toNat - 5 < s.payloadCap) : Effect s (.rxByte b) (advance (acceptPayload (s.pos.toNat - 5) b s))
  /-- R127, R128 -/
  | checksum (b : Byte) (hs : s.state = .reading) (hpos : s.pos.toNat = s.expected.toNat + 5) :
      Effect s (.rxByte b) (completeRead (advance (acceptChecksum b s)))
  /-- R133, log entry 7 -/
  | byteWaits (b : Byte) (hs : s.state ≠ .reading) : Effect s (.rxByte b) s
  /-- R132 -/
  | lineErrorEnds (hs : s.state = .reading) : Effect s .rxErr (finish .transportError s)
  /-- R132 -/
  | lineErrorLost (hs : s.state ≠ .reading) : Effect s .rxErr s
  /-- R131 -/
  | timeoutAborts (hs : s.state = .reading) (hc : s.cancel = true) : Effect s .timeout (finish .aborted s)
  /-- R130 -/
  | timeoutRetries (hs : s.state = .reading) (hc : s.cancel = false) : Effect s .timeout (retryAttempt s)
  /-- log entry 7 -/
  | timerIdle (hs : s.state ≠ .reading) : Effect s .timeout s
  /-- R153 -/
  | triplet (hs : s.state = .unpacking) (hidx : s.upkIdx.toNat + 1 < Config.triplets)
      (hcap : 3 * s.upkIdx.toNat + 2 < s.payloadCap) : Effect s .unpackStep (unpackTriplet s.upkIdx.toNat s)
  /-- R153, R154 -/
  | lastTriplet (hs : s.state = .unpacking) (hidx : s.upkIdx.toNat + 1 = Config.triplets)
      (hcap : 3 * s.upkIdx.toNat + 2 < s.payloadCap) :
      Effect s .unpackStep (completeUnpack (unpackTriplet s.upkIdx.toNat s))
  /-- log entry 7 -/
  | engineIdle (hs : s.state ≠ .unpacking) : Effect s .unpackStep s
  /-- R230 -/
  | resets : Effect s .reset (resetBlock s)

/-! The remaining equations of `exec`, beside those of the parser, the unpacker and the host accesses above. -/

theorem exec_rd (addr : Addr) (s : State) : exec (.rd addr) s = .next { s with hostData := some (hostRead s addr) } := rfl

theorem exec_reset (s : State) : exec .reset s = .next (resetBlock s) := rfl

theorem exec_rxByte_of_not_reading (b : Byte) {s : State} (h : s.state ≠ .reading) : exec (.rxByte b) s = .next s :=
  if_neg (mt (rxReady_iff s).mp h)

theorem exec_timeout_of_not_reading {s : State} (h : s.state ≠ .reading) : exec .timeout s = .next s :=
  if_neg (mt (rxReady_iff s).mp h)

theorem exec_unpackStep_of_not_unpacking {s : State} (h : s.state ≠ .unpacking) : exec .unpackStep s = .next s :=
  if_neg h

theorem acceptByte_at_header (b : Byte) {s : State} (h : s.pos.toNat < 3) :
    acceptByte b s = .next (advance (acceptHeader s.pos.toNat b s)) := by
  simp [acceptByte, frameField, h]

theorem acceptByte_at_sizeLo (b : Byte) {s : State} (h : s.pos.toNat = 3) :
    acceptByte b s = .next (advance (acceptSizeLo b s)) := by
  simp [acceptByte, frameField, h]

theorem acceptByte_at_sizeHi (b : Byte) {s : State} (h : s.pos.toNat = 4) :
    acceptByte b s = .next (advance (acceptSizeHi b s)) := by
  simp [acceptByte, frameField, h]

theorem frameField_payload {p e : Nat} (hlo : 5 ≤ p) (hhi : p < e + 5) : frameField p e = .payload (p - 5) := by
  rw [frameField, if_neg (by omega), if_neg (by omega), if_neg (by omega), if_pos hhi]

theorem acceptByte_at_payload (b : Byte) {s : State} (hlo : 5 ≤ s.pos.toNat) (hhi : s.pos.toNat < s.expected.toNat + 5) :
    acceptByte b s = if s.pos.toNat - 5 < s.payloadCap then .next (advance (acceptPayload (s.pos.toNat - 5) b s))
      else .fault .payloadIndex := by
  rw [acceptByte, frameField_payload hlo hhi]

/-- Every next state is that of a branch. -/
theorem effect_of_exec {i : Instr} {s t : State} (h : exec i s = .next t) : Effect s i t := by
  cases i with
  | cmdNop rsv arg => cases h; exact .nop rsv arg
  | cmdRead rsv e =>
    obtain ⟨hopen, hcap, rfl⟩ | ⟨hrej, rfl⟩ := execCmdRead_cases (rsv := rsv) h
    · exact .readStarts rsv ((commandOpen_iff s).mp hopen) hcap
    · rw [commandOpen_eq_false_iff, or_assoc] at hrej
      exact .readRejected rsv hrej
  | cmdUnpack rsv arg =>
    obtain ⟨hopen, hvalid, hshort, rfl⟩ | ⟨hopen, hvalid, hneed, rfl⟩ | ⟨hrej, rfl⟩ :=
      execCmdUnpack_cases (rsv := rsv) (arg := arg) h
    · exact .unpackTooShort rsv arg ((commandOpen_iff s).mp hopen) hvalid hshort
    · exact .unpackStarts rsv arg ((commandOpen_iff s).mp hopen) hvalid hneed
    · rw [commandOpen_eq_false_iff, or_assoc] at hrej
      exact .unpackRejected rsv arg hrej
  | cmdClear rsv arg =>
    obtain ⟨hopen, rfl⟩ | ⟨hbusy, rfl⟩ := execCmdClear_cases (rsv := rsv) (arg := arg) h
    · exact .clears rsv arg ((commandOpen_iff s).mp hopen)
    · exact .clearRejected rsv arg ((commandOpen_eq_false_iff s).mp hbusy)
  | cmdReserved op rsv arg => cases h; exact .reservedRejected op rsv arg
  | wrCtrl d => cases h; exact .setsCancel d
  | wrIgnored addr d => cases h; exact .ignores addr d
  | rd addr => cases h; exact .reads addr
  | rxByte b =>
    obtain ⟨hs, hb⟩ | ⟨hs, rfl⟩ := execRxByte_cases h
    · obtain ⟨hp, rfl⟩ | ⟨hp, rfl⟩ | ⟨hp, rfl⟩ | ⟨hlo, hhi, hcap, rfl⟩ | ⟨hp, rfl⟩ := acceptByte_cases hb
      · exact .header b hs hp
      · exact .sizeLo b hs hp
      · exact .sizeHi b hs hp
      · exact .payload b hs hlo hhi hcap
      · exact .checksum b hs hp
    · exact .byteWaits b hs
  | rxErr =>
    obtain ⟨hs, rfl⟩ | ⟨hs, rfl⟩ := execRxErr_cases h
    · exact .lineErrorEnds hs
    · exact .lineErrorLost hs
  | timeout =>
    obtain ⟨hs, hc, rfl⟩ | ⟨hs, hc, rfl⟩ | ⟨hs, rfl⟩ := execTimeout_cases h
    · exact .timeoutAborts hs hc
    · exact .timeoutRetries hs hc
    · exact .timerIdle hs
  | unpackStep =>
    obtain ⟨hs, hidx, hcap, rfl⟩ | ⟨hs, hidx, hcap, rfl⟩ | ⟨hs, rfl⟩ := execUnpackStep_cases h
    · exact .triplet hs hidx hcap
    · exact .lastTriplet hs hidx hcap
    · exact .engineIdle hs
  | reset => cases h; exact .resets

/-- Every branch is taken where its guard holds. -/
theorem exec_of_effect {i : Instr} {s t : State} (h : Effect s i t) : exec i s = .next t := by
  cases h with
  | nop rsv arg => exact exec_cmdNop rsv arg s
  | readStarts rsv hopen hcap => exact exec_cmdRead_accepted rsv hopen hcap
  | readRejected rsv hrej => exact exec_cmdRead_rejected rsv hrej
  | unpackTooShort rsv arg hopen hvalid hshort => rw [exec_cmdUnpack_of_valid rsv arg hopen hvalid, if_pos hshort]
  | unpackStarts rsv arg hopen hvalid hneed => rw [exec_cmdUnpack_of_valid rsv arg hopen hvalid, if_neg hneed.not_gt]
  | unpackRejected rsv arg hrej => exact exec_cmdUnpack_rejected rsv arg hrej
  | clears rsv arg hopen => exact exec_cmdClear_accepted rsv arg hopen
  | clearRejected rsv arg hbusy => exact exec_cmdClear_rejected rsv arg hbusy
  | reservedRejected op rsv arg => exact exec_cmdReserved op rsv arg s
  | setsCancel d => exact exec_wrCtrl d s
  | ignores addr d => exact exec_wrIgnored addr d s
  | reads addr => exact exec_rd addr s
  | header b hs hpos => rw [exec_rxByte_of_reading b hs, acceptByte_at_header b hpos]
  | sizeLo b hs hpos => rw [exec_rxByte_of_reading b hs, acceptByte_at_sizeLo b hpos]
  | sizeHi b hs hpos => rw [exec_rxByte_of_reading b hs, acceptByte_at_sizeHi b hpos]
  | payload b hs hlo hhi hcap => rw [exec_rxByte_of_reading b hs, acceptByte_at_payload b hlo hhi, if_pos hcap]
  | checksum b hs hpos => rw [exec_rxByte_of_reading b hs, acceptByte_checksum b hpos]
  | byteWaits b hs => exact exec_rxByte_of_not_reading b hs
  | lineErrorEnds hs => exact exec_rxErr_of_reading hs
  | lineErrorLost hs => exact exec_rxErr_of_not_reading hs
  | timeoutAborts hs hc => rw [exec_timeout_of_reading hs, if_pos hc]
  | timeoutRetries hs hc => rw [exec_timeout_of_reading hs, if_neg (Bool.eq_false_iff.mp hc)]
  | timerIdle hs => exact exec_timeout_of_not_reading hs
  | triplet hs hidx hcap =>
    rw [exec_unpackStep_of_unpacking hs (Nat.lt_of_succ_lt hidx) hcap, if_neg hidx.ne]
  | lastTriplet hs hidx hcap =>
    rw [exec_unpackStep_of_unpacking hs (Nat.lt_of_succ_le hidx.le) hcap, if_pos hidx]
  | engineIdle hs => exact exec_unpackStep_of_not_unpacking hs
  | resets => exact exec_reset s

/-- Settles O38: none of the three is enabled there. -/
theorem disabledOperationsChangeNothing : Obligations.DisabledOperationsChangeNothing :=
  fun _ b => ⟨fun hs => ⟨exec_rxByte_of_not_reading b hs, exec_timeout_of_not_reading hs⟩,
    exec_unpackStep_of_not_unpacking⟩

/-- Settles O24: RD's meaning is this one update. -/
theorem readReturnsTheWord : Obligations.ReadReturnsTheWord := exec_rd

/-- Settles O36: with CANCEL set a TIMEOUT is `finish(ABORTED)`. -/
theorem timeoutAbortsCancelledRead : Obligations.TimeoutAbortsCancelledRead :=
  fun _ hs hcancel => exec_of_effect (.timeoutAborts hs hcancel)

end Sys2Proof

/-! ### A step and the agents (R8, R9)

A step changes what the agents hold, which no operation reads or writes, and runs one operation. So a property that
does not speak of the agents is kept by every step if every branch of every operation keeps it (`step_preserves`). -/

namespace Sys2Proof

open Sys2Proof.Machine

/-- What a state holds of the agents: their lists, and the order of moves (log entries 2 and 3). -/
structure Agents where
  host : List HostOp
  line : List Byte
  moves : List Move
  moveNo : Nat

/-- The same block among other agents. -/
def withAgents (a : Agents) (s : State) : State :=
  { s with host := a.host, line := a.line, moves := a.moves, moveNo := a.moveNo }

/-- The agents of a state. -/
def agentsOf (s : State) : Agents := ⟨s.host, s.line, s.moves, s.moveNo⟩

theorem takeMove_eq_withAgents (s : State) :
    takeMove s = withAgents ⟨s.host, s.line, s.moves.tail, s.moveNo + 1⟩ s := rfl

/-- Fetching takes the operation from its agent and leaves the block alone. -/
theorem exists_withAgents_of_fetch {s u : State} {i : Instr} (h : fetch s = some (i, u)) : ∃ a, u = withAgents a s := by
  obtain ⟨op, rest, -, -, -, rfl⟩ | ⟨b, rest, -, -, -, ⟨-, rfl⟩ | ⟨-, rfl⟩⟩ | ⟨-, -, rfl⟩ | ⟨-, -, rfl⟩ |
    ⟨-, -, rfl⟩ | ⟨-, -, rfl⟩ := fetch_cases h
  · exact ⟨⟨rest, s.line, s.moves.tail, s.moveNo + 1⟩, rfl⟩
  · exact ⟨⟨s.host, rest, s.moves.tail, s.moveNo + 1⟩, rfl⟩
  · exact ⟨⟨s.host, b :: rest, s.moves.tail, s.moveNo + 1⟩, rfl⟩
  all_goals exact ⟨_, takeMove_eq_withAgents s⟩

/-- R39: the block changes nothing of its agents. -/
theorem Effect.agentsOf_eq {s t : State} {i : Instr} (h : Effect s i t) : agentsOf t = agentsOf s := by
  cases h <;> rfl

/-- No operation reads anything of the agents: each branch is taken again, its guard unchanged. -/
theorem Effect.withAgents {s t : State} {i : Instr} (h : Effect s i t) (a : Agents) :
    Effect (withAgents a s) i (withAgents a t) := by
  cases h <;> constructor <;> assumption

/-- A property that does not speak of the agents, and that every branch keeps, is kept by every step. -/
theorem step_preserves {P : State → Prop} (hagents : ∀ s a, P s → P (withAgents a s))
    (heffect : ∀ s i t, P s → Effect s i t → P t) {s t : State} (hs : P s) (h : step s = .next t) : P t := by
  obtain ⟨i, u, hf, he⟩ | ⟨-, rfl⟩ := step_cases h
  · obtain ⟨a, rfl⟩ := exists_withAgents_of_fetch hf
    exact heffect _ i t (hagents s a hs) (effect_of_exec he)
  · rw [takeMove_eq_withAgents]
    exact hagents s _ hs

/-! R133: the line over one step. -/

/-- Settles O7: the operation leaves the line alone, so what a step changes of it is what fetching takes: a byte the
line offers while READING; outside READING a free byte is taken from no list and stays. -/
theorem lineBytesWaitOutsideReading : Obligations.LineBytesWaitOutsideReading := by
  intro s t h
  obtain ⟨i, u, hf, he⟩ | ⟨-, rfl⟩ := step_cases h
  · have hline : t.line = u.line := congrArg Agents.line (effect_of_exec he).agentsOf_eq
    rw [hline]
    obtain ⟨op, rest, -, -, -, rfl⟩ | ⟨b, rest, hmove, hb, -, ⟨hs, rfl⟩ | ⟨hs, rfl⟩⟩ | ⟨-, -, rfl⟩ | ⟨-, -, rfl⟩ |
      ⟨-, -, rfl⟩ | ⟨-, -, rfl⟩ := fetch_cases hf
    case inr.inl.inl =>
      refine ⟨absurd hs, fun _ => ?_⟩
      obtain hheld | ⟨hnone, rfl, -⟩ := nextByte_cases hb
      · exact .inr ⟨hmove, b, hheld⟩
      · exact .inl hnone.symm
    case inr.inl.inr =>
      refine ⟨fun _ => ?_, (absurd · hs)⟩
      obtain hheld | ⟨hnone, rfl, -⟩ := nextByte_cases hb
      · exact .inl hheld.symm
      · exact .inr ⟨hmove, hnone, b, rfl⟩
    all_goals exact ⟨fun _ => .inl rfl, fun _ => .inl rfl⟩
  · exact ⟨fun _ => .inl rfl, fun _ => .inl rfl⟩

end Sys2Proof

/-! ### The state invariant (10_state.md section 6)

Each named update keeps `Inv` under its branch's guard; so every branch, every step and every run keep it (O11), and
inside it the guards of the model's faults never hold (O14). -/

namespace Sys2Proof

open Sys2Proof.Machine

/-- Within a frame POS has room to advance. -/
theorem toNat_pos_succ {s : State} (h : s.pos.toNat ≤ s.expected.toNat + 5) : (s.pos + 1#17).toNat = s.pos.toNat + 1 := by
  have hexpected := s.expected.isLt
  have hroom : s.pos.toNat + (1#17).toNat < 2 ^ 17 := by
    rw [BitVec.toNat_one (by decide)]
    omega
  rw [BitVec.toNat_add_of_lt hroom, BitVec.toNat_one (by decide)]

theorem toNat_upkIdx_succ {s : State} (h : s.upkIdx.toNat + 1 ≤ Config.triplets) :
    (s.upkIdx + 1#16).toNat = s.upkIdx.toNat + 1 := by
  have hroom : s.upkIdx.toNat + (1#16).toNat < 2 ^ 16 := lt_of_le_of_lt h (by decide)
  rw [BitVec.toNat_add_of_lt hroom, BitVec.toNat_one (by decide)]

/-- R11: ATTEMPTS never wraps to 0. -/
theorem satInc32_ne_zero {v : BitVec 32} (hv : v ≠ 0#32) : satInc32 v ≠ 0#32 := by
  unfold satInc32
  split
  · exact hv
  · next hmax =>
    intro h
    have hmax' : v.toNat ≠ 4294967295 := fun he => hmax (BitVec.eq_of_toNat_eq he)
    have h' : (v.toNat + 1) % 4294967296 = 0 := by simpa using congrArg BitVec.toNat h
    have hv' := v.isLt
    omega

theorem readCode_ne_none (magic size cksum : Bool) : readCode magic size cksum ≠ .none := by
  revert magic size cksum
  decide

/-- R128, R23: FRAME_OK says that the three flags are 0. -/
theorem flags_eq_false_of_readCode {magic size cksum : Bool} (h : (readCode magic size cksum == .frameOk) = true) :
    magic = false ∧ size = false ∧ cksum = false := by
  simpa [readCode_beq_frameOk, and_assoc] using h

section
variable {s : State}

/-- R41 (a). -/
theorem Inv.payloadValid_of_reading (h : Inv s) (hs : s.state = .reading) : s.payloadValid = false := by
  obtain ⟨-, -, hvalid, -, -⟩ := h.reading hs
  exact hvalid

theorem Inv.expected_le_cap_of_reading (h : Inv s) (hs : s.state = .reading) : s.expected.toNat ≤ s.payloadCap := by
  obtain ⟨-, -, -, -, hcap⟩ := h.reading hs
  exact hcap

theorem Inv.upkIdx_lt_of_unpacking (h : Inv s) (hs : s.state = .unpacking) : s.upkIdx.toNat < Config.triplets := by
  obtain ⟨-, -, hidx, -⟩ := h.unpacking hs
  exact hidx

/-- R41 (b), (d): an unpack that has not ended has no valid samples. -/
theorem Inv.samplesValid_of_unpacking (h : Inv s) (hs : s.state = .unpacking) : s.samplesValid = false := by
  by_contra hvalid
  exact (h.upkIdx_lt_of_unpacking hs).ne (h.samples (by simpa using hvalid))

/-- Every triplet lies inside the buffer. -/
theorem Inv.triplet_lt_cap (h : Inv s) {k : Nat} (hk : k < Config.triplets) : 3 * k + 2 < s.payloadCap := by
  have hcap : 14401 ≤ s.payloadCap := h.capLow
  have hk' : k < 4800 := hk
  omega

/-! The commands and the ways a read ends. -/

theorem Inv.withAgents (h : Inv s) (a : Agents) : Inv (withAgents a s) := { h with }

theorem Inv.reject (h : Inv s) : Inv (reject s) := { h with }

theorem Inv.finish (h : Inv s) {code : Result} (hcode : code ≠ .none) : Inv (finish code s) :=
  { h with reading := nofun, unpacking := nofun, idle := nofun, done := fun _ => hcode }

theorem Inv.startRead (h : Inv s) {e : BitVec 16} (hcap : e.toNat ≤ s.payloadCap) : Inv (startRead e s) :=
  { h with
    posBound := Nat.zero_le _
    reading := fun _ => ⟨Nat.zero_le _, rfl, rfl, by simp, hcap⟩
    unpacking := nofun
    valid := nofun
    idle := nofun
    done := nofun }

theorem Inv.startUnpack (h : Inv s) (hvalid : s.payloadValid = true) (hneed : Config.need ≤ s.expected.toNat) :
    Inv (startUnpack s) :=
  { h with
    upkBound := Nat.zero_le _
    reading := nofun
    unpacking := fun _ => ⟨hvalid, hneed, by simp, rfl⟩
    samples := nofun
    idle := nofun
    done := nofun }

theorem Inv.acknowledge (h : Inv s) : Inv (acknowledge s) :=
  { h with
    reading := nofun
    unpacking := nofun
    valid := fun hvalid => ⟨(h.valid hvalid).1, rfl, rfl, rfl⟩
    idle := fun _ => rfl
    done := nofun }

theorem Inv.retryAttempt (h : Inv s) (hs : s.state = .reading) : Inv (retryAttempt s) := by
  obtain ⟨-, hresult, hvalid, hattempts, hcap⟩ := h.reading hs
  exact { h with
    posBound := Nat.zero_le _
    reading := fun _ => ⟨Nat.zero_le _, hresult, hvalid, satInc32_ne_zero hattempts, hcap⟩
    valid := fun hv => ⟨(h.valid hv).1, rfl, rfl, rfl⟩ }

theorem Inv.resetBlock (h : Inv s) : Inv (resetBlock s) where
  capLow := h.capLow
  capHigh := h.capHigh
  payloadWf := reset_payload_wf
  payloadBelow := rfl
  samplesWf := reset_samples_wf
  samplesBelow := rfl
  posBound := Nat.zero_le _
  upkBound := Nat.zero_le _
  reading := nofun
  unpacking := nofun
  valid := nofun
  samples := nofun
  idle := fun _ => rfl
  done := nofun

/-! An accepted byte. -/

theorem Inv.advance (h : Inv s) (hpos : s.pos.toNat < s.expected.toNat + 5) : Inv (advance s) := by
  have hnext : (s.pos + 1#17).toNat = s.pos.toNat + 1 := toNat_pos_succ hpos.le
  refine { h with
    posBound := ?_
    reading := fun hs => ⟨?_, (h.reading hs).2⟩ }
  · show (s.pos + 1#17).toNat ≤ s.expected.toNat + 6
    omega
  · show (s.pos + 1#17).toNat ≤ s.expected.toNat + 5
    omega

theorem Inv.acceptHeader (h : Inv s) (hs : s.state = .reading) (p : Nat) (b : Byte) : Inv (acceptHeader p b s) :=
  { h with valid := fun hvalid => absurd ((h.payloadValid_of_reading hs).symm.trans hvalid) nofun }

theorem Inv.acceptSizeLo (h : Inv s) (b : Byte) : Inv (acceptSizeLo b s) := { h with }

theorem Inv.acceptSizeHi (h : Inv s) (hs : s.state = .reading) (b : Byte) : Inv (acceptSizeHi b s) :=
  { h with valid := fun hvalid => absurd ((h.payloadValid_of_reading hs).symm.trans hvalid) nofun }

theorem Inv.acceptPayload (h : Inv s) {i : Nat} (hi : i < s.payloadCap) (b : Byte) : Inv (acceptPayload i b s) :=
  { h with
    payloadWf := Memory.put_wf i b h.payloadWf
    payloadBelow := Memory.put_below h.payloadBelow hi }

/-- R128: the byte that ends the read takes POS to `E + 6`, which only a state outside READING may hold. -/
theorem Inv.completeRead (h : Inv s) (hs : s.state = .reading) (hpos : s.pos.toNat = s.expected.toNat + 5) (b : Byte) :
    Inv (completeRead (Machine.advance (acceptChecksum b s))) :=
  { h with
    posBound := ((toNat_pos_succ hpos.le).trans (congrArg (· + 1) hpos)).le
    reading := nofun
    unpacking := nofun
    valid := fun hvalid => ⟨h.expected_le_cap_of_reading hs, flags_eq_false_of_readCode hvalid⟩
    idle := nofun
    done := fun _ => readCode_ne_none _ _ _ }

/-! A triplet. -/

theorem triplet_samples_below (h : Inv s) {k : Nat} (hk : k < Config.triplets) :
    Memory.below (unpackTriplet k s).samples Config.samples = true := by
  have hk' : k < 4800 := hk
  exact Memory.put_below (Memory.put_below h.samplesBelow (show 2 * k < 9600 by omega)) (show 2 * k + 1 < 9600 by omega)

theorem triplet_samples_wf (h : Inv s) (k : Nat) : Memory.wf (unpackTriplet k s).samples = true :=
  Memory.put_wf _ _ (Memory.put_wf _ _ h.samplesWf)

theorem Inv.unpackTriplet (h : Inv s) (hs : s.state = .unpacking) (hidx : s.upkIdx.toNat + 1 < Config.triplets) :
    Inv (unpackTriplet s.upkIdx.toNat s) := by
  have hnext : (s.upkIdx + 1#16).toNat = s.upkIdx.toNat + 1 := toNat_upkIdx_succ hidx.le
  obtain ⟨hvalid, hneed, -, hresult⟩ := h.unpacking hs
  exact { h with
    samplesWf := triplet_samples_wf h _
    samplesBelow := triplet_samples_below h (Nat.lt_of_succ_lt hidx)
    upkBound := hnext.trans_le hidx.le
    unpacking := fun _ => ⟨hvalid, hneed, hnext.trans_lt hidx, hresult⟩
    samples := fun hsamples => absurd ((h.samplesValid_of_unpacking hs).symm.trans hsamples) nofun }

theorem Inv.completeUnpack (h : Inv s) (hidx : s.upkIdx.toNat + 1 = Config.triplets) :
    Inv (completeUnpack (Machine.unpackTriplet s.upkIdx.toNat s)) := by
  have hnext : (s.upkIdx + 1#16).toNat = Config.triplets := (toNat_upkIdx_succ hidx.le).trans hidx
  exact { h with
    samplesWf := triplet_samples_wf h _
    samplesBelow := triplet_samples_below h (Nat.lt_of_succ_le hidx.le)
    upkBound := hnext.le
    reading := nofun
    unpacking := nofun
    samples := fun _ => hnext
    idle := nofun
    done := nofun }

end

/-- R41: every branch keeps the invariant. -/
theorem Inv.effect {s t : State} {i : Instr} (h : Inv s) (e : Effect s i t) : Inv t := by
  cases e with
  | nop | ignores | byteWaits | lineErrorLost | timerIdle | engineIdle => exact h
  | readStarts _ _ hcap => exact h.startRead hcap
  | readRejected | unpackRejected | clearRejected | reservedRejected => exact h.reject
  | unpackTooShort | lineErrorEnds | timeoutAborts => exact h.finish nofun
  | unpackStarts _ _ _ hvalid hneed => exact h.startUnpack hvalid hneed
  | clears => exact h.acknowledge
  | setsCancel | reads => exact { h with }
  | header b hs hpos => exact (h.acceptHeader hs _ b).advance (show s.pos.toNat < s.expected.toNat + 5 by omega)
  | sizeLo b hs hpos => exact (h.acceptSizeLo b).advance (show s.pos.toNat < s.expected.toNat + 5 by omega)
  | sizeHi b hs hpos => exact (h.acceptSizeHi hs b).advance (show s.pos.toNat < s.expected.toNat + 5 by omega)
  | payload b _ _ hhi hcap => exact (h.acceptPayload hcap b).advance hhi
  | checksum b hs hpos => exact h.completeRead hs hpos b
  | timeoutRetries hs => exact h.retryAttempt hs
  | triplet hs hidx => exact h.unpackTriplet hs hidx
  | lastTriplet _ hidx => exact h.completeUnpack hidx
  | resets => exact h.resetBlock

/-- Settles O11: the invariant does not speak of the agents, and every branch keeps it. -/
theorem stepKeepsStateInvariant : Obligations.StepKeepsStateInvariant :=
  fun _ _ => step_preserves (fun _ a h => h.withAgents a) fun _ _ _ => Inv.effect

/-- Settles O10: nothing is read, unpacked or written. -/
theorem resetMeetsEveryInvariant : Obligations.ResetMeetsEveryInvariant := by
  refine ⟨?_, ⟨nofun, nofun, nofun⟩, ⟨nofun, nofun⟩⟩
  constructor <;> decide

/-! Where an operation stops (log entry 6). -/

theorem exists_next_ite (c : Prop) [Decidable c] (s t : State) :
    ∃ u, (if c then .next s else .next t : Host.Outcome State Fault Refusal) = .next u := by
  split
  · exact ⟨s, rfl⟩
  · exact ⟨t, rfl⟩

/-- Only an accepted byte and a triplet can stop. -/
theorem exists_exec_eq_next {i : Instr} (hbyte : ∀ b, i ≠ .rxByte b) (htriplet : i ≠ .unpackStep) (s : State) :
    ∃ t, exec i s = .next t := by
  cases i with
  | cmdNop | cmdReserved | wrCtrl | wrIgnored | rd | reset => exact ⟨_, rfl⟩
  | cmdRead | cmdClear | rxErr => exact exists_next_ite _ _ _
  | cmdUnpack =>
    rw [exec, execCmdUnpack]
    split
    · exact exists_next_ite _ _ _
    · exact ⟨_, rfl⟩
  | timeout =>
    rw [exec, execTimeout]
    split
    · exact exists_next_ite _ _ _
    · exact ⟨_, rfl⟩
  | rxByte b => exact absurd rfl (hbyte b)
  | unpackStep => exact absurd rfl htriplet

/-- A byte is not accepted past the frame or past the buffer, and nowhere else while READING. -/
theorem rxByte_stops {b : Byte} {s : State} (h : ∀ t, exec (.rxByte b) s ≠ .next t) :
    s.state = .reading ∧
      ((s.expected.toNat + 5 < s.pos.toNat ∧ exec (.rxByte b) s = .fault .framePosition) ∨
       (s.payloadCap + 5 ≤ s.pos.toNat ∧ s.pos.toNat < s.expected.toNat + 5 ∧
         exec (.rxByte b) s = .fault .payloadIndex)) := by
  by_cases hs : s.state = .reading
  · refine ⟨hs, ?_⟩
    rw [exec_rxByte_of_reading b hs] at h ⊢
    obtain ⟨-, hf⟩ | ⟨-, hf⟩ | ⟨-, hf⟩ | ⟨hlo, hhi, -⟩ | ⟨-, hf⟩ | ⟨hpos, hf⟩ :=
      frameField_cases s.pos.toNat s.expected.toNat
    case inr.inr.inr.inl =>
      rw [acceptByte_at_payload b hlo hhi] at h ⊢
      by_cases hcap : s.pos.toNat - 5 < s.payloadCap
      · exact absurd (if_pos hcap) (h _)
      · exact .inr ⟨by omega, hhi, if_neg hcap⟩
    case inr.inr.inr.inr.inr => exact .inl ⟨hpos, by rw [acceptByte, hf]⟩
    all_goals exact absurd (by rw [acceptByte, hf]) (h _)
  · exact absurd (exec_rxByte_of_not_reading b hs) (h s)

theorem unpackStep_stops {s : State} (h : ∀ t, exec .unpackStep s ≠ .next t) :
    s.state = .unpacking ∧
      ((4800 ≤ s.upkIdx.toNat ∧ exec .unpackStep s = .fault .sampleIndex) ∨
       (s.upkIdx.toNat < 4800 ∧ s.payloadCap ≤ 3 * s.upkIdx.toNat + 2 ∧ exec .unpackStep s = .fault .payloadIndex)) := by
  by_cases hs : s.state = .unpacking
  · refine ⟨hs, ?_⟩
    by_cases hidx : Config.triplets ≤ s.upkIdx.toNat
    · exact .inl ⟨hidx, (if_pos hs).trans (if_pos hidx)⟩
    · by_cases hcap : s.payloadCap ≤ 3 * s.upkIdx.toNat + 2
      · exact .inr ⟨not_le.mp hidx, hcap, (if_pos hs).trans ((if_neg hidx).trans (if_pos hcap))⟩
      · obtain ⟨t, ht⟩ : ∃ t, exec .unpackStep s = .next t := by
          rw [exec_unpackStep_of_unpacking hs (not_le.mp hidx) (not_le.mp hcap)]
          exact exists_next_ite _ _ _
        exact absurd ht (h t)
  · exact absurd (exec_unpackStep_of_not_unpacking hs) (h s)

/-- Settles O15: every other operation answers a next state in every branch. -/
theorem onlyBrokenPositionsStop : Obligations.OnlyBrokenPositionsStop := by
  intro i s h
  by_cases hbyte : ∃ b, i = .rxByte b
  · obtain ⟨b, rfl⟩ := hbyte
    exact .inl ⟨⟨b, rfl⟩, rxByte_stops h⟩
  · by_cases htriplet : i = .unpackStep
    · subst htriplet
      exact .inr ⟨rfl, unpackStep_stops h⟩
    · obtain ⟨t, ht⟩ := exists_exec_eq_next (not_exists.mp hbyte) htriplet s
      exact absurd ht (h t)

/-- The invariant rules out each of the broken positions. -/
theorem Inv.exists_exec_eq_next {s : State} (h : Inv s) (i : Instr) : ∃ t, exec i s = .next t := by
  by_contra hstops
  obtain ⟨-, hs, ⟨hpos, -⟩ | ⟨hcap, hpos, -⟩⟩ | ⟨-, hs, ⟨hidx, -⟩ | ⟨hidx, hcap, -⟩⟩ :=
    onlyBrokenPositionsStop i s (not_exists.mp hstops)
  · exact absurd (h.reading hs).1 hpos.not_ge
  · have hfits := h.expected_le_cap_of_reading hs
    omega
  · exact absurd (h.upkIdx_lt_of_unpacking hs) hidx.not_gt
  · exact absurd (h.triplet_lt_cap hidx) hcap.not_gt

/-- Settles O14: the fetched operation finds a block that meets the invariant. -/
theorem noStepStopsInsideInvariant : Obligations.NoStepStopsInsideInvariant := by
  intro s h
  cases hf : fetch s with
  | none => exact ⟨takeMove s, by rw [step, hf]⟩
  | some iu =>
    obtain ⟨i, u⟩ := iu
    obtain ⟨a, rfl⟩ := exists_withAgents_of_fetch hf
    obtain ⟨t, ht⟩ := (h.withAgents a).exists_exec_eq_next i
    exact ⟨t, by rw [step, hf]; exact ht⟩

end Sys2Proof

/-! ### The parser's registers and the bytes accepted (10_state.md sections 2 and 3)

What `headerWrong` and `coveredBytes` are at each offset, how one accepted byte moves them, and from that O12; O16
reads the held frame through the three checks of R105. -/

namespace Sys2Proof

open Sys2Proof.Machine

section
variable {s : State}

/-! The two functions of the bytes accepted, by offset. -/

theorem headerWrong_of_pos_zero (hpos : s.pos = 0#17) : headerWrong s = false := by
  simp [headerWrong, hpos]

/-- R101: from offset 3 on all three header bytes are there. -/
theorem headerWrong_of_three_le (hpos : 3 ≤ s.pos.toNat) :
    headerWrong s = !magicOk s.magicRx0 s.magicRx1 s.magicRx2 := by
  simp [headerWrong, magicOk, bne, show 0 < s.pos.toNat by omega, show 1 < s.pos.toNat by omega,
    show 2 < s.pos.toNat by omega]

/-- Past the header no byte changes the header check. -/
theorem headerWrong_congr {t : State} (hs : 3 ≤ s.pos.toNat) (ht : 3 ≤ t.pos.toNat) (h0 : t.magicRx0 = s.magicRx0)
    (h1 : t.magicRx1 = s.magicRx1) (h2 : t.magicRx2 = s.magicRx2) : headerWrong t = headerWrong s := by
  rw [headerWrong_of_three_le hs, headerWrong_of_three_le ht, h0, h1, h2]

theorem coveredBytes_of_le_three (hpos : s.pos.toNat ≤ 3) : coveredBytes s = [] := by
  rw [coveredBytes, Nat.sub_eq_zero_of_le hpos, Nat.sub_eq_zero_of_le (by omega : s.pos.toNat ≤ 5)]
  rfl

theorem coveredBytes_of_four (hpos : s.pos.toNat = 4) : coveredBytes s = [s.sizeLo] := by
  rw [coveredBytes, hpos]
  rfl

theorem coveredBytes_of_five_le (hpos : 5 ≤ s.pos.toNat) :
    coveredBytes s = s.sizeLo :: s.sizeHi :: payloadPrefix s (s.pos.toNat - 5) := by
  rw [coveredBytes, List.take_of_length_le (show [s.sizeLo, s.sizeHi].length ≤ s.pos.toNat - 3 by simp; omega)]
  rfl

/-! Updates that accept no byte. -/

/-- At the start of an attempt nothing is accepted: the flags and ACC are 0 (R121). -/
theorem readInv_of_pos_zero (hpos : s.pos = 0#17) (hmagic : s.errMagic = false) (hsize : s.errSize = false)
    (hcksum : s.errCksum = false) (hacc : s.acc = 0#8) (hvalid : s.payloadValid = false) : ReadInv s where
  flags _ := ⟨by rw [hmagic, headerWrong_of_pos_zero hpos], by simp [hsize, hpos], hcksum⟩
  acc _ := by rw [hacc, coveredBytes_of_le_three (by simp [hpos]), xorFold_nil]
  valid h := absurd (hvalid.symm.trans h) nofun

theorem ReadInv.finish (h : ReadInv s) (code : Result) : ReadInv (finish code s) :=
  { h with flags := nofun, acc := nofun }

theorem ReadInv.startUnpack (h : ReadInv s) : ReadInv (startUnpack s) := { h with flags := nofun, acc := nofun }

theorem ReadInv.acknowledge (h : ReadInv s) : ReadInv (acknowledge s) := { h with flags := nofun, acc := nofun }

/-! One accepted byte. -/

/-- R41 (a): nothing is claimed of PAYLOAD_VALID while READING. -/
theorem readInv_of_reading {t : State} (hi : Inv s) (hs : s.state = .reading) (hvalid : t.payloadValid = s.payloadValid)
    (hmagic : t.errMagic = headerWrong t)
    (hsize : t.errSize = (decide (4 < t.pos.toNat) && !sizeOk t.sizeLo t.sizeHi t.expected)) (hcksum : t.errCksum = false)
    (hacc : t.acc = xorFold (coveredBytes t)) : ReadInv t where
  flags _ := ⟨hmagic, hsize, hcksum⟩
  acc _ := hacc
  valid h := absurd ((hi.payloadValid_of_reading hs).symm.trans (hvalid.symm.trans h)) nofun

/-- R123: `MAGIC` by offset, as the flag and as the check of the bytes accepted. -/
theorem headerWrong_acceptHeader (hpos : s.pos.toNat < 3) (b : Byte) :
    headerWrong (advance (acceptHeader s.pos.toNat b s)) = (headerWrong s || b != magicByte s.pos.toNat) := by
  have hnext : (advance (acceptHeader s.pos.toNat b s)).pos.toNat = s.pos.toNat + 1 := toNat_pos_succ (s := s) (by omega)
  rw [headerWrong, hnext, headerWrong]
  obtain hp | hp | hp : s.pos.toNat = 0 ∨ s.pos.toNat = 1 ∨ s.pos.toNat = 2 := by omega
  all_goals simp [hp, magicByte]

section
variable (h : ReadInv s) (hi : Inv s) (hs : s.state = .reading) (b : Byte)
include h hs

/-- R23: FRAME_OK says of the registers, through what they hold of the bytes accepted, that every check passed. -/
theorem ReadInv.checksum (hpos : s.pos.toNat = s.expected.toNat + 5) :
    ReadInv (completeRead (advance (acceptChecksum b s))) := by
  obtain ⟨hmagic, hsize, -⟩ := h.flags hs
  refine ⟨nofun, nofun, fun hv => ?_⟩
  obtain ⟨hmagicOk, hsizeOk, hcksumOk⟩ := flags_eq_false_of_readCode hv
  refine ⟨?_, ?_, ?_⟩
  · rw [headerWrong_of_three_le (by omega), show s.errMagic = false from hmagicOk] at hmagic
    simpa using hmagic.symm
  · rw [show s.errSize = false from hsizeOk] at hsize
    simpa [show 4 < s.pos.toNat by omega] using hsize.symm
  · have hck : b = s.acc := by simpa [errCksumAt] using hcksumOk
    have hcovered : coveredBytes s = s.sizeLo :: s.sizeHi :: payloadPrefix s s.expected.toNat := by
      rw [coveredBytes_of_five_le (by omega), hpos, Nat.add_sub_cancel]
    show b = xorFold (s.sizeLo :: s.sizeHi :: payloadPrefix s s.expected.toNat)
    rw [hck, h.acc hs, hcovered]

include hi

theorem ReadInv.header (hpos : s.pos.toNat < 3) : ReadInv (advance (acceptHeader s.pos.toNat b s)) := by
  have hnext : (advance (acceptHeader s.pos.toNat b s)).pos.toNat = s.pos.toNat + 1 := toNat_pos_succ (s := s) (by omega)
  obtain ⟨hmagic, hsize, hcksum⟩ := h.flags hs
  refine readInv_of_reading hi hs rfl ?magic ?size hcksum ?acc
  case magic =>
    rw [headerWrong_acceptHeader hpos, ← hmagic]
    rfl
  case size =>
    rw [hnext]
    simp [hsize, show ¬4 < s.pos.toNat by omega, show ¬4 ≤ s.pos.toNat by omega]
  case acc =>
    rw [coveredBytes_of_le_three (by omega), ← coveredBytes_of_le_three hpos.le, ← h.acc hs]
    rfl

theorem ReadInv.sizeLo (hpos : s.pos.toNat = 3) : ReadInv (advance (acceptSizeLo b s)) := by
  have hnext : (advance (acceptSizeLo b s)).pos.toNat = 4 := (toNat_pos_succ (s := s) (by omega)).trans (by rw [hpos])
  obtain ⟨hmagic, hsize, hcksum⟩ := h.flags hs
  refine readInv_of_reading hi hs rfl ?magic ?size hcksum ?acc
  case magic =>
    have hsame : headerWrong (advance (acceptSizeLo b s)) = headerWrong s :=
      headerWrong_congr hpos.ge (by omega) rfl rfl rfl
    rw [hsame]
    exact hmagic
  case size =>
    rw [hnext]
    simp [hsize, hpos]
  case acc =>
    rw [coveredBytes_of_four hnext]
    simp [h.acc hs, coveredBytes_of_le_three hpos.le]

theorem ReadInv.sizeHi (hpos : s.pos.toNat = 4) : ReadInv (advance (acceptSizeHi b s)) := by
  have hnext : (advance (acceptSizeHi b s)).pos.toNat = 5 := (toNat_pos_succ (s := s) (by omega)).trans (by rw [hpos])
  obtain ⟨hmagic, hsize, hcksum⟩ := h.flags hs
  refine readInv_of_reading hi hs rfl ?magic ?size hcksum ?acc
  case magic =>
    have hsame : headerWrong (advance (acceptSizeHi b s)) = headerWrong s :=
      headerWrong_congr (by omega) (by omega) rfl rfl rfl
    rw [hsame]
    exact hmagic
  case size =>
    rw [hnext]
    simp [hsize, hpos, errSizeAfter, sizeOk, bne]
  case acc =>
    rw [coveredBytes_of_five_le hnext.ge, hnext]
    simp [h.acc hs, coveredBytes_of_four hpos, payloadPrefix]

theorem ReadInv.payload (hlo : 5 ≤ s.pos.toNat) (hhi : s.pos.toNat < s.expected.toNat + 5) :
    ReadInv (advance (acceptPayload (s.pos.toNat - 5) b s)) := by
  have hnext : (advance (acceptPayload (s.pos.toNat - 5) b s)).pos.toNat = s.pos.toNat + 1 := toNat_pos_succ (s := s) hhi.le
  obtain ⟨hmagic, hsize, hcksum⟩ := h.flags hs
  refine readInv_of_reading hi hs rfl ?magic ?size hcksum ?acc
  case magic =>
    have hsame : headerWrong (advance (acceptPayload (s.pos.toNat - 5) b s)) = headerWrong s :=
      headerWrong_congr (by omega) (by omega) rfl rfl rfl
    rw [hsame]
    exact hmagic
  case size =>
    rw [hnext]
    simp [hsize, show 4 < s.pos.toNat by omega, show 4 ≤ s.pos.toNat by omega]
  case acc =>
    have hcovered : coveredBytes (advance (acceptPayload (s.pos.toNat - 5) b s)) = coveredBytes s ++ [b] := by
      rw [coveredBytes_of_five_le (by omega), coveredBytes_of_five_le hlo, hnext, Nat.sub_add_comm hlo, payloadPrefix_succ]
      simp [payloadPrefix_acceptPayload, readPayload_acceptPayload]
    rw [hcovered, xorFold_snoc, ← h.acc hs]
    rfl

end

end

theorem ReadInv.effect {s t : State} {i : Instr} (h : ReadInv s) (hi : Inv s) (e : Effect s i t) : ReadInv t := by
  cases e with
  | nop | ignores | byteWaits | lineErrorLost | timerIdle | engineIdle => exact h
  | readStarts => exact readInv_of_pos_zero rfl rfl rfl rfl rfl rfl
  | readRejected | unpackRejected | clearRejected | reservedRejected | setsCancel | reads | triplet => exact { h with }
  | unpackTooShort | lineErrorEnds | timeoutAborts => exact h.finish _
  | unpackStarts => exact h.startUnpack
  | clears => exact h.acknowledge
  | header b hs hpos => exact h.header hi hs b hpos
  | sizeLo b hs hpos => exact h.sizeLo hi hs b hpos
  | sizeHi b hs hpos => exact h.sizeHi hi hs b hpos
  | payload b hs hlo hhi => exact h.payload hi hs b hlo hhi
  | checksum b hs hpos => exact h.checksum hs b hpos
  | timeoutRetries hs => exact readInv_of_pos_zero rfl rfl rfl rfl rfl (hi.payloadValid_of_reading hs)
  | lastTriplet => exact { h with flags := nofun, acc := nofun }
  | resets => exact readInv_of_pos_zero rfl rfl rfl rfl rfl rfl

/-- Settles O12: the two invariants together are kept by every branch. -/
theorem stepKeepsReadInvariant : Obligations.StepKeepsReadInvariant := by
  intro s t hi h hstep
  exact (step_preserves (P := fun u => Inv u ∧ ReadInv u) (fun _ a ⟨hi, h⟩ => ⟨hi.withAgents a, { h with }⟩)
    (fun _ _ _ ⟨hi, h⟩ e => ⟨hi.effect e, h.effect hi e⟩) ⟨hi, h⟩ hstep).2

/-! R103 on the held frame. -/

theorem length_heldFrame (s : State) : (heldFrame s).length = s.expected.toNat + 6 := by
  simp [heldFrame, payloadPrefix_length]

/-- The three checks on the held frame are the checks on the registers. -/
theorem frameChecks_heldFrame {s : State} (h : ReadInv s) (hvalid : s.payloadValid = true) :
    frameChecks (heldFrame s) s.expected = ⟨false, false, false⟩ := by
  obtain ⟨hmagic, hsize, hck⟩ := h.valid hvalid
  refine (frameChecks_eq_clear_iff ..).mpr ⟨?_, ?_, ?_⟩
  · show [s.magicRx0, s.magicRx1, s.magicRx2] = [Config.magic0, Config.magic1, Config.magic2]
    simpa [magicOk, and_assoc] using hmagic
  · rw [sizeOk, beq_iff_eq, sizeField_eq_append] at hsize
    exact hsize
  · show xorFold ((s.sizeLo :: s.sizeHi :: payloadPrefix s s.expected.toNat) ++ [s.ckRx]) = 0#8
    rw [xorFold_snoc, hck, checksum, BitVec.xor_self]

theorem frameAt_heldFrame (s : State) :
    frameAt (heldFrame s) s.expected = ⟨s.expected, payloadPrefix s s.expected.toNat, s.ckRx⟩ := by
  simp [frameAt, heldFrame, payloadPrefix_length]

/-- Settles O16: `Decode` of the held frame is the verdict on three checks that all pass. -/
theorem validPayloadPassesEveryCheck : Obligations.ValidPayloadPassesEveryCheck := by
  intro s _ h hvalid
  rw [frameDecode_eq_verdict (length_heldFrame s), frameChecks_heldFrame h hvalid, frameAt_heldFrame]
  rfl

end Sys2Proof

/-! ### What the sample store holds (42_unpacker.md sections 1 and 3)

One triplet more stands unpacked after each UNPACK_STEP; from that the step lemma O13, and O55 by induction on the
number of steps. -/

namespace Sys2Proof

open Sys2Proof.Machine

theorem readCode_ne_unpackOk (magic size cksum : Bool) : readCode magic size cksum ≠ .unpackOk := by
  revert magic size cksum
  decide

/-- R153: the two samples written are those of triplet `k`, and the ones before them stay. -/
theorem unpackedUpTo_unpackTriplet {s : State} {k : Nat} (h : unpackedUpTo s k) :
    unpackedUpTo (unpackTriplet k s) (k + 1) := by
  intro j hj
  simp only [readPayload_unpackTriplet]
  obtain rfl | hlt := Nat.eq_or_lt_of_le (Nat.le_of_lt_succ hj)
  · rw [readSample_unpackTriplet, readSample_unpackTriplet, if_neg (by omega), if_pos rfl, if_pos rfl]
    exact ⟨rfl, rfl⟩
  · rw [readSample_unpackTriplet_other s (by omega) (by omega), readSample_unpackTriplet_other s (by omega) (by omega)]
    exact h j hlt

/-- Nothing is claimed of a block that is neither UNPACKING nor DONE with UNPACK_OK. -/
theorem unpackInv_of_ne {s : State} (hs : s.state ≠ .unpacking) (hr : s.state = .done → s.result ≠ .unpackOk) :
    UnpackInv s :=
  ⟨fun hu => absurd hu hs, fun hd hok => absurd hok (hr hd)⟩

theorem unpackInv_of_reading {s : State} (hs : s.state = .reading) : UnpackInv s :=
  unpackInv_of_ne (by simp [hs]) (by simp [hs])

theorem UnpackInv.effect {s t : State} {i : Instr} (h : UnpackInv s) (e : Effect s i t) : UnpackInv t := by
  cases e with
  | nop | ignores | byteWaits | lineErrorLost | timerIdle | engineIdle => exact h
  | readRejected | unpackRejected | clearRejected | reservedRejected | setsCancel | reads => exact { h with }
  | readStarts => exact unpackInv_of_reading rfl
  | header _ hs | sizeLo _ hs | sizeHi _ hs | payload _ hs | timeoutRetries hs => exact unpackInv_of_reading hs
  | unpackTooShort | lineErrorEnds | timeoutAborts => exact unpackInv_of_ne nofun nofun
  | checksum => exact unpackInv_of_ne nofun fun _ => readCode_ne_unpackOk _ _ _
  | clears | resets => exact unpackInv_of_ne nofun nofun
  | unpackStarts => exact ⟨fun _ k hk => absurd hk (Nat.not_lt_zero k), nofun⟩
  | triplet hs hidx =>
    refine ⟨fun _ => ?_, fun hd => absurd (hs.symm.trans hd) nofun⟩
    show unpackedUpTo _ (s.upkIdx + 1#16).toNat
    rw [toNat_upkIdx_succ hidx.le]
    exact unpackedUpTo_unpackTriplet (h.running hs)
  | lastTriplet hs hidx =>
    refine ⟨nofun, fun _ _ => ?_⟩
    rw [← hidx]
    exact unpackedUpTo_unpackTriplet (h.running hs)

/-- Settles O13: the invariant does not speak of the agents, and every branch keeps it. -/
theorem stepKeepsUnpackInvariant : Obligations.StepKeepsUnpackInvariant := by
  intro s t _ h hstep
  exact step_preserves (fun _ _ h => { h with }) (fun _ _ _ => UnpackInv.effect) h hstep

/-! `Unpack` (R150) entry by entry. -/

/-- A function that holds the two samples of each triplet lists what R150's loop computes. -/
theorem unpackTriplets_eq_map {n : Nat} {pay : List Byte} {sample : Nat → Sample} (hlen : 3 * n ≤ pay.length)
    (h : ∀ k < n, sample (2 * k) = pairEven (pay.getD (3 * k) 0#8) (pay.getD (3 * k + 1) 0#8) ∧
      sample (2 * k + 1) = pairOdd (pay.getD (3 * k + 1) 0#8) (pay.getD (3 * k + 2) 0#8)) :
    unpackTriplets n pay = (List.range (2 * n)).map sample := by
  induction n generalizing pay sample with
  | zero => rfl
  | succ n ih =>
    match pay, hlen, h with
    | b0 :: b1 :: b2 :: rest, hlen, h =>
      obtain ⟨heven, hodd⟩ := h 0 (Nat.succ_pos n)
      have hrest : unpackTriplets n rest = (List.range (2 * n)).map fun j => sample (j + 2) :=
        ih (by simp at hlen; omega) fun k hk => h (k + 1) (Nat.succ_lt_succ hk)
      rw [unpackTriplets, hrest, show 2 * (n + 1) = 2 * n + 1 + 1 by omega, List.range_succ_eq_map, List.range_succ_eq_map]
      simp [heven, hodd, Function.comp_def]

theorem getD_payloadPrefix (s : State) {n i : Nat} (h : i < n) : (payloadPrefix s n).getD i 0#8 = readPayload s i := by
  simp [payloadPrefix, h]

/-- R158: the whole store after the last triplet. -/
theorem unpack_payloadPrefix {s t : State} (hneed : Config.need ≤ s.expected.toNat)
    (h : ∀ k < Config.triplets,
      readSample t (2 * k) = pairEven (readPayload s (3 * k)) (readPayload s (3 * k + 1)) ∧
      readSample t (2 * k + 1) = pairOdd (readPayload s (3 * k + 1)) (readPayload s (3 * k + 2))) :
    unpack (payloadPrefix s s.expected.toNat) = some ((List.range Config.samples).map (readSample t)) := by
  have hneed' : 14400 ≤ s.expected.toNat := hneed
  rw [unpack, payloadPrefix_length, if_neg hneed.not_gt]
  refine congrArg some (unpackTriplets_eq_map (n := 4800) ?_ fun k hk => ?_)
  · rw [payloadPrefix_length]
    omega
  · rw [getD_payloadPrefix s (by omega), getD_payloadPrefix s (by omega), getD_payloadPrefix s (by omega)]
    exact h k hk

/-! An uninterrupted unpack (R153, R154). -/

theorem execAll_snoc {is : List Instr} {i : Instr} {s t u : State} (h : execAll is s = .next t) (hi : exec i t = .next u) :
    execAll (is ++ [i]) s = .next u := by
  rw [execAll_append_next h, execAll_cons_next hi, execAll_nil]

/-- `t` is `s` with its first `k` triplets unpacked, and nothing else changed. -/
structure UnpackedTo (s : State) (k : Nat) (t : State) : Prop where
  frame : t = { s with upkIdx := BitVec.ofNat 16 k, samples := t.samples }
  samples : unpackedUpTo t k

theorem UnpackedTo.toNat_upkIdx {s t : State} {k : Nat} (h : UnpackedTo s k t) (hk : k ≤ Config.triplets) :
    t.upkIdx.toNat = k := by
  have hk' : k ≤ 4800 := hk
  rw [h.frame, BitVec.toNat_ofNat]
  omega

theorem unpackedTo_zero {s : State} (h : s.upkIdx = 0#16) : UnpackedTo s 0 s where
  frame := by rw [← h]
  samples k hk := absurd hk (Nat.not_lt_zero k)

/-- One triplet more. -/
theorem UnpackedTo.succ {s t : State} {k : Nat} (h : UnpackedTo s k t) (hk : k < Config.triplets) :
    UnpackedTo s (k + 1) (unpackTriplet t.upkIdx.toNat t) := by
  refine ⟨?_, ?_⟩
  · obtain ⟨m, rfl⟩ : ∃ m, t = { s with upkIdx := BitVec.ofNat 16 k, samples := m } := ⟨t.samples, h.frame⟩
    rw [BitVec.ofNat_add]
    rfl
  · rw [h.toNat_upkIdx hk.le]
    exact unpackedUpTo_unpackTriplet h.samples

theorem execAll_replicate_unpackStep {s : State} (hs : s.state = .unpacking) (hidx : s.upkIdx = 0#16)
    (hcap : Config.need ≤ s.payloadCap) {k : Nat} (hk : k < Config.triplets) :
    ∃ t, execAll (List.replicate k .unpackStep) s = .next t ∧ UnpackedTo s k t := by
  induction k with
  | zero => exact ⟨s, rfl, unpackedTo_zero hidx⟩
  | succ k ih =>
    have hcap' : 14400 ≤ s.payloadCap := hcap
    have hk' : k + 1 < 4800 := hk
    obtain ⟨t, hrun, ht⟩ := ih (Nat.lt_of_succ_lt hk)
    have hstep : Effect t .unpackStep (unpackTriplet t.upkIdx.toNat t) := by
      refine .triplet ?_ ?_ ?_
      · rw [ht.frame, hs]
      · rwa [ht.toNat_upkIdx (Nat.lt_of_succ_lt hk).le]
      · rw [ht.toNat_upkIdx (Nat.lt_of_succ_lt hk).le, ht.frame]
        show 3 * k + 2 < s.payloadCap
        omega
    rw [List.replicate_succ']
    exact ⟨_, execAll_snoc hrun (exec_of_effect hstep), ht.succ (Nat.lt_of_succ_lt hk)⟩

/-- Settles O55: after 4799 triplets the last UNPACK_STEP does one more and completes the unpack. -/
theorem unpackRunComputesUnpack : Obligations.UnpackRunComputesUnpack := by
  intro s hs hidx hneed hfits
  obtain ⟨t, hrun, ht⟩ := execAll_replicate_unpackStep hs hidx (hneed.trans hfits) (k := 4799) (by decide)
  have hidxT : t.upkIdx.toNat = 4799 := ht.toNat_upkIdx (by decide)
  have hlast : Effect t .unpackStep (completeUnpack (unpackTriplet t.upkIdx.toNat t)) := by
    refine .lastTriplet ?_ ?_ ?_
    · rw [ht.frame, hs]
    · rw [hidxT]
    · rw [hidxT, ht.frame]
      show 3 * 4799 + 2 < s.payloadCap
      omega
  have hdone : UnpackedTo s 4800 (unpackTriplet t.upkIdx.toNat t) := ht.succ (by decide)
  have hsplit : List.replicate 4800 Instr.unpackStep = List.replicate 4799 .unpackStep ++ [.unpackStep] :=
    List.replicate_succ'
  rw [hsplit]
  refine ⟨_, execAll_snoc hrun (exec_of_effect hlast), ?frame, unpack_payloadPrefix hneed fun k hk => ?samples⟩
  case frame =>
    rw [completeUnpack, hdone.frame]
    rfl
  case samples =>
    have hpayload : ∀ a, readPayload (unpackTriplet t.upkIdx.toNat t) a = readPayload s a :=
      readPayload_congr (by rw [hdone.frame]) (by rw [hdone.frame])
    simp only [← hpayload]
    exact hdone.samples k hk

end Sys2Proof

/-! ### What every operation keeps (10_state.md, 20_memory.md, 60_exceptions.md)

The writers of registers and stores, the way out of DONE, the way to PAYLOAD_VALID, and what steers no operation: each
read off the branches, from O29 and O34 to O47. -/

namespace Sys2Proof

open Sys2Proof.Machine

/-- Settles O29: the operation of a CMD word is selected by OP, its meaning reads ARG only for READ and the reserved bits
never; CTRL gives its bit 0. -/
theorem ignoredBitsChangeNothing : Obligations.IgnoredBitsChangeNothing := by
  refine ⟨fun d d' s hop harg => ?cmd, fun d d' s hbit => ?ctrl⟩
  case cmd =>
    have hop' : cmdOp d' = cmdOp d := hop.symm
    rw [ofInput_hostWr_cmd, ofInput_hostWr_cmd]
    obtain h | h | h | h | ⟨h, -⟩ := op_cases (cmdOp d)
    · rw [ofCommand_nop h, ofCommand_nop (hop'.trans h), exec_cmdNop, exec_cmdNop]
    · have hsame : cmdArg d = cmdArg d' := harg h
      rw [ofCommand_read h, ofCommand_read (hop'.trans h), hsame]
      rfl
    · rw [ofCommand_unpack h, ofCommand_unpack (hop'.trans h)]
      rfl
    · rw [ofCommand_clear h, ofCommand_clear (hop'.trans h)]
      rfl
    · rw [ofCommand_reserved h, ofCommand_reserved (hop' ▸ h), exec_cmdReserved, exec_cmdReserved]
  case ctrl =>
    have hcancel : ctrlCancel d = ctrlCancel d' := hbit
    rw [ofInput_hostWr_ctrl, ofInput_hostWr_ctrl, exec_wrCtrl, exec_wrCtrl, hcancel]

/-- Settles O34: only the checksum byte's branch leaves READING, and the other four advance POS by one. -/
theorem noEarlyEndOfRead : Obligations.NoEarlyEndOfRead := by
  intro b s t hs hpos h
  have hnext : (s.pos + 1#17).toNat = s.pos.toNat + 1 := toNat_pos_succ hpos.le
  cases effect_of_exec h with
  | header | sizeLo | sizeHi | payload => exact ⟨hs, rfl, rfl, hnext⟩
  | checksum _ _ hlast => exact absurd hlast hpos.ne
  | byteWaits _ hwaits => exact absurd hs hwaits

/-- Settles O41: each branch's named update changes only registers of which its operation is a writer. -/
theorem registersHaveTheirWritersOnly : Obligations.RegistersHaveTheirWritersOnly := by
  intro i s t h
  cases effect_of_exec h <;> simp

/-- Settles O42: an accepted byte is the one branch that writes `P`, a triplet the one that writes `S`, RESET apart. -/
theorem storesHaveTheirWritersOnly : Obligations.StoresHaveTheirWritersOnly := by
  intro i s t h hreset
  cases effect_of_exec h with
  | resets => exact absurd rfl hreset
  | payload b => exact ⟨fun hbyte => absurd rfl (hbyte b), fun _ => readSample_acceptPayload (s.pos.toNat - 5) b s⟩
  | triplet | lastTriplet => exact ⟨fun _ _ => rfl, fun hstep => absurd rfl hstep⟩
  | _ => exact ⟨fun _ _ => rfl, fun _ _ => rfl⟩

/-- Settles O43: the other branches that change STATE start from READING or UNPACKING, or end in DONE. -/
theorem doneIsLeftByCommandOrReset : Obligations.DoneIsLeftByCommandOrReset := by
  intro i s t hs h hleft
  cases effect_of_exec h with
  | readStarts rsv => exact .inl ⟨rsv, _, rfl⟩
  | unpackStarts rsv arg _ hvalid => exact .inr (.inl ⟨⟨rsv, arg, rfl⟩, hvalid⟩)
  | clears rsv arg => exact .inr (.inr (.inl ⟨rsv, arg, rfl⟩))
  | resets => exact .inr (.inr (.inr rfl))
  | unpackTooShort | checksum | lineErrorEnds | timeoutAborts | lastTriplet => exact absurd rfl hleft
  | _ => exact absurd hs hleft

/-- Settles O44: of the branches only RESET, an accepted READ and the checksum byte write PAYLOAD_VALID, and the last
sets it exactly with FRAME_OK. -/
theorem onlyFrameOkValidatesPayload : Obligations.OnlyFrameOkValidatesPayload := by
  intro i s t h hbefore hafter
  cases effect_of_exec h with
  | checksum b hs hpos =>
    exact ⟨b, rfl, hs, hpos, rfl, beq_iff_eq.mp hafter, flags_eq_false_of_readCode hafter⟩
  | readStarts | resets => exact absurd hafter nofun
  | _ => exact absurd (hbefore.symm.trans hafter) nofun

/-! What steers no operation: each branch is taken again, its guard unchanged. -/

theorem Effect.withHostData {s t : State} {i : Instr} (h : Effect s i t) (hrd : ∀ addr, i ≠ .rd addr) (w : Option Word) :
    Effect { s with hostData := w } i { t with hostData := w } := by
  cases h with
  | reads addr => exact absurd rfl (hrd addr)
  | _ => constructor <;> assumption

/-- Settles O45: no branch reads the word last read. -/
theorem hostReadsDisturbNothing : Obligations.HostReadsDisturbNothing :=
  fun _ _ _ w hrd h => exec_of_effect ((effect_of_exec h).withHostData hrd w)

/-- R27: CANCEL is in the guards of TIMEOUT alone. -/
theorem Effect.withCancel {s t : State} {i : Instr} (h : Effect s i t) (htimeout : i ≠ .timeout) (hrd : ∀ addr, i ≠ .rd addr)
    (hctrl : ∀ d, i ≠ .wrCtrl d) (hreset : i ≠ .reset) (c : Bool) :
    Effect { s with cancel := c } i { t with cancel := c } := by
  cases h with
  | timeoutAborts | timeoutRetries | timerIdle => exact absurd rfl htimeout
  | reads addr => exact absurd rfl (hrd addr)
  | setsCancel d => exact absurd rfl (hctrl d)
  | resets => exact absurd rfl hreset
  | _ => constructor <;> assumption

/-- Settles O46: outside TIMEOUT no guard and no update reads CANCEL. -/
theorem cancelSteersOnlyTimeout : Obligations.CancelSteersOnlyTimeout :=
  fun _ _ _ c htimeout hrd hctrl hreset h => exec_of_effect ((effect_of_exec h).withCancel htimeout hrd hctrl hreset c)

/-- R157: no guard reads `P`, and only the samples are computed from it. -/
theorem Effect.exists_withPayload {s t : State} {i : Instr} (h : Effect s i t) (hrd : ∀ addr, i ≠ .rd addr)
    (p : Memory Byte) :
    ∃ u, Effect { s with payload := p } i u ∧ { u with payload := t.payload, samples := t.samples } = t := by
  cases h with
  | nop rsv arg => exact ⟨_, .nop rsv arg, rfl⟩
  | readStarts rsv hopen hcap => exact ⟨_, .readStarts rsv hopen hcap, rfl⟩
  | readRejected rsv hrej => exact ⟨_, .readRejected rsv hrej, rfl⟩
  | unpackTooShort rsv arg hopen hvalid hshort => exact ⟨_, .unpackTooShort rsv arg hopen hvalid hshort, rfl⟩
  | unpackStarts rsv arg hopen hvalid hneed => exact ⟨_, .unpackStarts rsv arg hopen hvalid hneed, rfl⟩
  | unpackRejected rsv arg hrej => exact ⟨_, .unpackRejected rsv arg hrej, rfl⟩
  | clears rsv arg hopen => exact ⟨_, .clears rsv arg hopen, rfl⟩
  | clearRejected rsv arg hbusy => exact ⟨_, .clearRejected rsv arg hbusy, rfl⟩
  | reservedRejected op rsv arg => exact ⟨_, .reservedRejected op rsv arg, rfl⟩
  | setsCancel d => exact ⟨_, .setsCancel d, rfl⟩
  | ignores addr d => exact ⟨_, .ignores addr d, rfl⟩
  | reads addr => exact absurd rfl (hrd addr)
  | header b hs hpos => exact ⟨_, .header b hs hpos, rfl⟩
  | sizeLo b hs hpos => exact ⟨_, .sizeLo b hs hpos, rfl⟩
  | sizeHi b hs hpos => exact ⟨_, .sizeHi b hs hpos, rfl⟩
  | payload b hs hlo hhi hcap => exact ⟨_, .payload b hs hlo hhi hcap, rfl⟩
  | checksum b hs hpos => exact ⟨_, .checksum b hs hpos, rfl⟩
  | byteWaits b hs => exact ⟨_, .byteWaits b hs, rfl⟩
  | lineErrorEnds hs => exact ⟨_, .lineErrorEnds hs, rfl⟩
  | lineErrorLost hs => exact ⟨_, .lineErrorLost hs, rfl⟩
  | timeoutAborts hs hc => exact ⟨_, .timeoutAborts hs hc, rfl⟩
  | timeoutRetries hs hc => exact ⟨_, .timeoutRetries hs hc, rfl⟩
  | timerIdle hs => exact ⟨_, .timerIdle hs, rfl⟩
  | triplet hs hidx hcap => exact ⟨_, .triplet hs hidx hcap, rfl⟩
  | lastTriplet hs hidx hcap => exact ⟨_, .lastTriplet hs hidx hcap, rfl⟩
  | engineIdle hs => exact ⟨_, .engineIdle hs, rfl⟩
  | resets => exact ⟨_, .resets, rfl⟩

/-- Settles O47: the branch taken is the same, and its update differs in the two stores alone. -/
theorem payloadContentsSteerNothing : Obligations.PayloadContentsSteerNothing := by
  intro i s t p hrd h
  obtain ⟨u, hu, heq⟩ := (effect_of_exec h).exists_withPayload hrd p
  exact ⟨u, exec_of_effect hu, heq⟩

end Sys2Proof

/-! ### Bytes accepted one after the other (41_frame_parser.md)

`Accepted s l t` says of every register and of `P` what they are after the bytes `l` of an attempt that began at `s`;
one byte more is one branch of R122. The byte after the payload completes the read, and the registers then hold the
three checks of R105. -/

namespace Sys2Proof

open Sys2Proof.Machine

/-! The tier 1 rules of a byte by offset. -/

theorem exec_rxByte_header (b : Byte) {s : State} (hs : s.state = .reading) (hpos : s.pos.toNat < 3) :
    exec (.rxByte b) s = .next (advance (acceptHeader s.pos.toNat b s)) :=
  exec_of_effect (.header b hs hpos)

/-- Settles O30: at offset `p` the header branch writes MAGIC_RX`p` and compares with MAGIC[`p`]. -/
theorem headerByteIsChecked : Obligations.HeaderByteIsChecked := by
  refine fun b s hs => ⟨fun hpos => ?_, fun hpos => ?_, fun hpos => ?_⟩ <;>
    · rw [exec_rxByte_header b hs (by rw [hpos]; decide), advance, acceptHeader, hpos]
      rfl

/-- Settles O32: the payload branch writes entry `p - 5` and leaves the others as they read. -/
theorem payloadByteIsStored : Obligations.PayloadByteIsStored := by
  intro b s hs hlo hhi hcap
  refine ⟨_, exec_of_effect (.payload b hs hlo hhi hcap), rfl, ?_, fun a ha => ?_⟩
  · rw [readPayload_advance, readPayload_acceptPayload, if_pos rfl]
  · rw [readPayload_advance, readPayload_acceptPayload, if_neg ha]

/-- R108: the other payload has the same size bytes and the same checksum, so the frame is its wire form. -/
theorem toWire_of_same_xorFold {p q f : List Byte} (h : toWire p = some f) (hlen : q.length = p.length)
    (hxor : xorFold q = xorFold p) : toWire q = some (f.take 5 ++ q ++ f.drop (p.length + 5)) := by
  have hp := length_le_of_toWire h
  rw [toWire_of_length_le hp] at h
  cases h
  have hlo : lengthLo q = lengthLo p := congrArg (BitVec.ofNat 8) hlen
  have hhi : lengthHi q = lengthHi p := congrArg (fun n => BitVec.ofNat 8 (n / 256)) hlen
  have hck : checksum (lengthLo p) (lengthHi p) q = checksum (lengthLo p) (lengthHi p) p := by
    simp only [checksum, xorFold_cons, hxor]
  rw [toWire_of_length_le (hlen.trans_le hp), hlo, hhi, hck]
  simp

/-- Settles O51: the changed frame is the wire form of the other payload, and `Decode` gives that back. -/
theorem zeroXorPayloadChangeIsMissed : Obligations.ZeroXorPayloadChangeIsMissed := by
  intro p q f h hlen hxor
  obtain ⟨g, hg, -, hdecode⟩ := wireRoundTrip q (hlen.trans_le (length_le_of_toWire h))
  rw [toWire_of_same_xorFold h hlen hxor] at hg
  cases hg
  rw [hlen] at hdecode
  exact ⟨_, hdecode⟩

/-! A sequence of bytes with one more at its end. -/

section
variable (l : List Byte) (b : Byte)

theorem getD_snoc_lt {l : List Byte} {i : Nat} (hi : i < l.length) : (l ++ [b]).getD i 0#8 = l.getD i 0#8 :=
  List.getD_append _ _ _ _ hi

theorem getD_snoc_length : (l ++ [b]).getD l.length 0#8 = b := by simp

/-- The header as far as the bytes go. -/
def headerOf (n : Nat) : List Byte := [0x5A#8, 0x77#8, 0xFF#8].take n

theorem headerOf_of_three_le {n : Nat} (h : 3 ≤ n) : headerOf n = [0x5A#8, 0x77#8, 0xFF#8] :=
  List.take_of_length_le h

/-- R123: the header check, byte by byte. -/
theorem take_three_bne_header_snoc {l : List Byte} (h : l.length < 3) :
    ((l ++ [b]).take 3 != headerOf (l.length + 1)) = (l.take 3 != headerOf l.length || b != magicByte l.length) := by
  match l with
  | [] | [_] | [_, _] => simp [headerOf, magicByte, Config.magic0, Config.magic1, Config.magic2, bne, Bool.or_assoc]

theorem take_three_snoc {l : List Byte} (h : 3 ≤ l.length) : (l ++ [b]).take 3 = l.take 3 :=
  List.take_append_of_le_length h

theorem drop_three_snoc {l : List Byte} (h : 3 ≤ l.length) : (l ++ [b]).drop 3 = l.drop 3 ++ [b] :=
  List.drop_append_of_le_length h

end

/-! The state after the bytes `l`. -/

/-- `t` is `s` after the bytes `l` of an attempt that began at `s`, `l` shorter than the frame. -/
structure Accepted (s : State) (l : List Byte) (t : State) : Prop where
  frame : t = { s with
    pos := t.pos, acc := t.acc, sizeLo := t.sizeLo, sizeHi := t.sizeHi, magicRx0 := t.magicRx0, magicRx1 := t.magicRx1,
    magicRx2 := t.magicRx2, errMagic := t.errMagic, errSize := t.errSize, payload := t.payload }
  pos : t.pos.toNat = l.length
  acc : t.acc = s.acc ^^^ xorFold (l.drop 3)
  sizeLo : 3 < l.length → t.sizeLo = l.getD 3 0#8
  sizeHi : 4 < l.length → t.sizeHi = l.getD 4 0#8
  errMagic : t.errMagic = (s.errMagic || l.take 3 != headerOf l.length)
  errSize : t.errSize =
    (s.errSize || (decide (4 < l.length) && (l.getD 4 0#8 ++ l.getD 3 0#8 : BitVec 16) != s.expected))
  payload : ∀ i, readPayload t i = if i + 5 < l.length then l.getD (i + 5) 0#8 else readPayload s i

theorem accepted_nil {s : State} (hpos : s.pos = 0#17) : Accepted s [] s where
  frame := rfl
  pos := by simp [hpos]
  acc := by simp
  sizeLo := nofun
  sizeHi := nofun
  errMagic := by simp [headerOf]
  errSize := by simp
  payload _ := by simp

section
variable {s t : State} {l : List Byte} (h : Accepted s l t)
include h

theorem Accepted.state_eq : t.state = s.state := by rw [h.frame]
theorem Accepted.expected_eq : t.expected = s.expected := by rw [h.frame]
theorem Accepted.payloadCap_eq : t.payloadCap = s.payloadCap := by rw [h.frame]

/-- The payload read so far, once the whole payload is there. -/
theorem Accepted.payloadPrefix_eq {n : Nat} (hn : l.length = n + 5) : payloadPrefix t n = l.drop 5 := by
  refine List.ext_getElem (by simp [payloadPrefix_length, hn]) fun i hi _ => ?_
  rw [payloadPrefix_length] at hi
  have hlt : i + 5 < l.length := by omega
  simp [payloadPrefix, h.payload, hlt, Nat.add_comm 5 i]

/-! What one byte more does to each clause, where several fields of the frame agree. -/

variable (b : Byte)

theorem Accepted.pos_snoc (hroom : t.pos.toNat ≤ t.expected.toNat + 5) : (t.pos + 1#17).toNat = (l ++ [b]).length := by
  rw [toNat_pos_succ hroom, h.pos, List.length_append, List.length_singleton]

theorem Accepted.acc_snoc (hlen : 3 ≤ l.length) : t.acc ^^^ b = s.acc ^^^ xorFold ((l ++ [b]).drop 3) := by
  rw [drop_three_snoc b hlen, xorFold_snoc, ← BitVec.xor_assoc, ← h.acc]

theorem Accepted.errMagic_snoc (hlen : 3 ≤ l.length) :
    t.errMagic = (s.errMagic || (l ++ [b]).take 3 != headerOf (l ++ [b]).length) := by
  have hmagic := h.errMagic
  rw [headerOf_of_three_le hlen] at hmagic
  rw [take_three_snoc b hlen, headerOf_of_three_le (by simp; omega)]
  exact hmagic

theorem Accepted.readPayload_before (hlen : l.length < 5) (i : Nat) :
    readPayload t i = if i + 5 < (l ++ [b]).length then (l ++ [b]).getD (i + 5) 0#8 else readPayload s i := by
  rw [h.payload, if_neg (by omega), if_neg (by simp; omega)]

/-! One byte more, by the field of its offset. -/

theorem Accepted.header (hlen : l.length < 3) (hroom : t.pos.toNat ≤ t.expected.toNat + 5) :
    Accepted s (l ++ [b]) (advance (acceptHeader t.pos.toNat b t)) where
  frame := by
    have hframe := h.frame
    generalize t.pos.toNat = p
    rw [hframe]
    rfl
  pos := h.pos_snoc b hroom
  acc := by
    have hdrop : ∀ m : List Byte, m.length ≤ 3 → m.drop 3 = [] := fun m hm => List.drop_eq_nil_of_le hm
    rw [hdrop _ (by simp; omega), ← hdrop l hlen.le]
    exact h.acc
  sizeLo hlt := by simp at hlt; omega
  sizeHi hlt := by simp at hlt; omega
  errMagic := by
    rw [List.length_append, List.length_singleton, take_three_bne_header_snoc b hlen, ← Bool.or_assoc, ← h.errMagic, ← h.pos]
    rfl
  errSize := by
    have hsize := h.errSize
    simp [show ¬4 < l.length by omega] at hsize
    simp [hsize, show ¬4 ≤ l.length by omega]
  payload := h.readPayload_before b (by omega)

theorem Accepted.lowSize (hlen : l.length = 3) (hroom : t.pos.toNat ≤ t.expected.toNat + 5) :
    Accepted s (l ++ [b]) (advance (acceptSizeLo b t)) where
  frame := by
    rw [h.frame]
    rfl
  pos := h.pos_snoc b hroom
  acc := h.acc_snoc b hlen.ge
  sizeLo _ := by rw [← hlen, getD_snoc_length]; rfl
  sizeHi hlt := by simp at hlt; omega
  errMagic := h.errMagic_snoc b hlen.ge
  errSize := by
    have hsize := h.errSize
    simp [hlen] at hsize
    simp [hsize, hlen]
  payload := h.readPayload_before b (by omega)

theorem Accepted.highSize (hlen : l.length = 4) (hroom : t.pos.toNat ≤ t.expected.toNat + 5) :
    Accepted s (l ++ [b]) (advance (acceptSizeHi b t)) where
  frame := by
    rw [h.frame]
    rfl
  pos := h.pos_snoc b hroom
  acc := h.acc_snoc b (by omega)
  sizeLo _ := by
    rw [getD_snoc_lt b (by omega)]
    exact h.sizeLo (by omega)
  sizeHi _ := by rw [← hlen, getD_snoc_length]; rfl
  errMagic := h.errMagic_snoc b (by omega)
  errSize := by
    have hsize := h.errSize
    have hhi : (l ++ [b]).getD 4 0#8 = b := by rw [← hlen, getD_snoc_length]
    rw [hhi, getD_snoc_lt b (by omega), ← h.sizeLo (by omega), List.length_append, hlen]
    simp [hlen] at hsize
    simp [hsize, errSizeAfter, sizeField_eq_append, h.expected_eq]
  payload := h.readPayload_before b (by omega)

theorem Accepted.payloadByte (hlen : 5 ≤ l.length) (hroom : t.pos.toNat ≤ t.expected.toNat + 5) :
    Accepted s (l ++ [b]) (advance (acceptPayload (t.pos.toNat - 5) b t)) where
  frame := by
    have hframe := h.frame
    generalize t.pos.toNat - 5 = p
    rw [hframe]
    rfl
  pos := h.pos_snoc b hroom
  acc := h.acc_snoc b (by omega)
  sizeLo _ := by
    rw [getD_snoc_lt b (by omega)]
    exact h.sizeLo (by omega)
  sizeHi _ := by
    rw [getD_snoc_lt b (by omega)]
    exact h.sizeHi (by omega)
  errMagic := h.errMagic_snoc b (by omega)
  errSize := by
    have hsize := h.errSize
    rw [decide_eq_true (by omega : 4 < l.length)] at hsize
    rw [getD_snoc_lt b (by omega), getD_snoc_lt b (by omega), decide_eq_true (by simp; omega)]
    exact hsize
  payload i := by
    rw [readPayload_advance, readPayload_acceptPayload, h.payload, h.pos, List.length_append, List.length_singleton]
    obtain hlt | heq | hgt : i + 5 < l.length ∨ i + 5 = l.length ∨ l.length < i + 5 := by omega
    · rw [if_neg (by omega), if_pos hlt, if_pos (by omega), getD_snoc_lt b hlt]
    · rw [if_pos (by omega), if_pos (by omega), heq, getD_snoc_length]
    · rw [if_neg (by omega), if_neg (by omega), if_neg (by omega)]

/-- Before the checksum byte the read goes on, whatever the byte. -/
theorem Accepted.succ (hs : s.state = .reading) (hcap : s.expected.toNat ≤ s.payloadCap)
    (hlen : l.length < s.expected.toNat + 5) : ∃ u, exec (.rxByte b) t = .next u ∧ Accepted s (l ++ [b]) u := by
  have ht : t.state = .reading := h.state_eq.trans hs
  have hpos := h.pos
  have hexpected := h.expected_eq
  have hroom : t.pos.toNat ≤ t.expected.toNat + 5 := by rw [hexpected]; omega
  obtain hheader | hlo | hhi | hpayload : l.length < 3 ∨ l.length = 3 ∨ l.length = 4 ∨ 5 ≤ l.length := by omega
  · exact ⟨_, exec_of_effect (.header b ht (by omega)), h.header b hheader hroom⟩
  · exact ⟨_, exec_of_effect (.sizeLo b ht (by omega)), h.lowSize b hlo hroom⟩
  · exact ⟨_, exec_of_effect (.sizeHi b ht (by omega)), h.highSize b hhi hroom⟩
  · refine ⟨_, exec_of_effect (.payload b ht (by omega) (by rw [hexpected]; omega) ?_), h.payloadByte b hpayload hroom⟩
    rw [h.payloadCap_eq]
    omega

end

/-- R122, R139: an attempt goes on to the checksum byte. -/
theorem exists_accepted {s : State} (hs : s.state = .reading) (hpos : s.pos = 0#17)
    (hcap : s.expected.toNat ≤ s.payloadCap) {l : List Byte} (hlen : l.length ≤ s.expected.toNat + 5) :
    ∃ t, execAll (l.map .rxByte) s = .next t ∧ Accepted s l t := by
  induction l using List.reverseRecOn with
  | nil => exact ⟨s, rfl, accepted_nil hpos⟩
  | append_singleton l b ih =>
    rw [List.length_append, List.length_singleton] at hlen
    obtain ⟨t, hrun, ht⟩ := ih (Nat.le_of_succ_le hlen)
    obtain ⟨u, hu, hacc⟩ := ht.succ b hs hcap hlen
    rw [List.map_append]
    exact ⟨u, execAll_snoc hrun hu, hacc⟩

end Sys2Proof

/-! ### Whole frames (R129, R136, R137)

The byte at offset `E + 5` completes an uninterrupted attempt; read off `Accepted`, the registers hold `Decode` (O52).
The same bytes through the machine's steps are O53, and attempts that end in a TIMEOUT before a last one that
completes are O54. -/

namespace Sys2Proof

open Sys2Proof.Machine

/-- All but the last byte of a frame are accepted, and the last one completes the read. -/
theorem exists_completed {s : State} {f : List Byte} (hs : s.state = .reading) (hpos : s.pos = 0#17)
    (hcap : s.expected.toNat ≤ s.payloadCap) (hlen : f.length = s.expected.toNat + 6) :
    ∃ l b u, f = l ++ [b] ∧ l.length = s.expected.toNat + 5 ∧ execAll (l.map .rxByte) s = .next u ∧ Accepted s l u ∧
      exec (.rxByte b) u = .next (completeRead (advance (acceptChecksum b u))) := by
  obtain rfl | ⟨l, b, rfl⟩ := List.eq_nil_or_concat f
  · cases hlen
  · rw [List.concat_eq_append, List.length_append, List.length_singleton] at hlen
    have hl : l.length = s.expected.toNat + 5 := Nat.succ.inj hlen
    obtain ⟨u, hrun, hu⟩ := exists_accepted hs hpos hcap hl.le
    refine ⟨l, b, u, List.concat_eq_append, hl, hrun, hu, exec_of_effect (.checksum b (hu.state_eq.trans hs) ?_)⟩
    rw [hu.pos, hu.expected_eq, hl]

/-- The covered bytes are the size bytes and the payload (R74). -/
theorem drop_three_eq {l : List Byte} (h : 5 ≤ l.length) : l.drop 3 = l.getD 3 0#8 :: l.getD 4 0#8 :: l.drop 5 := by
  match l, h with
  | _ :: _ :: _ :: _ :: _ :: _, _ => rfl

/-- R129: the registers before the checksum byte, and that byte, are the three checks of the frame. -/
theorem frameChecks_of_accepted {s u : State} {l : List Byte} (hu : Accepted s l u) (hlen : l.length = s.expected.toNat + 5)
    (hacc : s.acc = 0#8) (hmagic : s.errMagic = false) (hsize : s.errSize = false) (b : Byte) :
    frameChecks (l ++ [b]) s.expected = ⟨u.errMagic, u.errSize, b != u.acc⟩ := by
  rw [frameChecks, CheckFlags.mk.injEq]
  refine ⟨?header, ?sizeBytes, ?xor⟩
  case header => rw [hu.errMagic, hmagic, headerOf_of_three_le (by omega), take_three_snoc b (by omega), Bool.false_or]
  case sizeBytes =>
    rw [hu.errSize, hsize, decide_eq_true (by omega), getD_snoc_lt b (by omega), getD_snoc_lt b (by omega), Bool.true_and,
      Bool.false_or]
  case xor =>
    rw [hu.acc, hacc, BitVec.zero_xor, drop_three_snoc b (by omega), xorFold_snoc, Bool.eq_iff_iff, bne_iff_ne, bne_iff_ne,
      ne_eq, ne_eq, BitVec.xor_eq_zero_iff, eq_comm]

theorem take_drop_five_snoc {l : List Byte} {n : Nat} (h : l.length = n + 5) (b : Byte) :
    ((l ++ [b]).drop 5).take n = l.drop 5 := by
  rw [List.drop_append_of_le_length (by omega), List.take_append_of_le_length (by simp; omega),
    List.take_of_length_le (by simp; omega)]

/-- Settles O52: the verdict of `Decode` and the code of the completed read are the same function of the same three
checks; the rest is what `Accepted` says of each register. -/
theorem parserComputesDecode : Obligations.ParserComputesDecode := by
  intro s f hs hpos hacc hmagic hsize hcap hlen
  obtain ⟨l, b, u, rfl, hl, hrun, hu, hlast⟩ := exists_completed hs hpos hcap hlen
  have hpayload : payloadPrefix u s.expected.toNat = ((l ++ [b]).drop 5).take s.expected.toNat := by
    rw [hu.payloadPrefix_eq hl, take_drop_five_snoc hl]
  have hlo : u.sizeLo = (l ++ [b]).getD 3 0#8 := by rw [getD_snoc_lt b (by omega), hu.sizeLo (by omega)]
  have hhi : u.sizeHi = (l ++ [b]).getD 4 0#8 := by rw [getD_snoc_lt b (by omega), hu.sizeHi (by omega)]
  have hck : b = (l ++ [b]).getD (s.expected.toNat + 5) 0#8 := by rw [← hl, getD_snoc_length]
  rw [List.map_append]
  refine ⟨_, execAll_snoc hrun hlast, rfl, ?verdict, hpayload, hlo, hhi, hck, ?acc, ?pos, ?attempts, hu.expected_eq,
    fun i hi => ?beyond, ?samples⟩
  case verdict =>
    rw [frameDecode_eq_verdict hlen, frameChecks_of_accepted hu hl hacc hmagic hsize b]
    simp only [completeRead_result, completeRead_payloadValid, completeRead_errMagic, completeRead_errSize,
      completeRead_errCksum, payloadPrefix_completeRead, advance_errMagic, advance_errSize, advance_errCksum,
      payloadPrefix_advance, acceptChecksum_errMagic, acceptChecksum_errSize, acceptChecksum_errCksum,
      payloadPrefix_acceptChecksum, errCksumAt, hpayload]
    match u.errMagic, u.errSize, b != u.acc with
    | true, _, _ => exact ⟨rfl, rfl, rfl⟩
    | false, true, _ => exact ⟨rfl, rfl, rfl⟩
    | false, false, true => exact ⟨rfl, rfl, rfl⟩
    | false, false, false => exact ⟨rfl, rfl, rfl, rfl⟩
  case acc =>
    show u.acc = checksum _ _ _
    rw [hu.acc, hacc, BitVec.zero_xor, drop_three_eq (by omega), getD_snoc_lt b (by omega), getD_snoc_lt b (by omega),
      take_drop_five_snoc hl, checksum]
  case pos =>
    rw [← hlen]
    exact hu.pos_snoc b (by rw [hu.pos, hu.expected_eq, hl])
  case attempts =>
    show u.attempts = s.attempts
    rw [hu.frame]
  case beyond =>
    show readPayload u i = readPayload s i
    rw [hu.payload, if_neg (by omega)]
  case samples =>
    have hsamples : u.samples = s.samples := by rw [hu.frame]
    have hdraw : u.drawNo = s.drawNo := by rw [hu.frame]
    exact readSample_congr hsamples hdraw

/-! The same bytes through the machine's steps (R133, R136). -/

/-- A step of the line while READING takes its first byte and runs RX_BYTE. -/
theorem step_lineByte_of_reading {t u : State} {b : Byte} (hs : t.state = .reading) (h : exec (.rxByte b) t = .next u)
    (host : List HostOp) (line : List Byte) (moves : List Move) (n : Nat) :
    step (withAgents ⟨host, b :: line, .lineByte :: moves, n⟩ t) =
      .next (withAgents ⟨host, line, moves, n + 1⟩ u) := by
  have hready : rxReady (withAgents ⟨host, b :: line, .lineByte :: moves, n⟩ t) = true := (rxReady_iff _).mpr hs
  have hfetch : fetch (withAgents ⟨host, b :: line, .lineByte :: moves, n⟩ t) =
      some (.rxByte b, withAgents ⟨host, line, moves, n + 1⟩ t) := by
    show some (Instr.rxByte b, _) = _
    rw [hready]
    rfl
  rw [step, hfetch]
  exact exec_of_effect ((effect_of_exec h).withAgents _)

/-- One more step after a run. -/
theorem run_succ_next {M : Host.Core} {n : Nat} {s t : M.State} (h : M.run n s = .next t) : M.run (n + 1) s = M.step t := by
  induction n generalizing s with
  | zero =>
    cases h
    cases hstep : M.step t <;> simp only [Host.Core.run, hstep]
  | succ n ih =>
    rw [Host.Core.run] at h ⊢
    split at h
    · exact ih h
    · cases h
    · cases h

/-- The bytes before the checksum byte, each taken from the line in a step of its own. -/
theorem run_lineBytes {s : State} (hs : s.state = .reading) (hpos : s.pos = 0#17)
    (hcap : s.expected.toNat ≤ s.payloadCap) {l rest : List Byte} {ms : List Move}
    (hlen : l.length ≤ s.expected.toNat + 5) (hline : s.line = l ++ rest)
    (hmoves : s.moves = List.replicate l.length .lineByte ++ ms) :
    ∃ t, Accepted s l t ∧
      Host.Core.run Sys2Proof.core l.length s = .next (withAgents ⟨s.host, rest, ms, s.moveNo + l.length⟩ t) := by
  induction l using List.reverseRecOn generalizing rest ms with
  | nil =>
    refine ⟨s, accepted_nil hpos, ?_⟩
    rw [← show s.line = rest from hline, ← show s.moves = ms from hmoves]
    rfl
  | append_singleton l b ih =>
    rw [List.length_append, List.length_singleton] at hlen hmoves ⊢
    rw [List.append_assoc] at hline
    rw [List.replicate_succ', List.append_assoc] at hmoves
    obtain ⟨t, ht, hrun⟩ := ih (Nat.le_of_succ_le hlen) hline hmoves
    obtain ⟨u, hu, hacc⟩ := ht.succ b hs hcap hlen
    refine ⟨u, hacc, ?_⟩
    rw [run_succ_next hrun]
    exact step_lineByte_of_reading (ht.state_eq.trans hs) hu ..

/-- Settles O53: the `E + 5` bytes and the checksum byte are each one step of the line; the rest of the line and the
later moves are what those steps leave. -/
theorem readConsumesExactlyOneFrame : Obligations.ReadConsumesExactlyOneFrame := by
  intro s f rest ms hs hpos hcap hlen hline hmoves
  obtain ⟨l, b, -, rfl, hl, -, -, -⟩ := exists_completed hs hpos hcap hlen
  have hmoves' : s.moves = List.replicate l.length .lineByte ++ .lineByte :: ms := by
    rw [hmoves, hl, List.replicate_succ', List.append_assoc]
    rfl
  rw [List.append_assoc] at hline
  obtain ⟨t, ht, hrun⟩ := run_lineBytes hs hpos hcap hl.le hline hmoves'
  have hlast : exec (.rxByte b) t = .next (completeRead (advance (acceptChecksum b t))) :=
    exec_of_effect (.checksum b (ht.state_eq.trans hs) (by rw [ht.pos, ht.expected_eq, hl]))
  rw [hl] at hrun
  refine ⟨_, (run_succ_next hrun).trans (step_lineByte_of_reading (ht.state_eq.trans hs) hlast ..), rfl, rfl, rfl, rfl, ?_⟩
  rw [take_drop_five_snoc hl, ← ht.payloadPrefix_eq hl]
  rfl

/-! Retried attempts (R130, R137). -/

/-- R11. -/
theorem toNat_satInc32 (v : BitVec 32) : (satInc32 v).toNat = min (v.toNat + 1) (2 ^ 32 - 1) := by
  have hv := v.isLt
  unfold satInc32
  split
  · next h => rw [h]; rfl
  · next h =>
    have hne : v.toNat ≠ 4294967295 := fun he => h (BitVec.eq_of_toNat_eq he)
    rw [BitVec.toNat_add_of_lt (by rw [BitVec.toNat_one (by decide)]; omega), BitVec.toNat_one (by decide)]
    omega

/-- READING at the start of attempt number `n`, not cancelled. -/
structure FreshAttempt (e : BitVec 16) (n : Nat) (s : State) : Prop where
  state : s.state = .reading
  pos : s.pos = 0#17
  acc : s.acc = 0#8
  errMagic : s.errMagic = false
  errSize : s.errSize = false
  cancel : s.cancel = false
  expected : s.expected = e
  cap : e.toNat ≤ s.payloadCap
  attempts : s.attempts.toNat = n

theorem freshAttempt_startRead {e : BitVec 16} {s : State} (hcancel : s.cancel = false) (hcap : e.toNat ≤ s.payloadCap) :
    FreshAttempt e 1 (startRead e s) := ⟨rfl, rfl, rfl, rfl, rfl, hcancel, rfl, hcap, rfl⟩

/-- The operations of an attempt that ends in a TIMEOUT. -/
def timedOut (l : List Byte) : List Instr := l.map .rxByte ++ [.timeout]

/-- One attempt short of a whole frame, and the TIMEOUT that retries it. -/
theorem FreshAttempt.retried {e : BitVec 16} {n : Nat} {s : State} (h : FreshAttempt e n s) {l : List Byte}
    (hlen : l.length < e.toNat + 6) (hn : n + 1 < 2 ^ 32) :
    ∃ t, execAll (timedOut l) s = .next t ∧ FreshAttempt e (n + 1) t := by
  obtain ⟨hstate, hpos, -, -, -, hcancel, rfl, hcap, hattempts⟩ := h
  obtain ⟨u, hrun, hu⟩ := exists_accepted hstate hpos hcap (Nat.le_of_lt_succ hlen)
  have hcancelU : u.cancel = false := by rw [hu.frame]; exact hcancel
  have hattemptsU : u.attempts = s.attempts := by rw [hu.frame]
  refine ⟨_, execAll_snoc hrun (exec_of_effect (.timeoutRetries (hu.state_eq.trans hstate) hcancelU)),
    hu.state_eq.trans hstate, rfl, rfl, rfl, rfl, hcancelU, hu.expected_eq, hcap.trans_eq hu.payloadCap_eq.symm, ?_⟩
  rw [retryAttempt_attempts, toNat_satInc32, hattemptsU, hattempts]
  omega

theorem FreshAttempt.retriedAll {e : BitVec 16} {n : Nat} {s : State} (h : FreshAttempt e n s) {partials : List (List Byte)}
    (hlen : ∀ l ∈ partials, l.length < e.toNat + 6) (hn : partials.length + n < 2 ^ 32) :
    ∃ t, execAll (partials.flatMap timedOut) s = .next t ∧ FreshAttempt e (partials.length + n) t := by
  induction partials generalizing n s with
  | nil => exact ⟨s, rfl, by rwa [List.length_nil, Nat.zero_add]⟩
  | cons l partials ih =>
    rw [List.length_cons, Nat.add_right_comm, Nat.add_assoc] at hn ⊢
    obtain ⟨t, hrun, ht⟩ := h.retried (hlen l List.mem_cons_self) (Nat.lt_of_le_of_lt (Nat.le_add_left _ _) hn)
    rw [List.flatMap_cons, execAll_append_next hrun]
    exact ih ht (fun m hm => hlen m (List.mem_cons_of_mem _ hm)) hn

/-- Settles O54: each TIMEOUT starts the next attempt afresh, and O52 is the last one. -/
theorem retriedReadCountsAttempts : Obligations.RetriedReadCountsAttempts := by
  intro s rsv e partials f hopen hcancel hcap hpartials hcount hlen
  have hstart : FreshAttempt e 1 (startRead e s) := freshAttempt_startRead hcancel hcap
  obtain ⟨u, hrun, hu⟩ := hstart.retriedAll hpartials hcount
  obtain ⟨hstate, hpos, hacc, hmagic, hsize, -, rfl, hcapU, hattempts⟩ := hu
  obtain ⟨t, hframe, hdone, hverdict, hpayload, -, -, -, -, -, hattemptsT, -⟩ :=
    parserComputesDecode u f hstate hpos hacc hmagic hsize hcapU hlen
  refine ⟨t, ?run, hdone, ?attempts, ?result, hpayload⟩
  case run =>
    rw [List.cons_append, execAll_cons_next (exec_cmdRead_accepted rsv hopen hcap)]
    exact (execAll_append_next hrun).trans hframe
  case attempts => rw [hattemptsT, hattempts]
  case result =>
    cases hdecode : frameDecode f u.expected with
    | ok frame flags =>
      rw [hdecode] at hverdict
      exact ⟨fun _ => ⟨frame, flags, rfl⟩, fun _ => hverdict.1⟩
    | err error flags =>
      rw [hdecode] at hverdict
      refine ⟨fun hok => ?_, nofun⟩
      rw [hverdict.1] at hok
      cases error <;> cases hok
    | undefinedLength =>
      rw [hdecode] at hverdict
      exact hverdict.elim

end Sys2Proof

/-! ### Reset, and the steps of each agent (R230, R9, R218)

What RESET leaves, and for each chosen move the operation that a step runs: from these O5, O6, O8 and O9. -/

namespace Sys2Proof

open Sys2Proof.Machine

/-! RESET (R230). -/

/-- Settles O8: every register is that of the reset state, and nothing of `P` and `S` is written. -/
theorem resetRestoresEveryRegister : Obligations.ResetRestoresEveryRegister :=
  fun s => ⟨resetBlock s, exec_reset s, rfl, rfl, rfl, rfl, rfl, rfl, rfl, rfl, rfl, rfl, rfl, rfl, rfl, rfl, rfl, rfl, rfl,
    rfl, rfl, rfl, rfl, fun _ => rfl, fun _ => rfl⟩

/-- R182: each register word is made of registers alone, but GEOMETRY. -/
theorem registerWord_resetBlock (s : State) {a : Nat} (h : a ≠ 0xA) : registerWord (resetBlock s) a = 0#32 := by
  obtain hhigh | hlow : 0xA < a ∨ a < 0xA := by omega
  · exact registerWord_unmapped _ hhigh
  · show registerWord State.reset a = 0#32
    interval_cases a <;> decide

/-- Settles O9: below the windows a read gives a register word, and GEOMETRY is the word at its own address. -/
theorem resetWordsReadZero : Obligations.ResetWordsReadZero := by
  intro s t addr h haddr
  rw [exec_reset] at h
  cases h
  rw [hostRead_of_lt_payloadBase _ haddr]
  split
  · next hgeometry => rw [hgeometry]; rfl
  · next hother => exact registerWord_resetBlock s fun ha => hother (BitVec.eq_of_toNat_eq ha)

/-! The chosen move. -/

theorem chosenMove_placed {s : State} {m : Move} {ms : List Move} (h : s.moves = m :: ms) : chosenMove s = m := by
  rw [chosenMove, h]

section
variable {s : State}

theorem step_of_fetch_some {i : Instr} {u : State} (h : fetch s = some (i, u)) : step s = exec i u := by
  rw [step, h]

theorem step_of_fetch_none (h : fetch s = none) : step s = .next (takeMove s) := by
  rw [step, h]

theorem step_host (hmove : chosenMove s = .host) {op : HostOp} {rest : List HostOp} (h : nextAccess s = some (op, rest)) :
    step s = exec (ofInput op.toInput) { takeMove s with host := rest } :=
  step_of_fetch_some (by rw [fetch, hmove]; simp only [h])

theorem step_host_none (hmove : chosenMove s = .host) (h : nextAccess s = none) : step s = .next (takeMove s) :=
  step_of_fetch_none (by rw [fetch, hmove]; simp only [h])

theorem step_lineByte (hmove : chosenMove s = .lineByte) {b : Byte} {rest : List Byte} (h : nextByte s = some (b, rest)) :
    step s = exec (.rxByte b) { takeMove s with line := if s.state = .reading then rest else b :: rest } := by
  have hready : (if rxReady s then rest else b :: rest) = if s.state = .reading then rest else b :: rest :=
    if_congr (rxReady_iff s) rfl rfl
  rw [← hready]
  exact step_of_fetch_some (by rw [fetch, hmove]; simp only [h])

theorem step_lineByte_none (hmove : chosenMove s = .lineByte) (h : nextByte s = none) : step s = .next (takeMove s) :=
  step_of_fetch_none (by rw [fetch, hmove]; simp only [h])

theorem step_lineErr (hmove : chosenMove s = .lineErr) : step s = exec .rxErr (takeMove s) :=
  step_of_fetch_some (by rw [fetch, hmove]; rfl)

theorem step_timer (hmove : chosenMove s = .timer) : step s = exec .timeout (takeMove s) :=
  step_of_fetch_some (by rw [fetch, hmove]; rfl)

theorem step_engine (hmove : chosenMove s = .engine) : step s = exec .unpackStep (takeMove s) :=
  step_of_fetch_some (by rw [fetch, hmove]; rfl)

theorem step_reset (hmove : chosenMove s = .reset) : step s = exec .reset (takeMove s) :=
  step_of_fetch_some (by rw [fetch, hmove]; rfl)

theorem nextAccess_free (h : s.host = []) : nextAccess s = (Config.freeAccess s.moveNo).map fun op => (op, []) := by
  rw [nextAccess, h]

theorem nextByte_free (h : s.line = []) : nextByte s = (Config.freeByte s.moveNo).map fun b => (b, []) := by
  rw [nextByte, h]

end

/-- Settles O5: each clause is the step of one agent, from its list or past it. -/
theorem stepRunsTheChosenOperation : Obligations.StepRunsTheChosenOperation := by
  intro s
  refine ⟨fun _ _ => chosenMove_placed, fun _ _ hmove hlist => step_host hmove (nextAccess_placed hlist), ?taken, ?kept,
    step_lineErr, step_timer, step_engine, step_reset, ?freeAccess, ?freeByte⟩
  case taken =>
    intro b rest hmove hline hs
    rw [step_lineByte hmove (nextByte_held hline), if_pos hs]
    rfl
  case kept =>
    intro b rest hmove hline hs
    rw [step_lineByte hmove (nextByte_held hline), if_neg hs, ← hline]
    rfl
  case freeAccess =>
    intro hmove hlist
    have hnext := nextAccess_free hlist
    cases hfree : Config.freeAccess s.moveNo with
    | none =>
      rw [hfree] at hnext
      exact step_host_none hmove hnext
    | some op =>
      rw [hfree] at hnext
      rw [step_host hmove hnext, ← hlist]
      rfl
  case freeByte =>
    intro hmove hline
    have hnext := nextByte_free hline
    cases hfree : Config.freeByte s.moveNo with
    | none =>
      rw [hfree] at hnext
      exact step_lineByte_none hmove hnext
    | some b =>
      rw [hfree] at hnext
      exact step_lineByte hmove hnext

/-! Placing an input (log entries 2 and 3). -/

/-- R86: only a byte of the line is an RX_BYTE. -/
theorem ofInput_ne_rxByte {j : Input} (h : ∀ b, j ≠ .lineByte b) (b : Byte) : ofInput j ≠ .rxByte b := fun he =>
  h b (by rw [← toInput_ofInput j, he, toInput])

/-- A placed input other than a byte is the next operation, and is taken again from its agent. -/
theorem step_placeInput {j : Input} (h : ∀ b, j ≠ .lineByte b) (s : State) :
    step (placeInput j s) = exec (ofInput j) { s with moveNo := s.moveNo + 1 } := by
  cases j with
  | hostWr addr d => exact step_host (op := .write addr d) rfl rfl
  | hostRd addr => exact step_host (op := .read addr) rfl rfl
  | lineByte b => exact absurd rfl (h b)
  | lineErr => exact step_lineErr rfl
  | timer => exact step_timer rfl
  | engine => exact step_engine rfl
  | reset => exact step_reset rfl

theorem step_placeInput_lineByte (b : Byte) (s : State) :
    step (placeInput (.lineByte b) s) =
      exec (.rxByte b) { s with
        moveNo := s.moveNo + 1, line := if s.state = .reading then s.line else b :: s.line } :=
  step_lineByte rfl rfl

/-- Settles O6: the decoded operation comes from an input, which is the one placed. -/
theorem placedRecordRunsNext : Obligations.PlacedRecordRunsNext := by
  intro bytes i rest s h
  obtain ⟨j, -, rfl⟩ := decode_eq_ok h
  rw [toInput_ofInput]
  by_cases hbyte : ∃ b, j = .lineByte b
  · obtain ⟨b, rfl⟩ := hbyte
    exact step_placeInput_lineByte b s
  · have hother : ∀ b, j ≠ .lineByte b := not_exists.mp hbyte
    rw [step_placeInput hother]
    split
    · next b hb => exact absurd hb (ofInput_ne_rxByte hother b)
    · rfl

end Sys2Proof

/-! ### Infinite runs (R214, R218)

Every enabled choice, placed before each step, is a run (O56); under the fairness of the engine UPK_IDX would pass
every bound in an unpack without an end (O57), and under timer liveness a TIMEOUT ends a cancelled read (O58). -/

namespace Sys2Proof

open Sys2Proof.Machine

/-! Any enabled choice (R9, R218). -/

/-- A relation that can be continued from every state of a kind, within the kind, has an infinite sequence from each. -/
theorem exists_seq {P : State → Prop} {R : State → State → Prop} (h : ∀ u, P u → ∃ t, P t ∧ R u t) {s : State} (hs : P s) :
    ∃ us : Nat → State, us 0 = s ∧ ∀ n, P (us n) ∧ R (us n) (us (n + 1)) := by
  choose! next hkind hrel using h
  have hall : ∀ n, P (next^[n] s) := by
    intro n
    induction n with
    | zero => exact hs
    | succ n ih =>
      rw [Function.iterate_succ_apply']
      exact hkind _ ih
  refine ⟨fun n => next^[n] s, rfl, fun n => ⟨hall n, ?_⟩⟩
  show R (next^[n] s) (next^[n + 1] s)
  rw [Function.iterate_succ_apply']
  exact hrel _ (hall n)

/-- A block that meets the invariant, with nothing placed. -/
structure Unplaced (u : State) : Prop where
  inv : Inv u
  host : u.host = []
  line : u.line = []
  moves : u.moves = []

/-- The outside may place any input where nothing is placed. -/
theorem Unplaced.placed {u : State} (h : Unplaced u) (j : Input) : Placed u (placeInput j u) := by
  obtain ⟨-, hhost, hline, hmoves⟩ := h
  cases j with
  | hostWr addr d => exact ⟨[.write addr d], [], [.host], by simp [placeInput, hhost, hmoves]⟩
  | hostRd addr => exact ⟨[.read addr], [], [.host], by simp [placeInput, hhost, hmoves]⟩
  | lineByte b => exact ⟨[], [b], [.lineByte], by simp [placeInput, hline, hmoves]⟩
  | lineErr => exact ⟨[], [], [.lineErr], by simp [placeInput, hmoves]⟩
  | timer => exact ⟨[], [], [.timer], by simp [placeInput, hmoves]⟩
  | engine => exact ⟨[], [], [.engine], by simp [placeInput, hmoves]⟩
  | reset => exact ⟨[], [], [.reset], by simp [placeInput, hmoves]⟩

/-- The operation of an input answers, and leaves nothing placed. -/
theorem Unplaced.exists_exec {u : State} (h : Unplaced u) (i : Instr) :
    ∃ t, Unplaced t ∧ exec i { u with moveNo := u.moveNo + 1 } = .next t := by
  have hinv : Inv { u with moveNo := u.moveNo + 1 } := { h.inv with }
  obtain ⟨t, ht⟩ := hinv.exists_exec_eq_next i
  have heffect := effect_of_exec ht
  have hagents : agentsOf t = ⟨u.host, u.line, u.moves, u.moveNo + 1⟩ := heffect.agentsOf_eq
  refine ⟨t, ⟨hinv.effect heffect, ?_, ?_, ?_⟩, ht⟩
  · exact (congrArg Agents.host hagents).trans h.host
  · exact (congrArg Agents.line hagents).trans h.line
  · exact (congrArg Agents.moves hagents).trans h.moves

/-- A step where an enabled input is placed runs it: an enabled RX_BYTE is one that the block accepts. -/
theorem step_placeInput_of_enabled {j : Input} {u : State} (h : enabled (ofInput j) u = true) :
    step (placeInput j u) = exec (ofInput j) { u with moveNo := u.moveNo + 1 } := by
  by_cases hbyte : ∃ b, j = .lineByte b
  · obtain ⟨b, rfl⟩ := hbyte
    have hs : u.state = .reading := beq_iff_eq.mp h
    rw [step_placeInput_lineByte, if_pos hs]
    rfl
  · exact step_placeInput (not_exists.mp hbyte) u

/-- Settles O56: the chosen input is placed before each step, which runs it and leaves nothing placed. -/
theorem anyEnabledChoiceIsARun : Obligations.AnyEnabledChoiceIsARun := by
  intro s choose hinv hhost hline hmoves henabled
  obtain ⟨us, hzero, hus⟩ :=
    exists_seq (fun u hu => Unplaced.exists_exec hu (ofInput (choose u))) (s := s) ⟨hinv, hhost, hline, hmoves⟩
  have hplaced : ∀ n, Placed (us n) (placeInput (choose (us n)) (us n)) := fun n => (hus n).1.placed _
  have hstep : ∀ n, step (placeInput (choose (us n)) (us n)) = .next (us (n + 1)) := fun n =>
    (step_placeInput_of_enabled (henabled (us n))).trans (hus n).2
  exact ⟨fun n => placeInput (choose (us n)) (us n), us, hzero, fun n => ⟨us (n + 1), hstep n, hplaced (n + 1)⟩,
    fun n => ⟨hplaced n, hstep n, (hus n).2⟩⟩

/-! An unpack under the fairness of the engine. -/

/-- The invariant along a run. -/
theorem IsRun.inv {tr : Nat → State} (h : IsRun tr) (h0 : Inv (tr 0)) (n : Nat) : Inv (tr n) := by
  induction n with
  | zero => exact h0
  | succ n ih =>
    obtain ⟨t, hstep, hplaced⟩ := h n
    exact hplaced.inv (stepKeepsStateInvariant _ _ ih hstep)

/-- R153: while an unpack goes on, UPK_IDX stays or counts one triplet. -/
theorem Effect.upkIdx_of_unpacking {s t : State} {i : Instr} (h : Effect s i t) (hs : s.state = .unpacking)
    (ht : t.state = .unpacking) :
    t.upkIdx = s.upkIdx ∧ i ≠ .unpackStep ∨ t.upkIdx.toNat = s.upkIdx.toNat + 1 := by
  have hbusy : ∀ {m : Mode}, m ≠ .unpacking → s.state ≠ m := fun hm he => hm (he.symm.trans hs)
  cases h with
  | triplet _ hidx => exact .inr (toNat_upkIdx_succ hidx.le)
  | readStarts | clears | checksum | lastTriplet | resets => exact nomatch ht
  | unpackTooShort | lineErrorEnds | timeoutAborts => exact nomatch ht
  | unpackStarts _ _ hopen => exact (hopen.elim (hbusy nofun) (hbusy nofun)).elim
  | engineIdle hidle => exact absurd hs hidle
  | _ => exact .inl ⟨rfl, nofun⟩

/-- The same over a step: the engine's step counts. -/
theorem step_upkIdx_of_unpacking {s t : State} (h : step s = .next t) (hs : s.state = .unpacking)
    (ht : t.state = .unpacking) :
    s.upkIdx.toNat ≤ t.upkIdx.toNat ∧ (chosenMove s = .engine → t.upkIdx.toNat = s.upkIdx.toNat + 1) := by
  obtain ⟨i, u, hf, he⟩ | ⟨hf, rfl⟩ := step_cases h
  · have hengine : chosenMove s = .engine → i = .unpackStep := fun hm => by
      rw [fetch, hm] at hf
      cases hf
      rfl
    obtain ⟨a, rfl⟩ := exists_withAgents_of_fetch hf
    obtain ⟨hkept, hother⟩ | hcounts := (effect_of_exec he).upkIdx_of_unpacking hs ht
    · exact ⟨(congrArg BitVec.toNat hkept).ge, fun hm => absurd (hengine hm) hother⟩
    · have hcounts' : t.upkIdx.toNat = s.upkIdx.toNat + 1 := hcounts
      exact ⟨by omega, fun _ => hcounts'⟩
  · refine ⟨le_rfl, fun hm => ?_⟩
    rw [fetch, hm] at hf
    cases hf

/-- In an unpack without an end the fair engine counts past every bound. -/
theorem exists_le_upkIdx {tr : Nat → State} {n : Nat} (hrun : IsRun tr) (hfair : EngineFair tr)
    (hall : ∀ m, n ≤ m → (tr m).state = .unpacking) (k : Nat) : ∃ m, n ≤ m ∧ k ≤ (tr m).upkIdx.toNat := by
  have hnext : ∀ m, n ≤ m → (tr m).upkIdx.toNat ≤ (tr (m + 1)).upkIdx.toNat ∧
      (chosenMove (tr m) = .engine → (tr (m + 1)).upkIdx.toNat = (tr m).upkIdx.toNat + 1) := by
    intro m hm
    obtain ⟨t, hstep, hplaced⟩ := hrun m
    rw [hplaced.upkIdx_eq]
    exact step_upkIdx_of_unpacking hstep (hall m hm) (hplaced.state_eq.symm.trans (hall (m + 1) (Nat.le_succ_of_le hm)))
  have hmono : ∀ m, n ≤ m → ∀ j, (tr m).upkIdx.toNat ≤ (tr (m + j)).upkIdx.toNat := by
    intro m hm j
    induction j with
    | zero => exact le_rfl
    | succ j ih => exact ih.trans (hnext (m + j) (Nat.le_add_right_of_le hm)).1
  induction k with
  | zero => exact ⟨n, le_rfl, Nat.zero_le _⟩
  | succ k ih =>
    obtain ⟨m, hm, hk⟩ := ih
    obtain ⟨m', hm', -, hengine⟩ := hfair m fun j hj => hall j (hm.trans hj)
    obtain ⟨j, rfl⟩ := Nat.exists_eq_add_of_le hm'
    refine ⟨m + j + 1, by omega, ?_⟩
    rw [(hnext (m + j) (hm.trans hm')).2 hengine]
    exact Nat.succ_le_succ (hk.trans (hmono m hm j))

/-- Settles O57: the invariant bounds UPK_IDX. -/
theorem fairEngineEndsEveryUnpack : Obligations.FairEngineEndsEveryUnpack := by
  intro tr n hrun hfair hinv _
  by_contra hends
  have hall : ∀ m, n ≤ m → (tr m).state = .unpacking := fun m hm => by
    by_contra hs
    exact hends ⟨m, hm, hs⟩
  obtain ⟨m, -, hpast⟩ := exists_le_upkIdx hrun hfair hall (Config.triplets + 1)
  exact absurd (hrun.inv hinv m).upkBound (Nat.not_le_of_gt hpast)

/-! A cancelled read under timer liveness. -/

/-- R131 as a step. -/
theorem step_timer_of_cancelled {s t : State} (h : step s = .next t) (hs : s.state = .reading) (hc : s.cancel = true)
    (hmove : chosenMove s = .timer) : t.state = .done := by
  rw [step_timer hmove, timeoutAbortsCancelledRead (takeMove s) hs hc] at h
  cases h
  rfl

/-- Settles O58: the TIMEOUT that liveness promises ends the read. -/
theorem liveTimerEndsCancelledRead : Obligations.LiveTimerEndsCancelledRead := by
  intro tr n hrun hlive _ hcancel hsilent
  by_contra hends
  have hall : ∀ m, n ≤ m → (tr m).state = .reading := fun m hm => by
    by_contra hs
    exact hends ⟨m, hm, hs⟩
  obtain ⟨m, hm, hs, hmove⟩ := hlive n hall hsilent
  obtain ⟨t, hstep, hplaced⟩ := hrun m
  have hdone : (tr (m + 1)).state = .done :=
    hplaced.state_eq.trans (step_timer_of_cancelled hstep hs (hcancel m hm hs) hmove)
  exact hends ⟨m + 1, Nat.le_succ_of_le hm, by rw [hdone]; nofun⟩

end Sys2Proof

/-! ### The clock-cycle layer (R212, R213, R246; log entry 11)

Which operations one cycle has, each enabled where it stands (O59); and the cycles of a silent line, which only count
TMR until the one that reaches `T_CYC` (O60). -/

namespace Sys2Proof

open Sys2Proof.Machine

/-! Runs of enabled operations. -/

theorem execAll_cons_eq_next {i : Instr} {is : List Instr} {s t : State} (h : execAll (i :: is) s = .next t) :
    ∃ u, exec i s = .next u ∧ execAll is u = .next t := by
  rw [execAll] at h
  split at h
  · next u hu => exact ⟨u, hu, h⟩
  · cases h
  · cases h

theorem execAll_append_eq_next {is js : List Instr} {s t : State} (h : execAll (is ++ js) s = .next t) :
    ∃ u, execAll is s = .next u ∧ execAll js u = .next t := by
  induction is generalizing s with
  | nil => exact ⟨s, rfl, h⟩
  | cons i is ih =>
    obtain ⟨u, hu, hrest⟩ := execAll_cons_eq_next h
    obtain ⟨v, hv, hjs⟩ := ih hrest
    exact ⟨v, (execAll_cons_next hu).trans hv, hjs⟩

theorem EnabledRun.append {is js : List Instr} {s t u : State} (h : EnabledRun is s u) (hjs : EnabledRun js u t) :
    EnabledRun (is ++ js) s t := by
  induction is generalizing s with
  | nil => obtain rfl : s = u := h; exact hjs
  | cons i is ih =>
    obtain ⟨hi, v, hv, hrest⟩ := h
    exact ⟨hi, v, hv, ih hrest⟩

theorem enabledRun_singleton {i : Instr} {s t : State} (hi : enabled i s = true) (h : execAll [i] s = .next t) :
    EnabledRun [i] s t := by
  obtain ⟨u, hu, hnil⟩ := execAll_cons_eq_next h
  cases hnil
  exact ⟨hi, t, hu, rfl⟩

/-- R218: of the operations only RX_BYTE, TIMEOUT and UNPACK_STEP are not always enabled. -/
theorem enabled_of_ne {i : Instr} (hbyte : ∀ b, i ≠ .rxByte b) (htimeout : i ≠ .timeout) (hstep : i ≠ .unpackStep)
    (s : State) :
    enabled i s = true := by
  cases i with
  | rxByte b => exact absurd rfl (hbyte b)
  | timeout => exact absurd rfl htimeout
  | unpackStep => exact absurd rfl hstep
  | _ => rfl

/-- A host write is no operation of the line, the timer or the engine. -/
theorem ofInput_hostWr_ne (addr : Addr) (d : Word) :
    (∀ b, ofInput (.hostWr addr d) ≠ .rxByte b) ∧ ofInput (.hostWr addr d) ≠ .timeout ∧
      ofInput (.hostWr addr d) ≠ .unpackStep := by
  have hcarried := toInput_ofInput (.hostWr addr d)
  refine ⟨fun b h => ?_, fun h => ?_, fun h => ?_⟩ <;>
    · rw [h] at hcarried
      cases hcarried

/-! The operations of a cycle. -/

/-- The read that comes first in a cycle gives the host a word, and changes nothing else. -/
theorem execAll_read (o : Option Addr) (s : State) :
    ∃ w, execAll ((o.map Instr.rd).toList) s = .next { s with hostData := w } := by
  cases o with
  | none => exact ⟨s.hostData, rfl⟩
  | some addr => exact ⟨some (hostRead s addr), rfl⟩

theorem enabledRun_read {o : Option Addr} {s t : State} (h : execAll ((o.map Instr.rd).toList) s = .next t) :
    EnabledRun ((o.map Instr.rd).toList) s t := by
  cases o with
  | none => cases h; rfl
  | some addr => exact enabledRun_singleton rfl h

section
variable {p : RtlParams} {c : Cycle p} {r : Rtl p}

/-- R246: the events of a cycle between the host's read and its write, told by the STATE at the cycle's start. -/
inductive CycleOps (s : State) : List Instr → Prop
  | quiet : CycleOps s []
  | reset : CycleOps s [.reset]
  | lineErr : CycleOps s [.rxErr]
  | lineErrThenTriplet (hs : s.state = .unpacking) : CycleOps s [.rxErr, .unpackStep]
  | byte (b : Byte) (hs : s.state = .reading) : CycleOps s [.rxByte b]
  | timeout (hs : s.state = .reading) : CycleOps s [.timeout]
  | triplet (hs : s.state = .unpacking) : CycleOps s [.unpackStep]

theorem reading_of_cycleAccepts (h : cycleAccepts c r = true) : r.block.state = .reading := by
  simp only [cycleAccepts, Bool.and_eq_true] at h
  obtain ⟨⟨hready, -⟩, -⟩ := h
  exact (rxReady_iff _).mp hready

theorem reading_of_cycleExpires (h : cycleExpires c r = true) : r.block.state = .reading := by
  simp only [cycleExpires, Bool.and_eq_true] at h
  obtain ⟨⟨⟨hready, -⟩, -⟩, -⟩ := h
  exact (rxReady_iff _).mp hready

/-- A line error keeps the byte out and the timer from expiring, and an accepted byte keeps the timer from expiring. -/
theorem cycleEvents_cases (c : Cycle p) (r : Rtl p) :
    ∃ ops, CycleOps r.block ops ∧ cycleEvents c r = ((busRead c r).map Instr.rd).toList ++ ops := by
  refine ⟨_, ?_, rfl⟩
  cases hreset : resetActive c
  case true => exact .reset
  cases herr : c.lineErr
  case true =>
    have haccepts : cycleAccepts c r = false := by simp [cycleAccepts, herr]
    have hexpires : cycleExpires c r = false := by simp [cycleExpires, herr]
    by_cases hs : r.block.state = .unpacking
    · simpa [cycleByte, haccepts, hexpires, hs] using CycleOps.lineErrThenTriplet hs
    · simpa [cycleByte, haccepts, hexpires, hs] using CycleOps.lineErr
  cases haccepts : cycleAccepts c r
  case true =>
    have hs := reading_of_cycleAccepts haccepts
    have hexpires : cycleExpires c r = false := by simp [cycleExpires, haccepts]
    obtain ⟨b, hb⟩ : ∃ b, c.lineByte = some b := by
      simp only [cycleAccepts, Bool.and_eq_true] at haccepts
      exact Option.isSome_iff_exists.mp haccepts.2
    simpa [cycleByte, haccepts, hexpires, hs, hb] using CycleOps.byte b hs
  cases hexpires : cycleExpires c r
  case true =>
    have hs := reading_of_cycleExpires hexpires
    simpa [cycleByte, haccepts, hs] using CycleOps.timeout hs
  by_cases hs : r.block.state = .unpacking
  · simpa [cycleByte, haccepts, hs] using CycleOps.triplet hs
  · simpa [cycleByte, haccepts, hs] using CycleOps.quiet

end

/-- Each of them is enabled where it stands: a line error leaves an unpack alone (R132). -/
theorem CycleOps.enabledRun {s t u : State} {ops : List Instr} (h : CycleOps s ops) (hstate : u.state = s.state)
    (hrun : execAll ops u = .next t) : EnabledRun ops u t := by
  cases h with
  | quiet => cases hrun; rfl
  | reset | lineErr => exact enabledRun_singleton rfl hrun
  | lineErrThenTriplet hs =>
    have hu : u.state = .unpacking := hstate.trans hs
    have herr : exec .rxErr u = .next u := exec_rxErr_of_not_reading (by rw [hu]; nofun)
    rw [execAll_cons_next herr] at hrun
    exact ⟨rfl, u, herr, enabledRun_singleton (beq_iff_eq.mpr hu) hrun⟩
  | byte b hs | timeout hs | triplet hs => exact enabledRun_singleton (beq_iff_eq.mpr (hstate.trans hs)) hrun

theorem enabledRun_cycleWrite {p : RtlParams} {c : Cycle p} {r : Rtl p} {s t : State}
    (h : execAll (cycleWrite c r) s = .next t) : EnabledRun (cycleWrite c r) s t := by
  revert h
  rw [cycleWrite]
  cases resetActive c with
  | true => rintro h; cases h; rfl
  | false =>
    cases busWrite c r with
    | none => rintro h; cases h; rfl
    | some w =>
      obtain ⟨hbyte, htimeout, hstep⟩ := ofInput_hostWr_ne w.1 w.2
      exact enabledRun_singleton (enabled_of_ne hbyte htimeout hstep s)

/-- Settles O59: the read leaves STATE as it was, the events between are enabled by that STATE, and a host write
always is. -/
theorem clockCycleIsEnabledRun : Obligations.ClockCycleIsEnabledRun := by
  intro p c r r' h
  obtain ⟨mid, hevents, hwrite, -, -⟩ := rtlCycle_cases h
  obtain ⟨ops, hops, heq⟩ := cycleEvents_cases c r
  rw [heq] at hevents ⊢
  obtain ⟨u, hread, hrun⟩ := execAll_append_eq_next hevents
  obtain ⟨w, hword⟩ := execAll_read (busRead c r) r.block
  have hu : u = { r.block with hostData := w } := by
    rw [hword] at hread
    cases hread
    rfl
  have hstate : u.state = r.block.state := by rw [hu]
  exact ((enabledRun_read hread).append (hops.enabledRun hstate hrun)).append (enabledRun_cycleWrite hwrite)

/-! A silent line. -/

/-- `t` is `s` but for what the host may change of a read in progress: CANCEL, CMD_REJECT, and the word it read. -/
def HostOnly (s t : State) : Prop :=
  t = { s with cancel := t.cancel, cmdReject := t.cmdReject, hostData := t.hostData }

theorem HostOnly.trans {s t u : State} (h : HostOnly s t) (h' : HostOnly t u) : HostOnly s u := by
  rw [HostOnly, h', h]

theorem HostOnly.state_eq {s t : State} (h : HostOnly s t) : t.state = s.state := by rw [h]

/-- R176, R242: while READING a host write is rejected, is ignored, or sets CANCEL. -/
theorem Effect.hostOnly {s t : State} {i : Instr} {addr : Addr} {d : Word} (h : Effect s i t)
    (hi : toInput i = .hostWr addr d) (hs : s.state = .reading) : HostOnly s t := by
  cases h with
  | nop | ignores | setsCancel | readRejected | unpackRejected | clearRejected | reservedRejected => rfl
  | readStarts _ hopen | unpackTooShort _ _ hopen | unpackStarts _ _ hopen | clears _ _ hopen => simp [hs] at hopen
  | _ => exact nomatch hi

section
variable {p : RtlParams} {c : Cycle p} {r : Rtl p}

theorem rtlCycle_eq_next {mid s : State} (hevents : execAll (cycleEvents c r) r.block = .next mid)
    (hwrite : execAll (cycleWrite c r) mid = .next s) :
    rtlCycle c r = .next ⟨s, tmrAfter c r mid s, busAfter c r⟩ := by
  simp only [rtlCycle, hevents, hwrite]

/-- The cycle's write, if there is one, disturbs no read. -/
theorem exists_execAll_cycleWrite (c : Cycle p) (r : Rtl p) {s : State} (hs : s.state = .reading) :
    ∃ t, execAll (cycleWrite c r) s = .next t ∧ HostOnly s t := by
  rw [cycleWrite]
  cases resetActive c with
  | true => exact ⟨s, rfl, rfl⟩
  | false =>
    cases busWrite c r with
    | none => exact ⟨s, rfl, rfl⟩
    | some w =>
      obtain ⟨hbyte, -, hstep⟩ := ofInput_hostWr_ne w.1 w.2
      obtain ⟨t, ht⟩ := exists_exec_eq_next hbyte hstep s
      exact ⟨t, execAll_cons_next ht, (effect_of_exec ht).hostOnly (toInput_ofInput _) hs⟩

theorem lineSilent_iff (c : Cycle p) :
    lineSilent c = true ↔ resetActive c = false ∧ c.lineErr = false ∧ c.lineByte = none := by
  simp [lineSilent, and_assoc]

section
variable (hsilent : lineSilent c = true) (hs : r.block.state = .reading)
include hsilent

theorem cycleAccepts_of_silent : cycleAccepts c r = false := by
  obtain ⟨-, -, hbyte⟩ := (lineSilent_iff c).mp hsilent
  simp [cycleAccepts, hbyte]

include hs

/-- R212: on a silent line the timer expires where it reaches the limit. -/
theorem cycleExpires_of_silent : cycleExpires c r = decide (tCyc p ≤ r.tmr + 1) := by
  obtain ⟨-, herr, -⟩ := (lineSilent_iff c).mp hsilent
  simp [cycleExpires, cycleAccepts_of_silent hsilent, herr, (rxReady_iff _).mpr hs]

theorem cycleEvents_of_silent :
    cycleEvents c r = ((busRead c r).map Instr.rd).toList ++ if tCyc p ≤ r.tmr + 1 then [.timeout] else [] := by
  obtain ⟨hreset, herr, -⟩ := (lineSilent_iff c).mp hsilent
  simp [cycleEvents, cycleByte, hreset, herr, hs, cycleAccepts_of_silent hsilent, cycleExpires_of_silent hsilent hs]

theorem tmrAfter_of_silent_counting {mid s : State} (hlt : r.tmr + 1 < tCyc p) (hmid : mid.state = .reading) :
    tmrAfter c r mid s = r.tmr + 1 := by
  obtain ⟨hreset, -, -⟩ := (lineSilent_iff c).mp hsilent
  simp [tmrAfter, hreset, cycleAccepts_of_silent hsilent, cycleExpires_of_silent hsilent hs, hlt.not_ge,
    (rxReady_iff _).mpr hs, (rxReady_iff _).mpr hmid]

theorem tmrAfter_of_silent_retry {mid s : State} (hlimit : tCyc p ≤ r.tmr + 1) (hcancel : r.block.cancel = false) :
    tmrAfter c r mid s = 0 := by
  simp [tmrAfter, cycleExpires_of_silent hsilent hs, hlimit, hcancel]

/-- R212: below the limit a silent cycle counts. -/
theorem exists_rtlCycle_counting (hlt : r.tmr + 1 < tCyc p) :
    ∃ r', rtlCycle c r = .next r' ∧ r'.tmr = r.tmr + 1 ∧ HostOnly r.block r'.block := by
  obtain ⟨w, hread⟩ := execAll_read (busRead c r) r.block
  obtain ⟨t, hwrite, hhost⟩ := exists_execAll_cycleWrite c r (s := { r.block with hostData := w }) hs
  have hevents : execAll (cycleEvents c r) r.block = .next { r.block with hostData := w } := by
    rw [cycleEvents_of_silent hsilent hs, if_neg hlt.not_ge, List.append_nil, hread]
  have hread' : HostOnly r.block { r.block with hostData := w } := rfl
  exact ⟨_, rtlCycle_eq_next hevents hwrite, tmrAfter_of_silent_counting hsilent hs hlt hs, hread'.trans hhost⟩

/-- The cycle that reaches the limit runs TIMEOUT, on the block with the word that the cycle's read returned. -/
theorem exists_rtlCycle_expiring (hlimit : tCyc p ≤ r.tmr + 1) (hnowrite : busWrite c r = none) :
    ∃ w t, exec .timeout { r.block with hostData := w } = .next t ∧
      rtlCycle c r = .next ⟨t, tmrAfter c r t t, busAfter c r⟩ := by
  obtain ⟨w, hread⟩ := execAll_read (busRead c r) r.block
  obtain ⟨t, ht⟩ := exists_exec_eq_next (i := .timeout) nofun nofun { r.block with hostData := w }
  have hevents : execAll (cycleEvents c r) r.block = .next t := by
    rw [cycleEvents_of_silent hsilent hs, if_pos hlimit]
    exact execAll_snoc hread ht
  have hwrite : execAll (cycleWrite c r) t = .next t := by
    simp [cycleWrite, hnowrite]
  exact ⟨w, t, ht, rtlCycle_eq_next hevents hwrite⟩

end

/-- R138, R212: below the limit silent cycles count, one after the other. -/
theorem exists_rtlCycles_counting {cs : List (Cycle p)} (hsilent : ∀ c ∈ cs, lineSilent c = true)
    (hs : r.block.state = .reading) (hlt : r.tmr + cs.length < tCyc p) :
    ∃ r', rtlCycles cs r = .next r' ∧ r'.tmr = r.tmr + cs.length ∧ HostOnly r.block r'.block := by
  induction cs generalizing r with
  | nil => exact ⟨r, rfl, rfl, rfl⟩
  | cons c cs ih =>
    rw [List.length_cons] at hlt
    obtain ⟨r1, hcycle, htmr, hhost⟩ := exists_rtlCycle_counting (hsilent c List.mem_cons_self) hs (by omega)
    obtain ⟨r', hcycles, htmr', hhost'⟩ :=
      ih (fun m hm => hsilent m (List.mem_cons_of_mem _ hm)) (hhost.state_eq.trans hs) (by omega)
    refine ⟨r', (rtlCycles_cons_next hcycle).trans hcycles, ?_, hhost.trans hhost'⟩
    rw [htmr', htmr, List.length_cons]
    omega

end

/-- Settles O60: TMR counts up to the cycle before the limit, and the TIMEOUT of the next one aborts or retries by
CANCEL. -/
theorem silentLineTimesOutAtLimit : Obligations.SilentLineTimesOutAtLimit := by
  intro p r cs hs hbelow hcs
  refine ⟨fun hlt => exists_rtlCycles_counting hcs hs (by omega), fun c m hc hlast hcycles hnowrite => ?_⟩
  obtain ⟨m', hcounted, htmr, hhost⟩ := exists_rtlCycles_counting hcs hs (by omega)
  obtain rfl : m = m' := by
    rw [hcycles] at hcounted
    cases hcounted
    rfl
  have hm : m.block.state = .reading := hhost.state_eq.trans hs
  have hlimit : tCyc p ≤ m.tmr + 1 := by omega
  obtain ⟨w, t, ht, hcycle⟩ := exists_rtlCycle_expiring hc hm hlimit hnowrite
  refine ⟨_, hcycle, fun hcancel => ?aborts, fun hcancel => ?retries⟩
  case aborts =>
    have haborted : exec .timeout { m.block with hostData := w } = .next (finish .aborted { m.block with hostData := w }) :=
      exec_of_effect (.timeoutAborts hm hcancel)
    cases ht.symm.trans haborted
    rfl
  case retries =>
    have hretried : exec .timeout { m.block with hostData := w } = .next (retryAttempt { m.block with hostData := w }) :=
      exec_of_effect (.timeoutRetries hm hcancel)
    cases ht.symm.trans hretried
    exact ⟨tmrAfter_of_silent_retry hc hm hlimit hcancel, hm, rfl, toNat_satInc32 _⟩

end Sys2Proof
